-- ==== Sys2Proof/Word.lean ====
section
/-! DEFINITION. The word types of the block (spec/00_scope.md R5, R13: every quantity is unsigned). -/

namespace Sys2Proof

/-- One byte: a command word, a payload byte, a character of the encoded record (R64, R80). -/
abbrev Byte := BitVec 8

/-- `u32`: the identifier, a length (R24). -/
abbrev Word32 := BitVec 32

/-- `u64`: microsecond timestamps and timeouts (R25, R86). -/
abbrev Word64 := BitVec 64

/-- The seven-bit alert set of R87: `ALERT_EN`, `ALERT_PEND`, the operand of `EV_ALERT`, the `m` of `Dispatch(m)`. -/
abbrev AlertMask := BitVec 7

end Sys2Proof
end

