-- ==== Sys2Proof/Syntax.lean ====
section
/-! DEFINITION. The syntax of CPI-OPS version 1: the records the operations carry and the 30 operations of
spec/30_encoding.md R83 (spec/opcode_table.json), one constructor each. -/

namespace Sys2Proof

/-- The agents of R7. -/
inductive Agent where
  | host | env | fm | ing | egr
  deriving DecidableEq, Repr, Inhabited

/-- The seven alerts, in the order of the bits of R87. -/
inductive Alert where
  | dataAvail | rxqFull | errPassive | busError | arbLost | busOff | busRecovered
  deriving DecidableEq, Repr, Inhabited

/-- The eight payload bytes `data[0] .. data[7]` of a frame (R24): always eight, whatever `dlc` says. -/
structure Payload where
  b0 : Byte
  b1 : Byte
  b2 : Byte
  b3 : Byte
  b4 : Byte
  b5 : Byte
  b6 : Byte
  b7 : Byte
  deriving DecidableEq, Repr, Inhabited

/-- A CAN Frame record `F` (R24), stored verbatim: `id` is not masked and `dlc` may exceed 8. -/
structure Frame where
  id   : Word32
  ext  : Bool
  rtr  : Bool
  dlc  : Byte
  data : Payload
  deriving DecidableEq, Repr, Inhabited

/-- A Timestamped Frame record `TF` (R25). -/
structure TimedFrame where
  ts    : Word64
  frame : Frame
  deriving DecidableEq, Repr, Inhabited

/-- The timeout operand of `DEQUEUE` (R86): `Forever`, or a finite wait in microseconds. -/
inductive Timeout where
  | forever
  | after (us : Word64)
  deriving DecidableEq, Repr, Inhabited

/-- CPI-OPS version 1 (R83): one constructor per row of spec/opcode_table.json. -/
inductive Instr where
  | reset
  | launch
  | configure
  | restart
  | initRecovery
  | receive
  | readStatus
  | readAlerts
  | fmWait
  | hDataAvail
  | hRxqFull
  | hErrPassive
  | hBusError
  | hArbLost
  | hBusOff
  | hBusRecovered
  | tryEnqueue (tf : TimedFrame)
  | dequeue (timeout : Timeout)
  | ingRecv
  | ingEnq
  | ingWake
  | encodeFrame (valid : Bool) (tf : TimedFrame) (cap : Word32)
  | egrDeq
  | egrEmit
  | transportWrite (bytes : List Byte)
  | evFrame (f : Frame)
  | evBusOff
  | evRecoveryDone
  | evAlert (mask : AlertMask)
  | evTime (t : Word64)
  deriving DecidableEq, Repr, Inhabited

end Sys2Proof
end

