-- ==== Sys2Proof/Config.lean ====
section
/-! DEFINITION. The implementation parameters of spec/00_scope.md R5 and the free values of the model: the named
draws of spec/93_implementation_defined.md section 4 and the values spec/10_state.md leaves unspecified. -/

namespace Sys2Proof

/-- The opaque bit-rate timing profile (R5 `TIMING_PROFILE`, R36): a token no rule looks into. Log 19. -/
structure Timing where
  token : Nat
  deriving DecidableEq, Repr, Inhabited

/-- The opaque status snapshot (R41): a token no rule looks into. Log 19. -/
structure Status where
  token : Nat
  deriving DecidableEq, Repr, Inhabited

/-- `HWQ_ON_RECOVERY` (R5, R182). The vectors of spec/95_test_vectors.md call `preserve` "keep". -/
inductive HwqPolicy where
  | preserve | flush
  deriving DecidableEq, Repr, Inhabited

/-- Log severities, least first (R91). -/
inductive Severity where
  | debug | info | warn | error
  deriving DecidableEq, Repr, Inhabited

/-- The draw `cfg_fail` of `CONFIGURE` (R100): its set has no member for step S2, which cannot fail. -/
inductive CfgFault where
  | none | chAlloc | pinCfg | drvInstall | alertCfg | drvStart
  deriving DecidableEq, Repr, Inhabited

/-- The draws `restart_result` and `recovery_result` (R101, R102): `Ok` or `Err(Fail)`. -/
inductive CallDraw where
  | ok | fail
  deriving DecidableEq, Repr, Inhabited

/-- The draw `rx_fault` of `RECEIVE` (R103). -/
inductive RxFault where
  | noFault | timeout | fail
  deriving DecidableEq, Repr, Inhabited

/-- `FILTER` (R5, R36) as plain data: the constant-true predicate, or one of the narrowed ones, which the model does not
interpret (log 20). -/
inductive AcceptFilter where
  | acceptAll | narrowed (k : Nat)
  deriving DecidableEq, Repr, Inhabited

/-- `ALERT_BIT` (R5): the bit position of each alert in the seven-bit alert bitmask. Each bit is one alert's (R87). -/
structure AlertBits where
  dataAvail    : Fin 7
  rxqFull      : Fin 7
  errPassive   : Fin 7
  busError     : Fin 7
  arbLost      : Fin 7
  busOff       : Fin 7
  busRecovered : Fin 7
  distinct     : [dataAvail, rxqFull, errPassive, busError, arbLost, busOff, busRecovered].Nodup
  deriving DecidableEq, Repr

/-- The parameters of R5. They are fixed for the life of a machine; the model carries them in `State` so that a statement
holds for every value of them (log 8). `MODE` is hard-wired. `ID_W`, `DLC_W` and `TS_W` are at most the widths `u32`,
`u8` and `u64` of the fields of R24 and R25 and their images; the payload fits the eight bytes of R24 and R84, and the
alerts the seven of R87. -/
structure Params where
  capacity        : Nat
  warnWindowUs    : Nat
  backoffUs       : Nat
  hwqDepth        : Nat
  hwqOnRecovery   : HwqPolicy
  timingProfile   : Timing
  stbyPin         : Nat
  stbyActiveLevel : Bool
  logVerbosity    : Severity
  outCap          : Nat
  alertBit        : AlertBits
  alertOrder      : List Alert
  filter          : AcceptFilter
  dropWidth       : Nat
  idWidth         : Fin 33
  dlcWidth        : Fin 9
  tsWidth         : Fin 65
  payloadMax      : Fin 9
  alertCount      : Fin 8
  deriving DecidableEq, Repr

/-- R5's side conditions `C >= 1`, `HWQ_DEPTH >= 1`, `T_BACKOFF_US > 0`, and that `ALERT_ORDER` lists each of the
seven alerts once (R111). -/
def Params.wf (p : Params) : Bool :=
  decide (1 ≤ p.capacity) && decide (1 ≤ p.hwqDepth) && decide (0 < p.backoffUs)
    && decide (p.alertOrder.length = 7)
    && [Alert.dataAvail, .rxqFull, .errPassive, .busError, .arbLost, .busOff, .busRecovered].all
        (fun a => decide (a ∈ p.alertOrder))

namespace Config

/-- `HWQ_DEPTH - 1`: the depth is OPEN but at least 1 (R5). -/
opaque hwqDepthLessOne : Nat

/-- `T_BACKOFF_US - 1`: the back-off is OPEN but positive (R5). -/
opaque backoffUsLessOne : Nat

/-- `TIMING_PROFILE`, OPEN (R5). -/
opaque timingProfile : Timing

/-- `STBY_PIN`, OPEN (R5). -/
opaque stbyPin : Nat

/-- `STBY_ACTIVE_LEVEL`, OPEN (R5, R32). -/
opaque stbyActiveLevel : Bool

/-- `LOG_VERBOSITY`, OPEN (R5). -/
opaque logVerbosity : Severity

/-- `OUT_CAP`, OPEN (R5). -/
opaque outCap : Nat

/-- What the narrowed filter number `k` accepts (R36, log 20). -/
opaque narrowedAccepts : Nat → Frame → Bool

/-- `ALERT_BIT` of R87, R5's default. -/
def alertBit : AlertBits :=
  { dataAvail := 0, rxqFull := 1, errPassive := 2, busError := 3, arbLost := 4, busOff := 5, busRecovered := 6
    distinct := by decide }

/-- `ALERT_ORDER` of R111, R5's default. -/
def alertOrder : List Alert :=
  [.dataAvail, .rxqFull, .busError, .errPassive, .arbLost, .busOff, .busRecovered]

/-- The parameters this hardware takes unless it is instantiated otherwise (R5). -/
def params : Params :=
  { capacity := 4096, warnWindowUs := 1000000, backoffUs := backoffUsLessOne + 1, hwqDepth := hwqDepthLessOne + 1
    hwqOnRecovery := .preserve, timingProfile := timingProfile, stbyPin := stbyPin
    stbyActiveLevel := stbyActiveLevel, logVerbosity := logVerbosity, outCap := outCap, alertBit := alertBit
    alertOrder := alertOrder, filter := .acceptAll, dropWidth := 32, idWidth := 32, dlcWidth := 8, tsWidth := 64
    payloadMax := 8, alertCount := 7 }

/-! The free values: each is applied to the counter `State.drawIdx`, which the step advances (log 6). -/

/-- `cfg_fail` (R100). -/
opaque cfgFail : Nat → CfgFault

/-- `restart_result` (R101). -/
opaque restartResult : Nat → CallDraw

/-- `recovery_result` (R102). -/
opaque recoveryResult : Nat → CallDraw

/-- `rx_fault` (R103). -/
opaque rxFault : Nat → RxFault

/-- `status_result` (R104): whether the fetch fails. -/
opaque statusFails : Nat → Bool

/-- What the environment lets `STATUS` be (R41). -/
opaque statusValue : Nat → Status

/-- `deq_expired` (R132): whether a finite wait on an empty channel ends now. -/
opaque deqExpired : Nat → Bool

/-- The negation of `tx_ok` (R172): whether the transport drops the write. -/
opaque txDropped : Nat → Bool

/-- The post-reset value of `TIME_US` (R21). -/
opaque resetTime : Nat → Word64

/-- The post-reset value of `STBY` (R32). -/
opaque resetStby : Nat → Bool

/-- The post-reset value of `DRVCFG.TIMING` (R34 SR1). -/
opaque resetTiming : Nat → Timing

/-- Which agent takes the next step, where no record says so (R7, R250). -/
opaque turn : Nat → Agent

/-- The operation `HOST` takes when it is its turn (R188). -/
opaque hostOp : Nat → Instr

/-- The event `ENV` takes when it is its turn (R185). -/
opaque envOp : Nat → Instr

end Config

end Sys2Proof
end

