-- ==== Sys2Proof/WellFormed.lean ====
section
/-! DEFINITION. Which terms of `Instr` are operation instances of the spec: those whose operands some operand block
of spec/30_encoding.md R80 can hold and R95 does not reserve. -/

namespace Sys2Proof

/-- A finite timeout is any `u64` but all ones, the pattern of `Forever` (R86). -/
def Timeout.wellFormed : Timeout → Bool
  | .forever => true
  | .after us => us != BitVec.allOnes 64

/-- R80, R86, R88: an `EV_ALERT` mask has at least one bit set (bit 7 cannot be written in seven bits), a finite
timeout is not the `Forever` pattern, and the `n` of a `TRANSPORT_WRITE` block is a `u32`. -/
def Instr.wellFormed : Instr → Bool
  | .reset => true
  | .launch => true
  | .configure => true
  | .restart => true
  | .initRecovery => true
  | .receive => true
  | .readStatus => true
  | .readAlerts => true
  | .fmWait => true
  | .hDataAvail => true
  | .hRxqFull => true
  | .hErrPassive => true
  | .hBusError => true
  | .hArbLost => true
  | .hBusOff => true
  | .hBusRecovered => true
  | .tryEnqueue _ => true
  | .dequeue timeout => timeout.wellFormed
  | .ingRecv => true
  | .ingEnq => true
  | .ingWake => true
  | .encodeFrame _ _ _ => true
  | .egrDeq => true
  | .egrEmit => true
  | .transportWrite bytes => decide (bytes.length < 2 ^ 32)
  | .evFrame _ => true
  | .evBusOff => true
  | .evRecoveryDone => true
  | .evAlert mask => mask != 0#7
  | .evTime _ => true

end Sys2Proof
end

