-- ==== Sys2Proof/Decode.lean ====
section
/-! DEFINITION. Decoding and encoding of operation instances, written from spec/30_encoding.md R80-R88, R95 and R99:
a command word, then the operand block of its format, every multi-byte field least significant byte first. -/

namespace Sys2Proof

/-- Why a byte sequence is no operation instance (R95; `truncated` and `noBytes`: log 15). -/
inductive DecodeError where
  /-- There is no command word. -/
  | noBytes
  /-- R95 (a): a command word R83 does not list. -/
  | reservedCommand (c : Byte)
  /-- The operand block ends before its format's length (R82). -/
  | truncated
  /-- R95 (b): an `EV_ALERT` mask that is zero or has bit 7 set. -/
  | reservedMask (m : Byte)
  /-- R95 (c): an `F` image with a bit of `flags[7:2]` set. -/
  | reservedFlags (f : Byte)
  /-- R95 (d): an `E` operand with `valid > 1`. -/
  | reservedValid (v : Byte)
  deriving DecidableEq, Repr

/-! ### Little-endian fields -/

/-- The `n` bytes of `v`, least significant first (R80). -/
def leBytes : Nat → Nat → List Byte
  | 0, _ => []
  | n + 1, v => BitVec.ofNat 8 v :: leBytes n (v / 256)

/-- Reads `n` bytes as an unsigned number, least significant byte first, and what follows them. -/
def takeLe : Nat → List Byte → Option (Nat × List Byte)
  | 0, bs => some (0, bs)
  | _ + 1, [] => none
  | n + 1, b :: bs =>
    match takeLe n bs with
    | some (v, rest) => some (b.toNat + 256 * v, rest)
    | none => none

/-- Reads exactly `n` bytes and what follows them. -/
def takeBytes : Nat → List Byte → Option (List Byte × List Byte)
  | 0, bs => some ([], bs)
  | _ + 1, [] => none
  | n + 1, b :: bs =>
    match takeBytes n bs with
    | some (xs, rest) => some (b :: xs, rest)
    | none => none

/-! ### Record images -/

/-- `data[0] .. data[7]` in order (R84). -/
def Payload.toList (p : Payload) : List Byte :=
  [p.b0, p.b1, p.b2, p.b3, p.b4, p.b5, p.b6, p.b7]

/-- Reads the eight payload bytes, `data[0]` first. -/
def takePayload : List Byte → Option (Payload × List Byte)
  | b0 :: b1 :: b2 :: b3 :: b4 :: b5 :: b6 :: b7 :: rest => some (⟨b0, b1, b2, b3, b4, b5, b6, b7⟩, rest)
  | _ => none

/-- The `flags` byte of an `F` image: bit 0 is `ext`, bit 1 is `rtr` (R84). -/
def Frame.flags (f : Frame) : Byte :=
  BitVec.ofNat 8 (f.ext.toNat + 2 * f.rtr.toNat)

/-- The 14-byte image of an `F` record (R84). -/
def Frame.image (f : Frame) : List Byte :=
  leBytes 4 f.id.toNat ++ f.flags :: f.dlc :: f.data.toList

/-- The 22-byte image of a `TF` record (R85). -/
def TimedFrame.image (tf : TimedFrame) : List Byte :=
  leBytes 8 tf.ts.toNat ++ tf.frame.image

/-- Reads an `F` image (R84, R99); set bits in `flags[7:2]` are reserved (R95). DESIGN CHOICE: the bytes are looked at in
order, so a reserved `flags` byte is reported as such even if the image ends right after it (log 15). -/
def decodeFrame (bs : List Byte) : Except DecodeError (Frame × List Byte) :=
  match takeLe 4 bs with
  | none => .error .truncated
  | some (id, afterId) =>
    match afterId with
    | [] => .error .truncated
    | flags :: afterFlags =>
      if flags.toNat < 4 then
        match afterFlags with
        | [] => .error .truncated
        | dlc :: afterDlc =>
          match takePayload afterDlc with
          | none => .error .truncated
          | some (data, rest) =>
            .ok (⟨BitVec.ofNat 32 id, flags.getLsbD 0, flags.getLsbD 1, dlc, data⟩, rest)
      else .error (.reservedFlags flags)

/-- Reads a `TF` image (R85). -/
def decodeTimedFrame (bs : List Byte) : Except DecodeError (TimedFrame × List Byte) :=
  match takeLe 8 bs with
  | none => .error .truncated
  | some (ts, afterTs) =>
    match decodeFrame afterTs with
    | .error e => .error e
    | .ok (f, rest) => .ok (⟨BitVec.ofNat 64 ts, f⟩, rest)

/-- The timeout a `u64` stands for: it is compared with the `Forever` pattern before it is read as a number
(R86, R99). -/
def Timeout.ofWord (us : Word64) : Timeout :=
  if us = BitVec.allOnes 64 then .forever else .after us

/-- The `u64` of a timeout (R86). -/
def Timeout.toWord : Timeout → Word64
  | .forever => BitVec.allOnes 64
  | .after us => us

/-! ### Operand blocks, one reader per format of R80 -/

/-- Format `F`. -/
def decodeF (mk : Frame → Instr) (bs : List Byte) : Except DecodeError (Instr × List Byte) :=
  match decodeFrame bs with
  | .error e => .error e
  | .ok (f, rest) => .ok (mk f, rest)

/-- Format `T`. -/
def decodeT (mk : TimedFrame → Instr) (bs : List Byte) : Except DecodeError (Instr × List Byte) :=
  match decodeTimedFrame bs with
  | .error e => .error e
  | .ok (tf, rest) => .ok (mk tf, rest)

/-- Format `D`. -/
def decodeD (mk : Timeout → Instr) (bs : List Byte) : Except DecodeError (Instr × List Byte) :=
  match takeLe 8 bs with
  | none => .error .truncated
  | some (us, rest) => .ok (mk (Timeout.ofWord (BitVec.ofNat 64 us)), rest)

/-- Format `M`: bit 7 clear and at least one bit set (R88). -/
def decodeM (mk : AlertMask → Instr) (bs : List Byte) : Except DecodeError (Instr × List Byte) :=
  match bs with
  | [] => .error .truncated
  | m :: rest =>
    if m.toNat = 0 ∨ 128 ≤ m.toNat then .error (.reservedMask m) else .ok (mk (BitVec.ofNat 7 m.toNat), rest)

/-- Format `U`. -/
def decodeU (mk : Word64 → Instr) (bs : List Byte) : Except DecodeError (Instr × List Byte) :=
  match takeLe 8 bs with
  | none => .error .truncated
  | some (t, rest) => .ok (mk (BitVec.ofNat 64 t), rest)

/-- Format `E`: `valid` is 0 or 1 (R80, R95). -/
def decodeE (mk : Bool → TimedFrame → Word32 → Instr) (bs : List Byte) :
    Except DecodeError (Instr × List Byte) :=
  match bs with
  | [] => .error .truncated
  | v :: afterValid =>
    if v.toNat < 2 then
      match decodeTimedFrame afterValid with
      | .error e => .error e
      | .ok (tf, afterTf) =>
        match takeLe 4 afterTf with
        | none => .error .truncated
        | some (cap, rest) => .ok (mk (v.getLsbD 0) tf (BitVec.ofNat 32 cap), rest)
    else .error (.reservedValid v)

/-- Format `B`: `n`, then `n` bytes. -/
def decodeB (mk : List Byte → Instr) (bs : List Byte) : Except DecodeError (Instr × List Byte) :=
  match takeLe 4 bs with
  | none => .error .truncated
  | some (n, afterN) =>
    match takeBytes n afterN with
    | none => .error .truncated
    | some (xs, rest) => .ok (mk xs, rest)

/-! ### The operation table (R83) -/

/-- Reads the operand block of the operation with command word `c` (R82, R83). -/
def decodeOperands (c : Byte) (bs : List Byte) : Except DecodeError (Instr × List Byte) :=
  match c.toNat with
  | 0x01 => .ok (.reset, bs)
  | 0x02 => .ok (.launch, bs)
  | 0x10 => .ok (.configure, bs)
  | 0x11 => .ok (.restart, bs)
  | 0x12 => .ok (.initRecovery, bs)
  | 0x13 => .ok (.receive, bs)
  | 0x14 => .ok (.readStatus, bs)
  | 0x15 => .ok (.readAlerts, bs)
  | 0x20 => .ok (.fmWait, bs)
  | 0x21 => .ok (.hDataAvail, bs)
  | 0x22 => .ok (.hRxqFull, bs)
  | 0x23 => .ok (.hErrPassive, bs)
  | 0x24 => .ok (.hBusError, bs)
  | 0x25 => .ok (.hArbLost, bs)
  | 0x26 => .ok (.hBusOff, bs)
  | 0x27 => .ok (.hBusRecovered, bs)
  | 0x30 => decodeT .tryEnqueue bs
  | 0x31 => decodeD .dequeue bs
  | 0x40 => .ok (.ingRecv, bs)
  | 0x41 => .ok (.ingEnq, bs)
  | 0x42 => .ok (.ingWake, bs)
  | 0x50 => decodeE .encodeFrame bs
  | 0x51 => .ok (.egrDeq, bs)
  | 0x52 => .ok (.egrEmit, bs)
  | 0x53 => decodeB .transportWrite bs
  | 0x60 => decodeF .evFrame bs
  | 0x61 => .ok (.evBusOff, bs)
  | 0x62 => .ok (.evRecoveryDone, bs)
  | 0x63 => decodeM .evAlert bs
  | 0x64 => decodeU .evTime bs
  | _ => .error (.reservedCommand c)

/-- Reads one operation instance and what follows it (R80, R82); total on any bytes. -/
def decode : List Byte → Except DecodeError (Instr × List Byte)
  | [] => .error .noBytes
  | c :: bs => decodeOperands c bs

/-- The command word of an operation (R83). -/
def commandWord : Instr → Byte
  | .reset => 0x01#8
  | .launch => 0x02#8
  | .configure => 0x10#8
  | .restart => 0x11#8
  | .initRecovery => 0x12#8
  | .receive => 0x13#8
  | .readStatus => 0x14#8
  | .readAlerts => 0x15#8
  | .fmWait => 0x20#8
  | .hDataAvail => 0x21#8
  | .hRxqFull => 0x22#8
  | .hErrPassive => 0x23#8
  | .hBusError => 0x24#8
  | .hArbLost => 0x25#8
  | .hBusOff => 0x26#8
  | .hBusRecovered => 0x27#8
  | .tryEnqueue _ => 0x30#8
  | .dequeue _ => 0x31#8
  | .ingRecv => 0x40#8
  | .ingEnq => 0x41#8
  | .ingWake => 0x42#8
  | .encodeFrame _ _ _ => 0x50#8
  | .egrDeq => 0x51#8
  | .egrEmit => 0x52#8
  | .transportWrite _ => 0x53#8
  | .evFrame _ => 0x60#8
  | .evBusOff => 0x61#8
  | .evRecoveryDone => 0x62#8
  | .evAlert _ => 0x63#8
  | .evTime _ => 0x64#8

/-- The operand block of an operation (R80). -/
def operandBlock : Instr → List Byte
  | .reset => []
  | .launch => []
  | .configure => []
  | .restart => []
  | .initRecovery => []
  | .receive => []
  | .readStatus => []
  | .readAlerts => []
  | .fmWait => []
  | .hDataAvail => []
  | .hRxqFull => []
  | .hErrPassive => []
  | .hBusError => []
  | .hArbLost => []
  | .hBusOff => []
  | .hBusRecovered => []
  | .tryEnqueue tf => tf.image
  | .dequeue timeout => leBytes 8 timeout.toWord.toNat
  | .ingRecv => []
  | .ingEnq => []
  | .ingWake => []
  | .encodeFrame valid tf cap => BitVec.ofNat 8 valid.toNat :: (tf.image ++ leBytes 4 cap.toNat)
  | .egrDeq => []
  | .egrEmit => []
  | .transportWrite bytes => leBytes 4 bytes.length ++ bytes
  | .evFrame f => f.image
  | .evBusOff => []
  | .evRecoveryDone => []
  | .evAlert mask => [BitVec.ofNat 8 mask.toNat]
  | .evTime t => leBytes 8 t.toNat

/-- The bytes of an operation instance: its command word, then its operand block (R80). -/
def encode (i : Instr) : List Byte :=
  commandWord i :: operandBlock i

/-- The group field of a command word, bits 7:4 (R81). -/
def commandGroup (c : Byte) : BitVec 4 := c.extractLsb' 4 4

/-- The operation number within the group, bits 3:0 (R81). -/
def commandOp (c : Byte) : BitVec 4 := c.extractLsb' 0 4

/-! ### Words numbered as spec/opcode_table.json numbers them -/

/-- How many bytes an instance numbered `w` may reach: 28, the longest fixed operand block with its command word, and
for `TRANSPORT_WRITE` its own `5 + n`. -/
def tableLength (nbits w : Nat) : Nat :=
  max (nbits / 8) (if w % 256 = 0x53 then 5 + w / 256 % 2 ^ 32 else 28)

/-- The bytes of the instance whose bits are `w`, first byte least significant, every bit above `nbits` zero. -/
def tableBytes (nbits w : Nat) : List Byte :=
  leBytes (tableLength nbits (w % 2 ^ nbits)) (w % 2 ^ nbits)

/-- The operation the decoder reads from a table word, if any. -/
def decodeTableWord (nbits w : Nat) : Option Instr :=
  match decode (tableBytes nbits w) with
  | .ok (i, _) => some i
  | .error _ => none

/-- The bytes of the instance numbered `w` and no more: the zeros beyond its own operand block are left off. -/
def instanceBytes (nbits w : Nat) : List Byte :=
  match decode (tableBytes nbits w) with
  | .ok (_, rest) => (tableBytes nbits w).take ((tableBytes nbits w).length - rest.length)
  | .error _ => tableBytes nbits w

end Sys2Proof
end

