-- ==== Sys2Proof/Machine/State.lean ====
section
/-! DEFINITION. The state of the block (spec/10_state.md R20), as plain data, and its reset value
(spec/70_reset_and_hazards.md R240). -/

namespace Sys2Proof.Machine

/-- The run state of the CAN controller, `SR0` (R35). -/
inductive Ctrl where
  | uninstalled | stopped | running | busOff | recovering
  deriving DecidableEq, Repr, Inhabited

/-- The Bus Health State, `SR4` (R28). -/
inductive Bhs where
  | normal | recovering
  deriving DecidableEq, Repr, Inhabited

/-- `DRVCFG`, `SR1`, without its hard-wired `MODE` field (R36): `filt` false is accept-all. -/
structure DrvCfg where
  filt   : Bool
  timing : Timing
  deriving DecidableEq, Repr, Inhabited

/-- The sequencer of the Fault Monitor, `SR11` (R27): `dispatch m` holds the alerts still to be handled. -/
inductive FmSeq where
  | idle | wait | dispatch (m : AlertMask)
  deriving DecidableEq, Repr, Inhabited

/-- The Ingress sequencer, `SR12` (R27), with its frame holding register (R26). The deadline is a natural number:
R13 computes it without wrap-around (log 13). -/
inductive IngSeq where
  | idle | recv | held (tf : TimedFrame) | backoff (wake : Nat)
  deriving DecidableEq, Repr, Inhabited

/-- The Egress sequencer, `SR13` (R27), with its frame holding register (R26). -/
inductive EgrSeq where
  | idle | deq | held (tf : TimedFrame)
  deriving DecidableEq, Repr, Inhabited

/-- The steps of `CONFIGURE` (R92), `S0` to `S5`. -/
inductive CfgStep where
  | chAlloc | pinCfg | stbyActive | drvInstall | alertCfg | drvStart
  deriving DecidableEq, Repr, Inhabited

/-- Error codes (R90). -/
inductive ErrCode where
  | notReady | timeout | fail | cfgFail (step : CfgStep)
  deriving DecidableEq, Repr, Inhabited

/-- `Res = Ok | Err(e)` (R9). -/
inductive Res where
  | ok | err (e : ErrCode)
  deriving DecidableEq, Repr, Inhabited

/-- The fourteen log events (R91). -/
inductive LogCode where
  | cfgFail | rxqFull | busError | errPassive | arbLost | busOffRecoveryStarted | recoveryInitFailed
  | busRecoveredRestarted | restartFailed | spuriousRecovered | chanDrop | rxNotReady | rxError
  | transportSetupFailed
  deriving DecidableEq, Repr, Inhabited

/-- The payload of a log event (R91). -/
inductive LogPayload where
  | none
  | step (s : CfgStep)
  | status (s : Option Status)
  | err (e : ErrCode)
  | drop (n : Nat)
  | bhs (b : Bhs)
  deriving DecidableEq, Repr, Inhabited

/-- A log event `(agent, code, payload)` (R22). -/
structure LogEvent where
  agent   : Agent
  code    : LogCode
  payload : LogPayload
  deriving DecidableEq, Repr, Inhabited

/-- The result value of the latest step (R8, R9); `blocked` is outcome (b) of R8 (log 4, log 5). -/
inductive Result where
  /-- The operation has no result value. -/
  | unit
  /-- The step was not enabled: the agent waits. -/
  | blocked
  | res (r : Res)
  | received (f : Frame)
  | receiveFailed (e : ErrCode)
  | statusRead (s : Option Status)
  | alerts (m : AlertMask)
  | accepted (ok : Bool)
  | dequeued (tf : Option TimedFrame)
  | length (n : Word32)
  deriving DecidableEq, Repr, Inhabited

/-- Who issues an operation: an agent, or the test harness of R96 standing in for the owning agent (log 2). -/
inductive Issuer where
  | agent (a : Agent)
  | harness
  deriving DecidableEq, Repr, Inhabited

/-- The `!draw=value` annotations of a trace line (R97): a draw without one is a free value (log 6). -/
structure Draws where
  cfgFail     : Option CfgFault := none
  restart     : Option CallDraw := none
  recovery    : Option CallDraw := none
  rxFault     : Option RxFault := none
  statusFails : Option Bool := none
  statusValue : Option Status := none
  deqExpired  : Option Bool := none
  txOk        : Option Bool := none
  resetTime   : Option Word64 := none
  resetStby   : Option Bool := none
  resetTiming : Option Timing := none
  deriving DecidableEq, Repr, Inhabited

/-- One line of a trace (R97): who issues, the bytes of the operation (R80) and its annotations (log 1). -/
structure Issue where
  issuer : Issuer
  bytes  : List Byte
  draws  : Draws := {}
  deriving DecidableEq, Repr, Inhabited

/-- `OUTBUF` (R46, R60): the bytes written so far, by index; canonical form `Memory.wf`, log 10. -/
abbrev Memory := List Host.Cell

/-- The state of the block. The first five fields are the model's own; every other is an element of R20. -/
structure State where
  /-- The implementation parameters (R5), never written (log 8). -/
  params   : Params
  /-- The operations still to be issued, first first (log 1). -/
  pending  : List Issue
  /-- The annotations of the operation being executed (log 6). -/
  fixed    : Draws
  /-- Counts the steps taken; the free values are read at it (log 6). -/
  drawIdx  : Nat
  /-- The result value of the latest step (log 5). -/
  result   : Result
  /-- `TIME_US`, `SR15` (R21). -/
  timeUs   : Word64
  /-- `LOG` (R22). -/
  log      : List LogEvent
  /-- `TX` (R23). -/
  tx       : List Byte
  /-- `FM_SEQ`, `SR11` (R27). -/
  fmSeq    : FmSeq
  /-- `ING_SEQ`, `SR12` (R26, R27). -/
  ingSeq   : IngSeq
  /-- `EGR_SEQ`, `SR13` (R26, R27). -/
  egrSeq   : EgrSeq
  /-- `BHS`, `SR4` (R28). -/
  bhs      : Bhs
  /-- `NR_LOGGED`, `SR6` bit 5 (R29). -/
  nrLogged : Bool
  /-- `CFG_DONE`, `SR6` bit 0 (R30). -/
  cfgDone  : Bool
  /-- `LAUNCHED`, `SR6` bit 1 (R30). -/
  launched : Bool
  /-- `FAULT`, `SR5` (R31). -/
  fault    : Bool
  /-- `PIN_CFG`, `SR6` bit 2 (R32). -/
  pinCfg   : Bool
  /-- `STBY`, `SR6` bit 3, the logical level: true is standby (R32). -/
  stby     : Bool
  /-- `CH_ALLOC`, `SR6` bit 4 (R33). -/
  chAlloc  : Bool
  /-- `CTRL`, `SR0` (R35). -/
  ctrl     : Ctrl
  /-- `DRVCFG`, `SR1` (R36). -/
  drvCfg   : DrvCfg
  /-- `ALERT_EN`, `SR2` (R37). -/
  alertEn  : AlertMask
  /-- `ALERT_PEND`, `SR3` (R38). -/
  alertPend : AlertMask
  /-- `HWQ`, head first (R40). -/
  hwq      : List Frame
  /-- `STATUS`, `SR14` (R41). -/
  status   : Status
  /-- `Q`, oldest first (R42). -/
  q        : List TimedFrame
  /-- `DROP`, `SR7` (R43): at most `DROP_MAX` (R5 `DROP_W`). -/
  drop     : Nat
  /-- `LAST_WARN`, `SR8` (R44). -/
  lastWarn : Word64
  /-- `OUTBUF` (R46). -/
  outbuf   : Memory
  deriving DecidableEq, Repr

/-- What stops the machine. The block itself has no trap (R200). -/
inductive Fault where
  /-- Raised by `EGR_EMIT` where it would read a byte of `OUTBUF` that nothing has written since reset (R46 gives such
  a byte no value). Safe: no run reaches it, since `ENCODE` writes the bytes in the same step. -/
  | outbufUnwritten
  deriving DecidableEq, Repr

/-- What the spec gives no meaning (R202). Safe: a refused run goes no further. -/
inductive Refusal where
  /-- Raised by `exec` for an operation whose meaning is not written yet. Safe. -/
  | notModelled (mnemonic : String)
  /-- Raised by `CONFIGURE` after `LAUNCH` (R100). Safe. -/
  | reconfigureAtRuntime
  /-- Raised by `CONFIGURE` with `FAULT` set (R100). Safe. -/
  | configureAfterFailure
  /-- Raised by `LAUNCH` with `CFG_DONE` false (R187). Safe. -/
  | launchWithoutConfigure
  /-- Raised by `LAUNCH` with `LAUNCHED` true (R187). Safe. -/
  | launchTwice
  /-- Raised by `TRY_ENQUEUE` and `DEQUEUE`, and by the steps that contain them, with `CH_ALLOC` false (R131, R132).
  Safe. -/
  | channelNotConstructed
  /-- Raised by the step for bytes that are no operation instance (R95). Safe. -/
  | reservedEncoding (e : DecodeError)
  /-- Raised by the step for an operation of another agent (R96). Safe. -/
  | wrongIssuer
  /-- Raised by the step for a frame or a time that does not fit `ID_W`, `DLC_W` and `TS_W` (R5, log 8); never at R5's own
  values of them. Safe. -/
  | operandTooWide
  deriving DecidableEq, Repr

/-- The state right after reset (R240). `TIME_US`, `STBY`, `STATUS` and `DRVCFG.TIMING`, which R240 leaves
unspecified, are free values (log 9); nothing of `OUTBUF` has been written. -/
def State.reset : State :=
  { params := Config.params, pending := [], fixed := {}, drawIdx := 0, result := .unit
    timeUs := Config.resetTime 0, log := [], tx := [], fmSeq := .idle, ingSeq := .idle, egrSeq := .idle
    bhs := .normal, nrLogged := false, cfgDone := false, launched := false, fault := false, pinCfg := false
    stby := Config.resetStby 0, chAlloc := false, ctrl := .uninstalled
    drvCfg := { filt := false, timing := Config.resetTiming 0 }, alertEn := 0#7, alertPend := 0#7, hwq := []
    status := Config.statusValue 0, q := [], drop := 0, lastWarn := 0#64, outbuf := [] }

end Sys2Proof.Machine
end

