-- ==== Sys2Proof/Machine/Flags.lean ====
section
/-! DEFINITION. Flag and register computations: alert bits (spec/30_encoding.md R87, spec/41_fault_monitor.md R111,
spec/60_exceptions.md R203), `IRQ`, the numbered state registers as the words of spec/10_state.md R34, and the byte codes
of spec/30_encoding.md R89-R92. -/

namespace Sys2Proof

/-! ### Alert bits -/

/-- The bit position of an alert (R5 `ALERT_BIT`, R87). -/
def AlertBits.bit (b : AlertBits) : Alert → Fin 7
  | .dataAvail => b.dataAvail
  | .rxqFull => b.rxqFull
  | .errPassive => b.errPassive
  | .busError => b.busError
  | .arbLost => b.arbLost
  | .busOff => b.busOff
  | .busRecovered => b.busRecovered

/-- The mask with this alert's bit alone (R87). -/
def AlertBits.mask (b : AlertBits) (a : Alert) : AlertMask := BitVec.twoPow 7 (b.bit a)

/-- The seven alerts, in the order of R87. -/
def Alert.all : List Alert :=
  [.dataAvail, .rxqFull, .errPassive, .busError, .arbLost, .busOff, .busRecovered]

/-- Whether bit `a` of `m` is set. -/
def AlertBits.has (b : AlertBits) (m : AlertMask) (a : Alert) : Bool := m.getLsbD (b.bit a)

/-- `m` with bit `a` cleared (R112). -/
def AlertBits.clear (b : AlertBits) (m : AlertMask) (a : Alert) : AlertMask := m &&& ~~~b.mask a

/-- The handler of an alert (R83, R87). -/
def Alert.handler : Alert → Instr
  | .dataAvail => .hDataAvail
  | .rxqFull => .hRxqFull
  | .errPassive => .hErrPassive
  | .busError => .hBusError
  | .arbLost => .hArbLost
  | .busOff => .hBusOff
  | .busRecovered => .hBusRecovered

/-- `next(m)` (R111): the first alert of `ALERT_ORDER` whose bit of `m` is set. -/
def nextAlert (p : Params) (m : AlertMask) : Option Alert :=
  p.alertOrder.find? (p.alertBit.has m)

/-- `FILTER(f)` (R5, R36). -/
def AcceptFilter.accepts : AcceptFilter → Frame → Bool
  | .acceptAll, _ => true
  | .narrowed k, f => Config.narrowedAccepts k f

namespace Machine

/-- `ALERT_PEND` after `raise_alert(a)` (R203): the bit is set if the alert is enabled; a set bit stays set. -/
def raisedMask (b : AlertBits) (en pend : AlertMask) (a : Alert) : AlertMask :=
  if b.has en a then pend ||| b.mask a else pend

/-- `ALERT_PEND` after each alert of `mask` has been raised (R183). -/
def raisedMasks (b : AlertBits) (en pend mask : AlertMask) : AlertMask :=
  Alert.all.foldl (fun p a => if b.has mask a then raisedMask b en p a else p) pend

/-- `IRQ = (ALERT_PEND != 0)` (R39), derived and level-sensitive. -/
def State.irq (s : State) : Bool := s.alertPend != 0#7

/-- The alert set of `N_ALERTS` alerts that `CONFIGURE` enables, the lowest bits: `0x7F` for the seven of R5 (R37,
R100). -/
def alertSet (count : Fin 8) : AlertMask := BitVec.ofNat 7 (2 ^ count.val - 1)

/-! ### The numbered state registers as words (R34) -/

/-- The three-bit code of `CTRL` (R34 SR0). -/
def Ctrl.code : Ctrl → BitVec 3
  | .uninstalled => 0#3
  | .stopped => 1#3
  | .running => 2#3
  | .busOff => 3#3
  | .recovering => 4#3

/-- The bit of `BHS` (R34 SR4). -/
def Bhs.code : Bhs → BitVec 1
  | .normal => 0#1
  | .recovering => 1#1

/-- `SR0`, `CTRL`. -/
def State.sr0 (s : State) : BitVec 3 := s.ctrl.code

/-- `DRVCFG.MODE`, hard-wired to 1, listen-only (R36). -/
def State.mode (_ : State) : BitVec 1 := 1#1

/-- `SR1`, `DRVCFG`: `MODE`, `FILT`, `TIMING`. -/
def State.sr1 (s : State) : BitVec 1 × BitVec 1 × Timing :=
  (s.mode, BitVec.ofBool s.drvCfg.filt, s.drvCfg.timing)

/-- `SR2`, `ALERT_EN`. -/
def State.sr2 (s : State) : AlertMask := s.alertEn

/-- `SR3`, `ALERT_PEND`. -/
def State.sr3 (s : State) : AlertMask := s.alertPend

/-- `SR4`, `BHS`. -/
def State.sr4 (s : State) : BitVec 1 := s.bhs.code

/-- `SR5`, `FAULT`. -/
def State.sr5 (s : State) : BitVec 1 := BitVec.ofBool s.fault

/-- `SR6`, `FLAGS`: bit 0 `CFG_DONE`, 1 `LAUNCHED`, 2 `PIN_CFG`, 3 `STBY`, 4 `CH_ALLOC`, 5 `NR_LOGGED`; bits 7:6 read
as 0. -/
def State.sr6 (s : State) : Byte :=
  BitVec.ofNat 8 (s.cfgDone.toNat + 2 * s.launched.toNat + 4 * s.pinCfg.toNat + 8 * s.stby.toNat
    + 16 * s.chAlloc.toNat + 32 * s.nrLogged.toNat)

/-- `SR7`, `DROP`, `DROP_W` bits wide (R5). -/
def State.sr7 (s : State) : BitVec s.params.dropWidth := BitVec.ofNat s.params.dropWidth s.drop

/-- `SR8`, `LAST_WARN`. -/
def State.sr8 (s : State) : Word64 := s.lastWarn

/-- `SR9`, `Q_COUNT`: always `len(Q)`. -/
def State.sr9 (s : State) : Nat := s.q.length

/-- `SR10`, `HWQ_COUNT`: always `len(HWQ)`. -/
def State.sr10 (s : State) : Nat := s.hwq.length

/-- `SR11`, `FM_SEQ`. -/
def State.sr11 (s : State) : FmSeq := s.fmSeq

/-- `SR12`, `ING_SEQ`. -/
def State.sr12 (s : State) : IngSeq := s.ingSeq

/-- `SR13`, `EGR_SEQ`. -/
def State.sr13 (s : State) : EgrSeq := s.egrSeq

/-- `SR14`, `STATUS`. -/
def State.sr14 (s : State) : Status := s.status

/-- `SR15`, `TIME_US`. -/
def State.sr15 (s : State) : Word64 := s.timeUs

/-- The electrical level on `STBY_PIN` (R32): `STBY_ACTIVE_LEVEL` when `STBY = 0`, its opposite in standby. -/
def State.stbyPinLevel (s : State) : Bool := s.params.stbyActiveLevel != s.stby

/-! ### Codes of results, errors and log events (R89-R92) -/

/-- The configure step number (R92). -/
def CfgStep.number : CfgStep → Nat
  | .chAlloc => 0
  | .pinCfg => 1
  | .stbyActive => 2
  | .drvInstall => 3
  | .alertCfg => 4
  | .drvStart => 5

/-- The error code (R90). -/
def ErrCode.code : ErrCode → Byte
  | .notReady => 0x01#8
  | .timeout => 0x02#8
  | .fail => 0x03#8
  | .cfgFail step => BitVec.ofNat 8 (0x10 + step.number)

/-- The image of a `Res` (R89). -/
def Res.image : Res → Byte
  | .ok => 0x00#8
  | .err e => e.code

/-- The image of a `bool` (R89). -/
def boolImage (b : Bool) : Byte := BitVec.ofNat 8 b.toNat

/-- The bytes of a result, where R89 gives it any. DESIGN CHOICE: the four bytes of a length stand least significant
first, where R89 gives only the width `u32` (log 24). -/
def Result.image : Result → Option (List Byte)
  | .unit => none
  | .blocked => none
  | .res r => some [r.image]
  | .received _ => none
  | .receiveFailed e => some [e.code]
  | .statusRead none => some [ErrCode.fail.code]
  | .statusRead (some _) => none
  | .alerts m => some [BitVec.ofNat 8 m.toNat]
  | .accepted ok => some [boolImage ok]
  | .dequeued none => some [0x00#8]
  | .dequeued (some tf) => some (0x01#8 :: tf.image)
  | .length n => some (leBytes 4 n.toNat)

/-- The log event code (R91). -/
def LogCode.code : LogCode → Byte
  | .cfgFail => 0x01#8
  | .rxqFull => 0x02#8
  | .busError => 0x03#8
  | .errPassive => 0x04#8
  | .arbLost => 0x05#8
  | .busOffRecoveryStarted => 0x06#8
  | .recoveryInitFailed => 0x07#8
  | .busRecoveredRestarted => 0x08#8
  | .restartFailed => 0x09#8
  | .spuriousRecovered => 0x0A#8
  | .chanDrop => 0x0B#8
  | .rxNotReady => 0x0C#8
  | .rxError => 0x0D#8
  | .transportSetupFailed => 0x0E#8

/-- The agent that emits an event (R91). -/
def LogCode.agent : LogCode → Agent
  | .cfgFail => .host
  | .rxqFull => .fm
  | .busError => .fm
  | .errPassive => .fm
  | .arbLost => .fm
  | .busOffRecoveryStarted => .fm
  | .recoveryInitFailed => .fm
  | .busRecoveredRestarted => .fm
  | .restartFailed => .fm
  | .spuriousRecovered => .fm
  | .chanDrop => .ing
  | .rxNotReady => .ing
  | .rxError => .ing
  | .transportSetupFailed => .egr

/-- The severity of an event (R91). -/
def LogCode.severity : LogCode → Severity
  | .cfgFail => .error
  | .rxqFull => .warn
  | .busError => .warn
  | .errPassive => .warn
  | .arbLost => .warn
  | .busOffRecoveryStarted => .warn
  | .recoveryInitFailed => .error
  | .busRecoveredRestarted => .info
  | .restartFailed => .error
  | .spuriousRecovered => .debug
  | .chanDrop => .warn
  | .rxNotReady => .warn
  | .rxError => .error
  | .transportSetupFailed => .warn

/-- `Error > Warn > Info > Debug` (R91). -/
def Severity.rank : Severity → Nat
  | .debug => 0
  | .info => 1
  | .warn => 2
  | .error => 3

/-- The events a sink of verbosity `LOG_VERBOSITY` keeps: those at least as severe (R5, R224). No rule reads it. -/
def State.keptLog (s : State) : List LogEvent :=
  s.log.filter (fun e => decide (Severity.rank s.params.logVerbosity ≤ Severity.rank e.code.severity))

end Machine

end Sys2Proof
end

