-- ==== Sys2Proof/Machine/Operands.lean ====
section
/-! DEFINITION. The operands a meaning reads beside its encoded ones: the environment's draws
(spec/93_implementation_defined.md section 4). A draw is the value its trace annotation fixes (spec/30_encoding.md R97),
and otherwise a free value at the step's counter (log 6). -/

namespace Sys2Proof.Machine

/-- `cfg_fail` (R100). -/
def State.drawCfgFail (s : State) : CfgFault := s.fixed.cfgFail.getD (Config.cfgFail s.drawIdx)

/-- `restart_result` (R101). -/
def State.drawRestart (s : State) : CallDraw := s.fixed.restart.getD (Config.restartResult s.drawIdx)

/-- `recovery_result` (R102). -/
def State.drawRecovery (s : State) : CallDraw := s.fixed.recovery.getD (Config.recoveryResult s.drawIdx)

/-- `rx_fault` (R103). -/
def State.drawRxFault (s : State) : RxFault := s.fixed.rxFault.getD (Config.rxFault s.drawIdx)

/-- Whether `status_result` is `Err(Fail)` (R104); the value of an `Ok` is the register `STATUS` (log 7). -/
def State.drawStatusFails (s : State) : Bool := s.fixed.statusFails.getD (Config.statusFails s.drawIdx)

/-- What the environment lets `STATUS` be at this step (R41, log 7). -/
def State.drawStatusValue (s : State) : Status := s.fixed.statusValue.getD (Config.statusValue s.drawIdx)

/-- `deq_expired` (R132): whether a finite wait on the empty channel ends at this step. -/
def State.drawDeqExpired (s : State) : Bool := s.fixed.deqExpired.getD (Config.deqExpired s.drawIdx)

/-- `tx_ok` (R172). -/
def State.drawTxOk (s : State) : Bool := s.fixed.txOk.getD (!Config.txDropped s.drawIdx)

/-- The post-reset value of `TIME_US` (R21), any of `TS_W` bits (R5). -/
def State.drawResetTime (s : State) : Word64 :=
  BitVec.ofNat 64 ((s.fixed.resetTime.getD (Config.resetTime s.drawIdx)).toNat % 2 ^ s.params.tsWidth.val)

/-- The post-reset value of `STBY` (R32). -/
def State.drawResetStby (s : State) : Bool := s.fixed.resetStby.getD (Config.resetStby s.drawIdx)

/-- The post-reset value of `DRVCFG.TIMING` (R34 SR1). -/
def State.drawResetTiming (s : State) : Timing := s.fixed.resetTiming.getD (Config.resetTiming s.drawIdx)

end Sys2Proof.Machine
end

