-- ==== Sys2Proof/Machine/Ops.lean ====
section
/-! DEFINITION. The operations the meanings share: results and waiting, the log, the queue primitives, `OUTBUF`, and the
block's one exception mechanism: raising an alert, entering its handling and leaving it. -/

namespace Sys2Proof.Machine

/-! ### Results -/

/-- The state with a result value (R8, log 5). -/
def State.withResult (s : State) (r : Result) : State := { s with result := r }

/-- Outcome (b) of R8: the step is not enabled, nothing but the result changes, and the agent waits (log 4). -/
def State.waits (s : State) : State := s.withResult .blocked

/-! ### The log (R224) -/

/-- `log(code, payload)` under the agent R91 gives the code (log 30). -/
def State.logEvent (s : State) (code : LogCode) (payload : LogPayload) : State :=
  { s with log := s.log ++ [⟨code.agent, code, payload⟩] }

/-! ### Queue primitives (R61) -/

/-- `push(S, e)`: append at the tail. -/
def push {α : Type} (q : List α) (e : α) : List α := q ++ [e]

/-- `pop(S)`: the head and what is left; `none` on an empty queue. -/
def pop {α : Type} : List α → Option (α × List α)
  | [] => none
  | e :: rest => some (e, rest)

/-! ### `OUTBUF` (R60, R63) -/

/-- `MemRead(OUTBUF, i)`; `none` where nothing has been written since reset (log 10). -/
def Memory.read? : Memory → Nat → Option Byte
  | [], _ => none
  | (k, v) :: m, i => if k = i then some v else Memory.read? m i

/-- `MemWrite(OUTBUF, i, b)`, keeping the indices strictly rising. -/
def Memory.write : Memory → Nat → Byte → Memory
  | [], i, b => [(i, b)]
  | (k, v) :: m, i, b =>
    if i < k then (i, b) :: (k, v) :: m
    else if i = k then (i, b) :: m
    else (k, v) :: Memory.write m i b

/-- Writes bytes from index `i` upward. -/
def Memory.writeBytes : Memory → Nat → List Byte → Memory
  | m, _, [] => m
  | m, i, b :: bs => Memory.writeBytes (Memory.write m i b) (i + 1) bs

/-- Reads `k` bytes from index `i` upward; `none` if one of them has never been written. -/
def Memory.readBytes (m : Memory) : Nat → Nat → Option (List Byte)
  | _, 0 => some []
  | i, k + 1 =>
    match Memory.read? m i with
    | none => none
    | some b =>
      match Memory.readBytes m (i + 1) k with
      | none => none
      | some bs => some (b :: bs)

/-- The canonical form: indices strictly rising, so that equal contents are equal lists. -/
def Memory.wf : Memory → Bool
  | [] => true
  | [_] => true
  | (k, _) :: (k', v') :: m => decide (k < k') && Memory.wf ((k', v') :: m)

/-- Every listed index is one of the `cap` bytes of the buffer (R60). -/
def Memory.within (m : Memory) (cap : Nat) : Bool := m.all (fun c => decide (c.1 < cap))

/-! ### Alerts: the block's exception mechanism (R203, R207, R208) -/

/-- `raise_alert(a)` (R203): its only effect is the pending bit. -/
def State.raiseAlert (s : State) (a : Alert) : State :=
  { s with alertPend := raisedMask s.params.alertBit s.alertEn s.alertPend a }

/-- The entry into alert handling, the atomic read-and-clear of `READ_ALERTS` (R105, R207): the whole pending mask, and
the state with it cleared; `none` while `IRQ` is low. -/
def State.takeAlerts (s : State) : Option (AlertMask × State) :=
  if s.irq then some (s.alertPend, { s with alertPend := 0#7 }) else none

/-- Where the Fault Monitor's sequencer stands once alert `a` of `m` is handled (R112). -/
def doneSeq (b : AlertBits) (m : AlertMask) (a : Alert) : FmSeq :=
  if b.clear m a = 0#7 then .wait else .dispatch (b.clear m a)

/-- `done(a)`, the return from a handler (R112, R208). -/
def State.done (s : State) (m : AlertMask) (a : Alert) : State := { s with fmSeq := doneSeq s.params.alertBit m a }

/-- The alerts still to be handled when the handler of `a` is the Fault Monitor's one enabled step (R112): `Dispatch(m)`
with `a = next(m)`. -/
def State.handling (s : State) (a : Alert) : Option AlertMask :=
  match s.fmSeq with
  | .idle => none
  | .wait => none
  | .dispatch m => if nextAlert s.params m = some a then some m else none

/-- One handler step: `body`, then `done(a)`, in the states where `a` is being handled; elsewhere it waits (R112). -/
def State.handle (s : State) (a : Alert) (body : State → State) : State :=
  match s.handling a with
  | none => s.waits
  | some m => ((body s).done m a).withResult .unit

end Sys2Proof.Machine
end

