-- ==== Sys2Proof/Machine/Encoder.lean ====
section
/-! DEFINITION. The Encoder (spec/44_encoder.md) and the encoded record (spec/30_encoding.md R93, R94). Characters are
written as their ASCII bytes. -/

namespace Sys2Proof.Machine

/-! ### Rendering (R94) -/

/-- The ASCII digit of a number below 10. -/
def decDigit (n : Nat) : Byte := BitVec.ofNat 8 (0x30 + n)

/-- The digits of `n`, most significant first, before `acc`: repeated division by 10, for at most `fuel` digits. -/
def decDigits : Nat → Nat → List Byte → List Byte
  | 0, _, acc => acc
  | fuel + 1, n, acc =>
    if n / 10 = 0 then decDigit (n % 10) :: acc else decDigits fuel (n / 10) (decDigit (n % 10) :: acc)

/-- `DEC(n)` (R94). Twenty digits hold every `u64`. -/
def dec (n : Nat) : List Byte := decDigits 20 n []

/-- `BOOL(b)` (R94): `true` or `false`. -/
def boolText : Bool → List Byte
  | true => [0x74#8, 0x72#8, 0x75#8, 0x65#8]
  | false => [0x66#8, 0x61#8, 0x6C#8, 0x73#8, 0x65#8]

/-- The upper-case hexadecimal digit of a number below 16. -/
def hexDigit (n : Nat) : Byte := if n < 10 then BitVec.ofNat 8 (0x30 + n) else BitVec.ofNat 8 (0x37 + n)

/-- `HEX2(b)` (R94): the digit of `b[7:4]`, then that of `b[3:0]`. -/
def hex2 (b : Byte) : List Byte := [hexDigit (b.toNat / 16), hexDigit (b.toNat % 16)]

/-! ### The record (R93) -/

/-- The fixed text before `<TS>`: an opening brace, `"type":"can","ts_us":`. -/
def textTs : List Byte :=
  [0x7B#8, 0x22#8, 0x74#8, 0x79#8, 0x70#8, 0x65#8, 0x22#8, 0x3A#8, 0x22#8, 0x63#8, 0x61#8, 0x6E#8, 0x22#8, 0x2C#8]
    ++ [0x22#8, 0x74#8, 0x73#8, 0x5F#8, 0x75#8, 0x73#8, 0x22#8, 0x3A#8]

/-- `,"id":` -/
def textId : List Byte := [0x2C#8, 0x22#8, 0x69#8, 0x64#8, 0x22#8, 0x3A#8]

/-- `,"ext":` -/
def textExt : List Byte := [0x2C#8, 0x22#8, 0x65#8, 0x78#8, 0x74#8, 0x22#8, 0x3A#8]

/-- `,"rtr":` -/
def textRtr : List Byte := [0x2C#8, 0x22#8, 0x72#8, 0x74#8, 0x72#8, 0x22#8, 0x3A#8]

/-- `,"dlc":` -/
def textDlc : List Byte := [0x2C#8, 0x22#8, 0x64#8, 0x6C#8, 0x63#8, 0x22#8, 0x3A#8]

/-- `,"data":"` -/
def textData : List Byte := [0x2C#8, 0x22#8, 0x64#8, 0x61#8, 0x74#8, 0x61#8, 0x22#8, 0x3A#8, 0x22#8]

/-- The closing `"`, a closing brace and the newline `0x0A`. -/
def textEnd : List Byte := [0x22#8, 0x7D#8, 0x0A#8]

/-- `min(dlc, 8)` (R161), the 8 being `PAYLOAD_MAX` (R5). -/
def clampedDlc (payloadMax : Fin 9) (f : Frame) : Nat := min f.dlc.toNat payloadMax.val

/-- The rendered payload: the first `d` bytes, `data[0]` first (R93, R162). -/
def dataText (payloadMax : Fin 9) (f : Frame) : List Byte :=
  (f.data.toList.take (clampedDlc payloadMax f)).flatMap hex2

/-- The encoded record of a timestamped frame (R93). -/
def record (payloadMax : Fin 9) (tf : TimedFrame) : List Byte :=
  textTs ++ dec tf.ts.toNat
    ++ (textId ++ dec tf.frame.id.toNat)
    ++ (textExt ++ boolText tf.frame.ext)
    ++ (textRtr ++ boolText tf.frame.rtr)
    ++ (textDlc ++ dec (clampedDlc payloadMax tf.frame))
    ++ (textData ++ dataText payloadMax tf.frame)
    ++ textEnd

/-! ### `ENCODE` (R160) -/

/-- The number of bytes `ENCODE` reports (R160, R163, R164). -/
def encodeLength (payloadMax : Fin 9) (valid : Bool) (tf : TimedFrame) (cap : Nat) : Nat :=
  if !valid || cap = 0 then 0 else min (record payloadMax tf).length cap

/-- The bytes `ENCODE` stores, from index 0 of `OUTBUF` upward: the first `n` of the record, and none at or beyond
`OUT_CAP` (R63, R160; log 11). -/
def encodeStored (payloadMax : Fin 9) (valid : Bool) (tf : TimedFrame) (cap outCap : Nat) : List Byte :=
  (record payloadMax tf).take (min (encodeLength payloadMax valid tf cap) outCap)

/-- `ENCODE(valid, tf, cap)` (R160): the length and the state left. -/
def State.encodeInto (s : State) (valid : Bool) (tf : TimedFrame) (cap : Nat) : Nat × State :=
  (encodeLength s.params.payloadMax valid tf cap,
    { s with
      outbuf := Memory.writeBytes s.outbuf 0 (encodeStored s.params.payloadMax valid tf cap s.params.outCap) })

/-- `ENCODE` (R160). -/
def execEncodeFrame (valid : Bool) (tf : TimedFrame) (cap : Word32) (s : State) :
    Host.Outcome State Fault Refusal :=
  .next ((s.encodeInto valid tf cap.toNat).2.withResult
    (.length (BitVec.ofNat 32 (s.encodeInto valid tf cap.toNat).1)))

end Sys2Proof.Machine
end

