-- ==== Sys2Proof/Machine/Egress.lean ====
section
/-! DEFINITION. The Egress sequencer and the transport write (spec/45_egress.md): `EGR_DEQ`, `EGR_EMIT`,
`TRANSPORT_WRITE`. -/

namespace Sys2Proof.Machine

/-- `TRANSPORT_WRITE(b)` (R172): all the bytes, or none and a log event, by the draw `tx_ok`. -/
def State.transport (s : State) (bytes : List Byte) : State :=
  if s.drawTxOk then { s with tx := s.tx ++ bytes } else s.logEvent .transportSetupFailed .none

/-- `TRANSPORT_WRITE` (R172; an empty byte string: log 12). -/
def execTransportWrite (bytes : List Byte) (s : State) : Host.Outcome State Fault Refusal :=
  .next ((s.transport bytes).withResult .unit)

/-- `EGR_DEQ` (R170): the dequeue waits for ever on an empty channel. -/
def execEgrDeq (s : State) : Host.Outcome State Fault Refusal :=
  match s.egrSeq with
  | .deq =>
    if s.chAlloc then
      .next (match pop s.q with
        | some (tf, rest) => { s with q := rest, egrSeq := .held tf }.withResult .unit
        | none => s.waits)
    else .refused .channelNotConstructed
  | .idle => .next s.waits
  | .held _ => .next s.waits

/-- `EGR_EMIT` (R171): encode into `OUTBUF`, write what was encoded, capped to the buffer size. -/
def execEgrEmit (s : State) : Host.Outcome State Fault Refusal :=
  match s.egrSeq with
  | .held tf =>
    match Memory.readBytes (s.encodeInto true tf s.params.outCap).2.outbuf 0
        (min (s.encodeInto true tf s.params.outCap).1 s.params.outCap) with
    | none => .fault .outbufUnwritten
    | some [] => .next ({ (s.encodeInto true tf s.params.outCap).2 with egrSeq := .deq }.withResult .unit)
    | some bytes =>
      .next ({ (s.encodeInto true tf s.params.outCap).2.transport bytes with egrSeq := .deq }.withResult .unit)
  | .idle => .next s.waits
  | .deq => .next s.waits

end Sys2Proof.Machine
end

