-- ==== Sys2Proof/Machine/Environment.lean ====
section
/-! DEFINITION. Bus-side events and the clock (spec/46_environment_and_host.md section 1). An event whose precondition
fails is not enabled: nothing changes (log 4). -/

namespace Sys2Proof.Machine

/-- What an arriving frame does while the controller runs (R180). -/
def State.frameArrives (s : State) (f : Frame) : State :=
  if s.drvCfg.filt && !s.params.filter.accepts f then s
  else if s.hwq.length < s.params.hwqDepth then { s with hwq := push s.hwq f }.raiseAlert .dataAvail
  else s.raiseAlert .rxqFull

/-- `EV_FRAME` (R180). -/
def execEvFrame (f : Frame) (s : State) : Host.Outcome State Fault Refusal :=
  .next (if s.ctrl = .running then (s.frameArrives f).withResult .unit else s.waits)

/-- `EV_BUS_OFF` (R181). -/
def execEvBusOff (s : State) : Host.Outcome State Fault Refusal :=
  .next (if s.ctrl = .running then ({ s with ctrl := .busOff }.raiseAlert .busOff).withResult .unit else s.waits)

/-- `HWQ` across a completed recovery (R182). -/
def recoveredHwq (policy : HwqPolicy) (hwq : List Frame) : List Frame :=
  match policy with
  | .preserve => hwq
  | .flush => []

/-- `EV_RECOVERY_DONE` (R182). -/
def execEvRecoveryDone (s : State) : Host.Outcome State Fault Refusal :=
  .next (if s.ctrl = .recovering then
      ({ s with ctrl := .stopped, hwq := recoveredHwq s.params.hwqOnRecovery s.hwq }.raiseAlert
        .busRecovered).withResult .unit
    else s.waits)

/-- `EV_ALERT` (R183). -/
def execEvAlert (mask : AlertMask) (s : State) : Host.Outcome State Fault Refusal :=
  .next (if s.ctrl = .uninstalled then s.waits
    else { s with alertPend := raisedMasks s.params.alertBit s.alertEn s.alertPend mask }.withResult .unit)

/-- `EV_TIME` (R184): the clock never goes back. -/
def execEvTime (t : Word64) (s : State) : Host.Outcome State Fault Refusal :=
  .next (if s.timeUs.toNat ≤ t.toNat then { s with timeUs := t }.withResult .unit else s.waits)

end Sys2Proof.Machine
end

