-- ==== Sys2Proof/Machine/PeripheralController.lean ====
section
/-! DEFINITION. The Peripheral Controller (spec/40_peripheral_controller.md): `CONFIGURE`, `RESTART`, `INIT_RECOVERY`,
`RECEIVE`, `READ_STATUS`, `READ_ALERTS`. -/

namespace Sys2Proof.Machine

/-! ### `CONFIGURE` (R100) -/

/-- The step a `cfg_fail` draw makes fail. -/
def CfgFault.failing : CfgFault → Option CfgStep
  | .none => none
  | .chAlloc => some .chAlloc
  | .pinCfg => some .pinCfg
  | .drvInstall => some .drvInstall
  | .alertCfg => some .alertCfg
  | .drvStart => some .drvStart

/-- What a configure step does when it does not fail (R100, S0 to S5). -/
def CfgStep.apply : CfgStep → State → State
  | .chAlloc, s => { s with chAlloc := true }
  | .pinCfg, s => { s with pinCfg := true }
  | .stbyActive, s => { s with stby := false }
  | .drvInstall, s => { s with ctrl := .stopped, drvCfg := { filt := false, timing := s.params.timingProfile } }
  | .alertCfg, s => { s with alertEn := alertSet s.params.alertCount }
  | .drvStart, s => { s with ctrl := .running }

/-- The steps in their order (R92, R100). -/
def configureOrder : List CfgStep :=
  [.chAlloc, .pinCfg, .stbyActive, .drvInstall, .alertCfg, .drvStart]

/-- `FAILED(s)` of R100. -/
def State.configureFailed (s : State) (step : CfgStep) : State :=
  ({ s with fault := true }.logEvent .cfgFail (.step step)).withResult (.res (.err (.cfgFail step)))

/-- Runs the steps in order; the failing one aborts the rest and keeps the earlier effects (R100). -/
def State.runConfigure (failing : Option CfgStep) : List CfgStep → State → State
  | [], s => { s with cfgDone := true }.withResult (.res .ok)
  | step :: steps, s =>
    if failing = some step then s.configureFailed step
    else State.runConfigure failing steps (step.apply s)

/-- `CONFIGURE` (R100): refused after `LAUNCH`, no effect after success, refused after a failure. -/
def execConfigure (s : State) : Host.Outcome State Fault Refusal :=
  if s.launched then .refused .reconfigureAtRuntime
  else if s.cfgDone then .next (s.withResult (.res .ok))
  else if s.fault then .refused .configureAfterFailure
  else .next (State.runConfigure (CfgFault.failing s.drawCfgFail) configureOrder s)

/-! ### `RESTART` and `INIT_RECOVERY` (R101, R102) -/

/-- The result of a call whose failure is the environment's draw. -/
def CallDraw.toRes : CallDraw → Res
  | .ok => .ok
  | .fail => .err .fail

/-- `RESTART()` as the Fault Monitor calls it (R101): its result and the state it leaves. -/
def State.restart (s : State) : Res × State :=
  if s.ctrl ≠ .stopped then (.err .notReady, s)
  else
    match s.drawRestart with
    | .ok => (.ok, { s with ctrl := .running })
    | .fail => (.err .fail, s)

/-- `RESTART` (R101). -/
def execRestart (s : State) : Host.Outcome State Fault Refusal :=
  .next (s.restart.2.withResult (.res s.restart.1))

/-- `INIT_RECOVERY()` as the Fault Monitor calls it (R102). -/
def State.initRecovery (s : State) : Res × State :=
  if s.ctrl ≠ .busOff then (.err .notReady, s)
  else
    match s.drawRecovery with
    | .ok => (.ok, { s with ctrl := .recovering })
    | .fail => (.err .fail, s)

/-- `INIT_RECOVERY` (R102). -/
def execInitRecovery (s : State) : Host.Outcome State Fault Refusal :=
  .next (s.initRecovery.2.withResult (.res s.initRecovery.1))

/-! ### `RECEIVE` (R103) -/

/-- What one attempt to receive gives. -/
inductive Reception where
  /-- Not enabled: the controller runs, no fault is drawn and `HWQ` is empty. -/
  | blocked
  | frame (f : Frame) (rest : List Frame)
  | failed (e : ErrCode)
  deriving DecidableEq, Repr

/-- `RECEIVE()` (R103): the fault draw is looked at first, then `CTRL`, then `HWQ` (R206). -/
def State.receive (s : State) : Reception :=
  match s.drawRxFault with
  | .timeout => .failed .timeout
  | .fail => .failed .fail
  | .noFault =>
    if s.ctrl ≠ .running then .failed .notReady
    else
      match pop s.hwq with
      | none => .blocked
      | some (f, rest) => .frame f rest

/-- `RECEIVE` (R103). -/
def execReceive (s : State) : Host.Outcome State Fault Refusal :=
  .next (match s.receive with
    | .blocked => s.waits
    | .frame f rest => { s with hwq := rest }.withResult (.received f)
    | .failed e => s.withResult (.receiveFailed e))

/-! ### `READ_STATUS` (R104) -/

/-- `READ_STATUS()` (R104): the snapshot, or `none` for `Err(Fail)`. -/
def State.readStatus (s : State) : Option Status :=
  if s.ctrl = .uninstalled then none
  else if s.drawStatusFails then none
  else some s.status

/-- `READ_STATUS` (R104). -/
def execReadStatus (s : State) : Host.Outcome State Fault Refusal :=
  .next (s.withResult (.statusRead s.readStatus))

/-! ### `READ_ALERTS` (R105) -/

/-- `READ_ALERTS` (R105). -/
def execReadAlerts (s : State) : Host.Outcome State Fault Refusal :=
  .next (match s.takeAlerts with
    | none => s.waits
    | some (m, s') => s'.withResult (.alerts m))

end Sys2Proof.Machine
end

