-- ==== Sys2Proof/Machine/FaultMonitor.lean ====
section
/-! DEFINITION. The Fault Monitor (spec/41_fault_monitor.md): `FM_WAIT` and the seven handlers. -/

namespace Sys2Proof.Machine

/-- `FM_WAIT` (R110): enabled in `Wait` while an alert is pending. -/
def execFmWait (s : State) : Host.Outcome State Fault Refusal :=
  .next (match s.fmSeq with
    | .idle => s.waits
    | .dispatch _ => s.waits
    | .wait =>
      match s.takeAlerts with
      | none => s.waits
      | some (m, s') => { s' with fmSeq := .dispatch m }.withResult .unit)

/-- `H_DATA_AVAIL` (R113): nothing but `done`. -/
def execHDataAvail (s : State) : Host.Outcome State Fault Refusal :=
  .next (s.handle .dataAvail (fun t => t))

/-- `H_RXQ_FULL` (R114). -/
def execHRxqFull (s : State) : Host.Outcome State Fault Refusal :=
  .next (s.handle .rxqFull (fun t => t.logEvent .rxqFull .none))

/-- `H_BUS_ERROR` (R115): a failed status fetch only changes the payload. -/
def execHBusError (s : State) : Host.Outcome State Fault Refusal :=
  .next (s.handle .busError (fun t => t.logEvent .busError (.status t.readStatus)))

/-- `H_ERR_PASSIVE` (R116). -/
def execHErrPassive (s : State) : Host.Outcome State Fault Refusal :=
  .next (s.handle .errPassive (fun t => t.logEvent .errPassive (.status t.readStatus)))

/-- `H_ARB_LOST` (R117). -/
def execHArbLost (s : State) : Host.Outcome State Fault Refusal :=
  .next (s.handle .arbLost (fun t => t.logEvent .arbLost .none))

/-- The body of `H_BUS_OFF` (R118): the recovery is started only if `BHS` is not already `Recovering`. -/
def State.startRecovery (s : State) : State :=
  match s.bhs with
  | .recovering => s
  | .normal =>
    match s.initRecovery with
    | (.ok, s') => { s' with bhs := .recovering }.logEvent .busOffRecoveryStarted .none
    | (.err e, s') => s'.logEvent .recoveryInitFailed (.err e)

/-- `H_BUS_OFF` (R118). -/
def execHBusOff (s : State) : Host.Outcome State Fault Refusal :=
  .next (s.handle .busOff State.startRecovery)

/-- The body of `H_BUS_RECOVERED` (R119): the controller is restarted only if `BHS` is `Recovering`. -/
def State.finishRecovery (s : State) : State :=
  match s.bhs with
  | .normal => s.logEvent .spuriousRecovered .none
  | .recovering =>
    match s.restart with
    | (.ok, s') => { s' with bhs := .normal }.logEvent .busRecoveredRestarted .none
    | (.err e, s') => s'.logEvent .restartFailed (.err e)

/-- `H_BUS_RECOVERED` (R119). -/
def execHBusRecovered (s : State) : Host.Outcome State Fault Refusal :=
  .next (s.handle .busRecovered State.finishRecovery)

end Sys2Proof.Machine
end

