-- ==== Sys2Proof/Machine/FrameChannel.lean ====
section
/-! DEFINITION. The Frame Channel (spec/42_frame_channel.md): `TRY_ENQUEUE`, `DEQUEUE`, the drop counter and the warning
limiter. -/

namespace Sys2Proof.Machine

/-- `DROP_MAX = 2^DROP_W - 1` (R5). -/
def dropMax (p : Params) : Nat := 2 ^ p.dropWidth - 1

/-- `DROP` after one more failed enqueue (R133): it saturates. -/
def countedDrop (p : Params) (drop : Nat) : Nat := if drop < dropMax p then drop + 1 else drop

/-- `count_drop()` (R133). -/
def State.countDrop (s : State) : State := { s with drop := countedDrop s.params s.drop }

/-- Whether the warning window has elapsed (R134): a `u64` subtraction and an inclusive comparison (log 14). -/
def State.warnDue (s : State) : Bool := decide (s.params.warnWindowUs ≤ (s.timeUs - s.lastWarn).toNat)

/-- `maybe_warn()` (R134). -/
def State.maybeWarn (s : State) : State :=
  if s.warnDue then { s.logEvent .chanDrop (.drop s.drop) with lastWarn := s.timeUs } else s

/-- `TRY_ENQUEUE(tf)` once the channel is constructed (R131): whether the frame was taken, and the state left. -/
def State.offer (s : State) (tf : TimedFrame) : Bool × State :=
  if s.q.length < s.params.capacity then (true, { s with q := push s.q tf })
  else (false, s.countDrop.maybeWarn)

/-- `TRY_ENQUEUE` (R131). -/
def execTryEnqueue (tf : TimedFrame) (s : State) : Host.Outcome State Fault Refusal :=
  if s.chAlloc then .next ((s.offer tf).2.withResult (.accepted (s.offer tf).1))
  else .refused .channelNotConstructed

/-- Whether a wait on the empty channel ends at this step without a frame (R132): never for `Forever`, at once for a
poll, and by the draw `deq_expired` for a finite wait. -/
def State.deqEnds (s : State) : Timeout → Bool
  | .forever => false
  | .after us => us == 0#64 || s.drawDeqExpired

/-- `DEQUEUE` (R132). -/
def execDequeue (timeout : Timeout) (s : State) : Host.Outcome State Fault Refusal :=
  if s.chAlloc then
    .next (match pop s.q with
      | some (tf, rest) => { s with q := rest }.withResult (.dequeued (some tf))
      | none => if s.deqEnds timeout then s.withResult (.dequeued none) else s.waits)
  else .refused .channelNotConstructed

end Sys2Proof.Machine
end

