-- ==== Sys2Proof/Machine/HostControl.lean ====
section
/-! DEFINITION. Host steps (spec/46_environment_and_host.md section 2): `RESET` and `LAUNCH`. -/

namespace Sys2Proof.Machine

/-- Every state element at its reset value (R186, R240); what R240 leaves unspecified is drawn. `STATUS` is the
environment's and stays whatever it is; the parameters and the model's own fields but the result stay (log 29). -/
def State.resetBlock (s : State) : State :=
  { params := s.params, pending := s.pending, fixed := s.fixed, drawIdx := s.drawIdx, result := .unit
    timeUs := s.drawResetTime, log := [], tx := [], fmSeq := .idle, ingSeq := .idle, egrSeq := .idle
    bhs := .normal, nrLogged := false, cfgDone := false, launched := false, fault := false, pinCfg := false
    stby := s.drawResetStby, chAlloc := false, ctrl := .uninstalled
    drvCfg := { filt := false, timing := s.drawResetTiming }, alertEn := 0#7, alertPend := 0#7, hwq := []
    status := s.status, q := [], drop := 0, lastWarn := 0#64, outbuf := [] }

/-- `RESET` (R186): in any state. -/
def execReset (s : State) : Host.Outcome State Fault Refusal := .next s.resetBlock

/-- `LAUNCH` (R187). -/
def execLaunch (s : State) : Host.Outcome State Fault Refusal :=
  if !s.cfgDone then .refused .launchWithoutConfigure
  else if s.launched then .refused .launchTwice
  else .next ({ s with fmSeq := .wait, ingSeq := .recv, egrSeq := .deq, launched := true }.withResult .unit)

end Sys2Proof.Machine
end

