-- ==== Sys2Proof/Machine/Ingress.lean ====
section
/-! DEFINITION. The Ingress sequencer (spec/43_ingress.md): `ING_RECV`, `ING_ENQ`, `ING_WAKE`. -/

namespace Sys2Proof.Machine

/-- The log-once marker's effect (R150): the first not-ready result of a run of them is logged. -/
def State.logNotReady (s : State) : State :=
  if s.nrLogged then s else { s.logEvent .rxNotReady (.bhs s.bhs) with nrLogged := true }

/-- The back-off deadline, computed without wrap-around (R13, R150). -/
def State.backoffDeadline (s : State) : Nat := s.timeUs.toNat + s.params.backoffUs

/-- What `ING_RECV` does in `Recv` (R150). -/
def State.ingestReception (s : State) : State :=
  match s.receive with
  | .blocked => s.waits
  | .frame f rest =>
    { s with hwq := rest, nrLogged := false, ingSeq := .held ⟨s.timeUs, f⟩ }.withResult .unit
  | .failed .notReady => { s.logNotReady with ingSeq := .backoff s.backoffDeadline }.withResult .unit
  | .failed e => { s.logEvent .rxError (.err e) with ingSeq := .recv }.withResult .unit

/-- `ING_RECV` (R150). -/
def execIngRecv (s : State) : Host.Outcome State Fault Refusal :=
  .next (match s.ingSeq with
    | .recv => s.ingestReception
    | .idle => s.waits
    | .held _ => s.waits
    | .backoff _ => s.waits)

/-- `ING_ENQ` (R151): the Ingress goes back to `Recv` whether or not the channel took the frame. -/
def execIngEnq (s : State) : Host.Outcome State Fault Refusal :=
  match s.ingSeq with
  | .held tf =>
    if s.chAlloc then .next ({ (s.offer tf).2 with ingSeq := .recv }.withResult .unit)
    else .refused .channelNotConstructed
  | .idle => .next s.waits
  | .recv => .next s.waits
  | .backoff _ => .next s.waits

/-- `ING_WAKE` (R152). -/
def execIngWake (s : State) : Host.Outcome State Fault Refusal :=
  .next (match s.ingSeq with
    | .backoff wake =>
      if wake ≤ s.timeUs.toNat then { s with ingSeq := .recv }.withResult .unit else s.waits
    | .idle => s.waits
    | .recv => s.waits
    | .held _ => s.waits)

end Sys2Proof.Machine
end

