-- ==== Sys2Proof/Machine/Dispatch.lean ====
section
/-! DEFINITION. The meaning of each operation of spec/30_encoding.md R83, one arm each. -/

namespace Sys2Proof.Machine

/-- One operation executed in a state (R8). -/
def exec (i : Instr) (s : State) : Host.Outcome State Fault Refusal :=
  match i with
  | .reset => Sys2Proof.Machine.execReset s
  | .launch => Sys2Proof.Machine.execLaunch s
  | .configure => Sys2Proof.Machine.execConfigure s
  | .restart => Sys2Proof.Machine.execRestart s
  | .initRecovery => Sys2Proof.Machine.execInitRecovery s
  | .receive => Sys2Proof.Machine.execReceive s
  | .readStatus => Sys2Proof.Machine.execReadStatus s
  | .readAlerts => Sys2Proof.Machine.execReadAlerts s
  | .fmWait => Sys2Proof.Machine.execFmWait s
  | .hDataAvail => Sys2Proof.Machine.execHDataAvail s
  | .hRxqFull => Sys2Proof.Machine.execHRxqFull s
  | .hErrPassive => Sys2Proof.Machine.execHErrPassive s
  | .hBusError => Sys2Proof.Machine.execHBusError s
  | .hArbLost => Sys2Proof.Machine.execHArbLost s
  | .hBusOff => Sys2Proof.Machine.execHBusOff s
  | .hBusRecovered => Sys2Proof.Machine.execHBusRecovered s
  | .tryEnqueue tf => Sys2Proof.Machine.execTryEnqueue tf s
  | .dequeue timeout => Sys2Proof.Machine.execDequeue timeout s
  | .ingRecv => Sys2Proof.Machine.execIngRecv s
  | .ingEnq => Sys2Proof.Machine.execIngEnq s
  | .ingWake => Sys2Proof.Machine.execIngWake s
  | .encodeFrame valid tf cap => Sys2Proof.Machine.execEncodeFrame valid tf cap s
  | .egrDeq => Sys2Proof.Machine.execEgrDeq s
  | .egrEmit => Sys2Proof.Machine.execEgrEmit s
  | .transportWrite bytes => Sys2Proof.Machine.execTransportWrite bytes s
  | .evFrame f => Sys2Proof.Machine.execEvFrame f s
  | .evBusOff => Sys2Proof.Machine.execEvBusOff s
  | .evRecoveryDone => Sys2Proof.Machine.execEvRecoveryDone s
  | .evAlert mask => Sys2Proof.Machine.execEvAlert mask s
  | .evTime t => Sys2Proof.Machine.execEvTime t s

end Sys2Proof.Machine
end

