-- ==== Sys2Proof/Machine/Issue.lean ====
section
/-! DEFINITION. Which operation a step takes and who takes it: issue restrictions (spec/30_encoding.md R96), the task
sequencers (spec/10_state.md R27) and the choice among agents (spec/70_reset_and_hazards.md R250). -/

namespace Sys2Proof

/-- "Issued by" of R83. -/
def Instr.owner : Instr → Agent
  | .reset => .host
  | .launch => .host
  | .configure => .host
  | .restart => .fm
  | .initRecovery => .fm
  | .receive => .ing
  | .readStatus => .fm
  | .readAlerts => .fm
  | .fmWait => .fm
  | .hDataAvail => .fm
  | .hRxqFull => .fm
  | .hErrPassive => .fm
  | .hBusError => .fm
  | .hArbLost => .fm
  | .hBusOff => .fm
  | .hBusRecovered => .fm
  | .tryEnqueue _ => .ing
  | .dequeue _ => .egr
  | .ingRecv => .ing
  | .ingEnq => .ing
  | .ingWake => .ing
  | .encodeFrame _ _ _ => .egr
  | .egrDeq => .egr
  | .egrEmit => .egr
  | .transportWrite _ => .egr
  | .evFrame _ => .env
  | .evBusOff => .env
  | .evRecoveryDone => .env
  | .evAlert _ => .env
  | .evTime _ => .env

/-- The inner operations of R96, issued only inside the step R83 names. -/
def Instr.inner : Instr → Bool
  | .reset => false
  | .launch => false
  | .configure => false
  | .restart => true
  | .initRecovery => true
  | .receive => true
  | .readStatus => true
  | .readAlerts => true
  | .fmWait => false
  | .hDataAvail => false
  | .hRxqFull => false
  | .hErrPassive => false
  | .hBusError => false
  | .hArbLost => false
  | .hBusOff => false
  | .hBusRecovered => false
  | .tryEnqueue _ => true
  | .dequeue _ => true
  | .ingRecv => false
  | .ingEnq => false
  | .ingWake => false
  | .encodeFrame _ _ _ => true
  | .egrDeq => false
  | .egrEmit => false
  | .transportWrite _ => true
  | .evFrame _ => false
  | .evBusOff => false
  | .evRecoveryDone => false
  | .evAlert _ => false
  | .evTime _ => false

/-- Whether the fields of an `F` record fit `ID_W` and `DLC_W` (R5). -/
def Frame.fits (p : Params) (f : Frame) : Bool :=
  decide (f.id.toNat < 2 ^ p.idWidth.val) && decide (f.dlc.toNat < 2 ^ p.dlcWidth.val)

/-- Whether a timestamp fits `TS_W` (R5). -/
def timeFits (p : Params) (t : Word64) : Bool := decide (t.toNat < 2 ^ p.tsWidth.val)

/-- Whether the fields of a `TF` record fit the widths of R5. -/
def TimedFrame.fits (p : Params) (tf : TimedFrame) : Bool := timeFits p tf.ts && tf.frame.fits p

/-- Whether the frame or the time an operation carries fits the widths of R5 (log 8); at R5's values each does. -/
def Instr.fits (p : Params) : Instr → Bool
  | .reset => true
  | .launch => true
  | .configure => true
  | .restart => true
  | .initRecovery => true
  | .receive => true
  | .readStatus => true
  | .readAlerts => true
  | .fmWait => true
  | .hDataAvail => true
  | .hRxqFull => true
  | .hErrPassive => true
  | .hBusError => true
  | .hArbLost => true
  | .hBusOff => true
  | .hBusRecovered => true
  | .tryEnqueue tf => tf.fits p
  | .dequeue _ => true
  | .ingRecv => true
  | .ingEnq => true
  | .ingWake => true
  | .encodeFrame _ tf _ => tf.fits p
  | .egrDeq => true
  | .egrEmit => true
  | .transportWrite _ => true
  | .evFrame f => f.fits p
  | .evBusOff => true
  | .evRecoveryDone => true
  | .evAlert _ => true
  | .evTime t => timeFits p t

namespace Machine

/-- Who may issue what (R96): an agent its own operations but for the inner ones; the harness, standing in for the
owning agent, any (log 2). -/
def Issuer.may : Issuer → Instr → Bool
  | .agent a, i => decide (a = i.owner) && !i.inner
  | .harness, _ => true

/-- The environment's own change of `STATUS`, which takes no step (R41, log 7). -/
def State.refreshStatus (s : State) : State := { s with status := s.drawStatusValue }

/-- What every step does before its operation: the record is taken, its annotations are in force, the counter of the
free values advances, and the environment lets `STATUS` be what it will (log 1, log 6, log 7). -/
def State.begin (s : State) (rest : List Issue) (draws : Draws) : State :=
  { s with pending := rest, fixed := draws, drawIdx := s.drawIdx + 1 }.refreshStatus

/-- What is left of a record once an operation has been read from it: further bytes are the same issuer's next
operation, without annotations (log 16). -/
def Issue.leftover (r : Issue) : List Byte → List Issue
  | [] => []
  | b :: bs => [{ issuer := r.issuer, bytes := b :: bs, draws := {} }]

/-- A step that a record asks for (R8, R95, R96). DESIGN CHOICE: where a record meets more than one row of R202, the
reason given is the first of its encoding, its issuer, the widths of its operands, and the operation's own (log 33). -/
def issuedStep (r : Issue) (rest : List Issue) (s : State) : Host.Outcome State Fault Refusal :=
  match decode r.bytes with
  | .error e => .refused (.reservedEncoding e)
  | .ok (i, after) =>
    if !r.issuer.may i then .refused .wrongIssuer
    else if !i.fits s.params then .refused .operandTooWide
    else exec i (s.begin (r.leftover after ++ rest) r.draws)

/-- The one step of a task that its sequencer allows (R27, R112); `none` in `Idle`. -/
def State.fmOp (s : State) : Option Instr :=
  match s.fmSeq with
  | .idle => none
  | .wait => some .fmWait
  | .dispatch m => (nextAlert s.params m).map Alert.handler

/-- The one step of the Ingress (R27). -/
def State.ingOp (s : State) : Option Instr :=
  match s.ingSeq with
  | .idle => none
  | .recv => some .ingRecv
  | .held _ => some .ingEnq
  | .backoff _ => some .ingWake

/-- The one step of the Egress (R27). -/
def State.egrOp (s : State) : Option Instr :=
  match s.egrSeq with
  | .idle => none
  | .deq => some .egrDeq
  | .held _ => some .egrEmit

/-- An operation an agent chooses freely, if it is a well-formed one of its own whose operands fit (R185, R188). -/
def chosenOp (p : Params) (a : Agent) (i : Instr) : Option Instr :=
  if i.wellFormed && i.fits p && Issuer.may (.agent a) i then some i else none

/-- The operation an agent takes when it is its turn. -/
def State.agentOp (s : State) : Agent → Option Instr
  | .host => chosenOp s.params .host (Config.hostOp s.drawIdx)
  | .env => chosenOp s.params .env (Config.envOp s.drawIdx)
  | .fm => s.fmOp
  | .ing => s.ingOp
  | .egr => s.egrOp

/-- A step no record asks for: the scheduler's free choice of an agent takes its operation (R7, R250, log 3). -/
def freeStep (s : State) : Host.Outcome State Fault Refusal :=
  match s.agentOp (Config.turn s.drawIdx) with
  | none => .next (s.begin [] {}).waits
  | some i => exec i (s.begin [] {})

/-- A record that asks for the operation of a table word, on the harness's behalf (log 2). -/
def fetchRecord (nbits w : Nat) : Issue := { issuer := .harness, bytes := instanceBytes nbits w, draws := {} }

end Machine

end Sys2Proof
end

