-- ==== Sys2Proof/Machine/Step.lean ====
section
/-! DEFINITION. The step of the block: the next record's operation, or the free choice of an agent
(spec/00_scope.md R6-R8). -/

namespace Sys2Proof.Machine

/-- One step. -/
def step (s : State) : Host.Outcome State Fault Refusal :=
  match s.pending with
  | [] => freeStep s
  | r :: rest => issuedStep r rest s

/-- The state in which the operation of a table word is the next to be issued (log 1). -/
def State.withFetchWord (s : State) (nbits w : Nat) : State :=
  { s with pending := fetchRecord nbits w :: s.pending }

end Sys2Proof.Machine
end

