-- ==== Sys2Proof/Machine/Pseudo.lean ====
section
/-! DEFINITION. The pseudo-operations of spec/30_encoding.md R98, as the operations they expand to. -/

namespace Sys2Proof.Machine

/-- `BOOT`. -/
def pseudoBoot : List Instr := [.reset, .configure, .launch]

/-- `EGR_PUMP`. -/
def pseudoEgrPump : List Instr := [.egrDeq, .egrEmit]

/-- `ING_PUMP`, by the sequencer after its `ING_RECV`: `ING_ENQ` only if a frame is held. -/
def pseudoIngPump : IngSeq → List Instr
  | .held _ => [.ingRecv, .ingEnq]
  | .idle => [.ingRecv]
  | .recv => [.ingRecv]
  | .backoff _ => [.ingRecv]

/-- `FM_RUN`, by the mask its `FM_WAIT` returns: one handler per set bit, in the order of R111. -/
def pseudoFmRun (p : Params) (m : AlertMask) : List Instr :=
  .fmWait :: (p.alertOrder.filter (p.alertBit.has m)).map Alert.handler

/-- `EV_BUS_ERROR`. -/
def pseudoEvBusError (b : AlertBits) : Instr := .evAlert (b.mask .busError)

/-- `EV_ERR_PASSIVE`. -/
def pseudoEvErrPassive (b : AlertBits) : Instr := .evAlert (b.mask .errPassive)

/-- `EV_ARB_LOST`. -/
def pseudoEvArbLost (b : AlertBits) : Instr := .evAlert (b.mask .arbLost)

/-- `EV_BUS_OFF_AGAIN`. -/
def pseudoEvBusOffAgain (b : AlertBits) : Instr := .evAlert (b.mask .busOff)

/-- `EV_SPURIOUS_RECOVERED`. -/
def pseudoEvSpuriousRecovered (b : AlertBits) : Instr := .evAlert (b.mask .busRecovered)

end Sys2Proof.Machine
end

