-- ==== Sys2Proof/Machine/Ring.lean ====
section
/-! DEFINITION. The ring refinement of a queue space (spec/20_memory.md R62). The state keeps the abstract sequence, which
R62 makes normative; this is the storage R62 says it refines to. -/

namespace Sys2Proof.Machine

/-- `SLOT`, `HEAD`, `TAIL`, `COUNT` of a queue space (R62). -/
structure QueueRing (α : Type) where
  slots : List α
  head  : Nat
  tail  : Nat
  count : Nat
  deriving DecidableEq, Repr

/-- A ring right after reset: the indices are zero, the slots whatever they are (R62). -/
def QueueRing.atReset {α : Type} (slots : List α) : QueueRing α := { slots := slots, head := 0, tail := 0, count := 0 }

/-- `push` on the ring (R62). -/
def QueueRing.push {α : Type} (r : QueueRing α) (e : α) : QueueRing α :=
  { slots := r.slots.set r.tail e, head := r.head, tail := (r.tail + 1) % r.slots.length, count := r.count + 1 }

/-- `pop` on the ring (R62). -/
def QueueRing.pop {α : Type} (r : QueueRing α) : Option (α × QueueRing α) :=
  if r.count = 0 then none
  else
    match r.slots[r.head]? with
    | none => none
    | some e =>
      some (e, { slots := r.slots, head := (r.head + 1) % r.slots.length, tail := r.tail, count := r.count - 1 })

/-- The abstraction of R62: slot `(HEAD + k) mod C` for `k = 0 .. COUNT-1`. -/
def QueueRing.queue {α : Type} (r : QueueRing α) : List α :=
  (List.range r.count).filterMap (fun k => r.slots[(r.head + k) % r.slots.length]?)

/-- The invariant of R62, with the ranges of its registers. -/
def QueueRing.wf {α : Type} (r : QueueRing α) : Bool :=
  decide (r.head < r.slots.length) && decide (r.count ≤ r.slots.length)
    && decide (r.tail = (r.head + r.count) % r.slots.length)

end Sys2Proof.Machine
end

