-- ==== Sys2Proof/Safety.lean ====
section
/-! DEFINITION. What the statements speak of: the invariants of spec/10_state.md R47, whole-block runs, sequences of
operations, quiescent states and observables (spec/70_reset_and_hazards.md R255, R256). -/

namespace Sys2Proof.Safety

open Sys2Proof.Machine

/-! ### Runs -/

/-- Operations executed one after the other, stopping at the first that gives no next state. -/
def execAll : List Instr → State → Host.Outcome State Fault Refusal
  | [], s => .next s
  | i :: is, s =>
    match exec i s with
    | .next t => execAll is t
    | .fault r => .fault r
    | .refused r => .refused r

/-- A whole-block run: no record is issued by the test harness (R96). -/
def WholeBlock (s : State) : Prop := ∀ r ∈ s.pending, r.issuer ≠ .harness

/-- An unending run (R250): before each step one record of an agent is placed, and the step runs it. Which agent it is,
which operation and which draws are free, so this is every interleaving (log 32). -/
def Run (states : Nat → State) (issues : Nat → Issue) : Prop :=
  ∀ n, (issues n).issuer ≠ .harness ∧ step { states n with pending := [issues n] } = .next (states (n + 1))

/-- A task's step is enabled (R8, R250): the operation its sequencer allows completes and does not wait, whatever the
environment draws (log 32). -/
def TaskEnabled (a : Agent) (s : State) : Prop :=
  ∃ i, s.agentOp a = some i ∧ ∀ draws, ∃ t, exec i (s.begin [] draws) = .next t ∧ t.result ≠ .blocked

/-- Step `n` of a run is an enabled step of agent `a`, taken. -/
def Takes (states : Nat → State) (issues : Nat → Issue) (a : Agent) (n : Nat) : Prop :=
  (issues n).issuer = .agent a ∧ (states (n + 1)).result ≠ .blocked

/-- Weak fairness for one task (R250): a task whose step stays enabled eventually takes it. -/
def WeaklyFair (states : Nat → State) (issues : Nat → Issue) (a : Agent) : Prop :=
  ∀ n, (∀ m, n ≤ m → TaskEnabled a (states m)) → ∃ m, n ≤ m ∧ Takes states issues a m

/-- A fair run (R250): weakly fair for `FM`, `ING` and `EGR`; of `ENV` and `HOST` nothing is assumed. -/
structure FairRun (states : Nat → State) (issues : Nat → Issue) : Prop where
  run : Run states issues
  fm  : WeaklyFair states issues .fm
  ing : WeaklyFair states issues .ing
  egr : WeaklyFair states issues .egr

/-! ### Invariants -/

/-- The invariants that every step keeps, the harness's among them: R47 items 1, 5, 6, 8, 9, the canonical form of
`OUTBUF`, and what relates the sequencers and the setup flags. -/
structure ComponentInv (s : State) : Prop where
  /-- R47 item 1. -/
  channel_bounded : s.q.length ≤ s.params.capacity
  /-- R47 item 1. -/
  hwq_bounded : s.hwq.length ≤ s.params.hwqDepth
  /-- R47 item 5. -/
  launched_configured : s.launched = true → s.cfgDone = true
  /-- R47 item 6. -/
  fault_excludes_done : ¬(s.fault = true ∧ s.cfgDone = true)
  /-- R47 item 8. -/
  pending_enabled : s.alertPend &&& ~~~s.alertEn = 0#7
  /-- R47 item 9. -/
  warn_in_past : s.lastWarn.toNat ≤ s.timeUs.toNat
  /-- R112: `Dispatch(0)` is never entered. -/
  dispatch_nonempty : s.fmSeq ≠ .dispatch 0#7
  /-- R27, R187: the tasks are idle exactly until they are launched, all three together. -/
  idle_until_launched : (s.fmSeq = .idle ↔ s.launched = false) ∧ (s.ingSeq = .idle ↔ s.launched = false)
    ∧ (s.egrSeq = .idle ↔ s.launched = false)
  /-- R47 item 4, first half. -/
  installed_after_pins : s.ctrl ≠ .uninstalled → s.pinCfg = true ∧ s.stby = false ∧ s.chAlloc = true
  /-- R100: a successful configure leaves a driver installed and all alerts enabled. -/
  done_enables : s.cfgDone = true → s.alertEn = alertSet s.params.alertCount ∧ s.ctrl ≠ .uninstalled
  /-- R100, R241: before the one `CONFIGURE`, no driver is installed and no alert enabled. -/
  fresh_uninstalled : s.cfgDone = false → s.fault = false → s.ctrl = .uninstalled ∧ s.alertEn = 0#7
  /-- R43, R133: the drop counter fits its width. -/
  drop_fits : s.drop ≤ dropMax s.params
  /-- R60: the canonical form of `OUTBUF`, inside the buffer. -/
  outbuf_canonical : Memory.wf s.outbuf = true ∧ Memory.within s.outbuf s.params.outCap = true

/-- R47 item 4, second half: it needs a whole-block run, since a harness may issue `RESTART` after a failed configure. -/
def AlertsInstalled (s : State) : Prop :=
  s.ctrl = .running ∨ s.ctrl = .busOff ∨ s.ctrl = .recovering → s.alertEn = alertSet s.params.alertCount

/-- The frame the Ingress holds (R26). -/
def ingHeld (s : State) : List TimedFrame :=
  match s.ingSeq with
  | .idle => []
  | .recv => []
  | .held tf => [tf]
  | .backoff _ => []

/-- The frame the Egress holds (R26). -/
def egrHeld (s : State) : List TimedFrame :=
  match s.egrSeq with
  | .idle => []
  | .deq => []
  | .held tf => [tf]

/-- Every captured frame inside the block, oldest first: held by the Egress, in `Q`, held by the Ingress (R25). -/
def captured (s : State) : List TimedFrame := egrHeld s ++ s.q ++ ingHeld s

/-- Every frame and time the block holds fits the widths `ID_W`, `DLC_W` and `TS_W` of R5 (log 8). -/
structure FieldsFit (s : State) : Prop where
  time     : timeFits s.params s.timeUs = true
  warn     : timeFits s.params s.lastWarn = true
  hwq      : ∀ f ∈ s.hwq, f.fits s.params = true
  captured : ∀ tf ∈ captured s, tf.fits s.params = true

/-- R47 item 7: the timestamps of the captured frames do not decrease, and none lies in the future. -/
def CaptureOrdered (s : State) : Prop :=
  ((captured s).map (fun tf => tf.ts.toNat) ++ [s.timeUs.toNat]).Pairwise (· ≤ ·)

/-- R252: what the transport was given is a sequence of whole records. -/
def TxIsRecords (s : State) : Prop := ∃ frames : List TimedFrame, s.tx = frames.flatMap (record s.params.payloadMax)

/-! ### Ends and observables -/

/-- R255 (a) to (c): what the state of an ended run is. (b) takes a back-off whatever its deadline; (d), that the
environment takes no further step, is of the run and not of a state (log 31). -/
def Quiescent (s : State) : Prop :=
  (s.fmSeq = .wait ∧ s.alertPend = 0#7)
    ∧ ((s.ingSeq = .recv ∧ s.ctrl = .running ∧ s.hwq = []) ∨ ∃ wake, s.ingSeq = .backoff wake)
    ∧ (s.egrSeq = .deq ∧ s.q = [])

/-- One agent's events, in the order it emitted them (R22). -/
def logOf (a : Agent) (s : State) : List LogEvent := s.log.filter (fun e => decide (e.agent = a))

/-- What is seen from outside the block (R256); the result of `CONFIGURE` is `State.result` after it. -/
structure Observed where
  tx    : List Byte
  log   : List (List LogEvent)
  fault : Bool
  stby  : Bool
  deriving DecidableEq, Repr

/-- The observables of a state (R256): the log only agent by agent. -/
def observe (s : State) : Observed :=
  { tx := s.tx, log := [Agent.host, .env, .fm, .ing, .egr].map (fun a => logOf a s), fault := s.fault, stby := s.stby }

end Sys2Proof.Safety
end

