-- ==== Sys2Proof/Certificates/Slice0/Obligations.lean ====
section
/-! DEFINITION. The statements for the provers, from the numbered rules of spec/. Every statement of an operation is made
for every state: the parameters of R5, the annotations and the free values are arbitrary in it. A draw is the value of
`State.draw…`. An operation that answers `s.waits` is not enabled and its agent waits (the model's form of R8 (b), log
4); the result value stands in `State.result` (log 5). -/

open Sys2Proof Sys2Proof.Machine Sys2Proof.Safety

/-! ## Encodings -/

/-- Words of spec/95_test_vectors.md section 2.1 (V-ENCD-1, V-ENCD-2), one or two for each group of R81, decode to the
operations they stand for. -/
def Obligations.SampleWordsDecode : Prop :=
  decode [0x01#8] = .ok (.reset, [])
    ∧ decode [0x10#8] = .ok (.configure, [])
    ∧ decode [0x26#8] = .ok (.hBusOff, [])
    ∧ decode [0x30#8, 0x64#8, 0#8, 0#8, 0#8, 0#8, 0#8, 0#8, 0#8, 0x00#8, 0x01#8, 0#8, 0#8, 0#8, 0x01#8, 0xA1#8, 0#8,
        0#8, 0#8, 0#8, 0#8, 0#8, 0#8]
      = .ok (.tryEnqueue ⟨100#64, ⟨0x100#32, false, false, 1#8, ⟨0xA1#8, 0#8, 0#8, 0#8, 0#8, 0#8, 0#8, 0#8⟩⟩⟩, [])
    ∧ decode [0x31#8, 0xFF#8, 0xFF#8, 0xFF#8, 0xFF#8, 0xFF#8, 0xFF#8, 0xFF#8, 0xFF#8] = .ok (.dequeue .forever, [])
    ∧ decode [0x31#8, 0x88#8, 0x13#8, 0#8, 0#8, 0#8, 0#8, 0#8, 0#8] = .ok (.dequeue (.after 5000#64), [])
    ∧ decode [0x42#8] = .ok (.ingWake, [])
    ∧ decode [0x52#8] = .ok (.egrEmit, [])
    ∧ decode [0x60#8, 0x10#8, 0xF1#8, 0xDA#8, 0x18#8, 0x01#8, 0x0F#8, 0#8, 1#8, 2#8, 3#8, 4#8, 5#8, 6#8, 7#8]
      = .ok (.evFrame ⟨0x18DAF110#32, true, false, 15#8, ⟨0#8, 1#8, 2#8, 3#8, 4#8, 5#8, 6#8, 7#8⟩⟩, [])
    ∧ decode [0x63#8, 0x0C#8] = .ok (.evAlert (State.reset.params.alertBit.mask .busError ||| State.reset.params.alertBit.mask .errPassive), [])
    ∧ decode [0x64#8, 0x40#8, 0x42#8, 0x0F#8, 0#8, 0#8, 0#8, 0#8, 0#8] = .ok (.evTime 1000000#64, [])

/-- Decoding the encoding of a well-formed operation gives it back, with every operand at every value, and leaves what
follows it (R80, R82, R84-R88). -/
def Obligations.DecodeOfEncode : Prop :=
  ∀ (i : Instr) (rest : List Byte), i.wellFormed = true → decode (encode i ++ rest) = .ok (i, rest)

/-- Whatever decodes is a well-formed operation, and its encoding is the bytes that were read: the decoder drops no bit
and no operation has a second encoding (R80, R82, R95). -/
def Obligations.EncodeOfDecode : Prop :=
  ∀ (bs rest : List Byte) (i : Instr), decode bs = .ok (i, rest) → i.wellFormed = true ∧ encode i ++ rest = bs

/-- The reserved encodings of R95 (the spec's decision D33), each as an equivalence: the command words of (a); an
`EV_ALERT` mask that is zero or has bit 7 set (b); an `F` image with a bit of `flags[7:2]` set, in each format that holds
one (c); `valid > 1` (d). The machine refuses whatever does not decode; a `dlc` above 8 is not reserved. That bytes which
are empty or end too early are refused as well, and that a reserved `flags` or `valid` is reported although the bytes
after it end too early or are not there at all, is the model's choice (log 15). -/
def Obligations.ReservedEncodingsRefused : Prop :=
  (∀ (c : Byte) (bs : List Byte), decode (c :: bs) = .error (.reservedCommand c) ↔
      (c.toNat = 0x00 ∨ (0x03 ≤ c.toNat ∧ c.toNat ≤ 0x0F) ∨ (0x16 ≤ c.toNat ∧ c.toNat ≤ 0x1F)
        ∨ (0x28 ≤ c.toNat ∧ c.toNat ≤ 0x2F) ∨ (0x32 ≤ c.toNat ∧ c.toNat ≤ 0x3F)
        ∨ (0x43 ≤ c.toNat ∧ c.toNat ≤ 0x4F) ∨ (0x54 ≤ c.toNat ∧ c.toNat ≤ 0x5F)
        ∨ (0x65 ≤ c.toNat ∧ c.toNat ≤ 0x6F) ∨ 0x70 ≤ c.toNat))
    ∧ (∀ (m : Byte) (bs : List Byte),
        decode (0x63#8 :: m :: bs) = .error (.reservedMask m) ↔ (m = 0#8 ∨ m.getLsbD 7 = true))
    ∧ (∀ (id ts : List Byte) (flags valid : Byte) (bs : List Byte), id.length = 4 → ts.length = 8 →
        valid.toNat ≤ 1 →
        (decode (0x60#8 :: (id ++ flags :: bs)) = .error (.reservedFlags flags)
            ↔ flags.extractLsb' 2 6 ≠ 0#6)
          ∧ (decode (0x30#8 :: (ts ++ (id ++ flags :: bs))) = .error (.reservedFlags flags)
            ↔ flags.extractLsb' 2 6 ≠ 0#6)
          ∧ (decode (0x50#8 :: valid :: (ts ++ (id ++ flags :: bs))) = .error (.reservedFlags flags)
            ↔ flags.extractLsb' 2 6 ≠ 0#6))
    ∧ (∀ (v : Byte) (bs : List Byte), decode (0x50#8 :: v :: bs) = .error (.reservedValid v) ↔ 1 < v.toNat)
    ∧ (∀ (s : State) (r : Issue) (rest : List Issue) (e : DecodeError), s.pending = r :: rest →
        decode r.bytes = .error e → step s = .refused (.reservedEncoding e))
    ∧ (∀ (f : Frame) (rest : List Byte), decode (0x60#8 :: (f.image ++ rest)) = .ok (.evFrame f, rest))

/-! ## The step -/

/-- When the bytes of the next record decode to an operation its issuer may issue, the step is that operation executed in
the prepared state: the record taken, its annotations in force, the counter of the free values advanced, `STATUS` as the
environment lets it be. The records are the model's (log 1, log 2, log 6, log 7, log 16). At R5's widths of the fields of a
frame and of a time every operation fits them; at narrower ones an operation that does not fit is refused, which is the
model's choice (log 8). -/
def Obligations.StepRunsIssuedOperation : Prop :=
  (∀ (s : State) (r : Issue) (rest : List Issue) (i : Instr) (after : List Byte),
      s.pending = r :: rest → decode r.bytes = .ok (i, after) → r.issuer.may i = true →
      (i.fits s.params = true → step s = exec i (s.begin (r.leftover after ++ rest) r.draws))
        ∧ (i.fits s.params = false → step s = .refused .operandTooWide))
    ∧ (∀ (i : Instr), i.fits State.reset.params = true)
    ∧ (∀ (s : State) (rest : List Issue) (draws : Draws),
        s.begin rest draws = { s with
          pending := rest, fixed := draws, drawIdx := s.drawIdx + 1
          status := draws.statusValue.getD (Config.statusValue (s.drawIdx + 1)) })
    ∧ (∀ (r : Issue), r.leftover [] = [])
    ∧ (∀ (r : Issue) (b : Byte) (bs : List Byte), r.leftover (b :: bs) = [⟨r.issuer, b :: bs, {}⟩])

/-- R96 (the spec's decisions D2, D42): an operation issued by an agent that the table of R83 does not name as its issuer,
or an inner operation issued by itself, is refused. The inner operations are the nine of R96, and the owners those of
R83. That the test harness, which R96 lets stand in for the owning agent, may issue any operation is the model's choice
(log 2), and so are the records and what is left of one (log 1, log 16), the widths that operands must fit (log 8), and
that the issuer is looked at after the encoding and before everything else (log 33). -/
def Obligations.WrongIssuerRefused : Prop :=
  (∀ (s : State) (r : Issue) (rest : List Issue) (i : Instr) (after : List Byte),
      s.pending = r :: rest → decode r.bytes = .ok (i, after) →
      (∀ a, r.issuer = .agent a → a ≠ i.owner ∨ i.inner = true → step s = .refused .wrongIssuer)
        ∧ (r.issuer = .harness → i.fits s.params = true → step s = exec i (s.begin (r.leftover after ++ rest) r.draws)))
    ∧ (∀ i : Instr, i.inner = true ↔ (i = .restart ∨ i = .initRecovery ∨ i = .receive ∨ i = .readStatus
        ∨ i = .readAlerts ∨ (∃ tf, i = .tryEnqueue tf) ∨ (∃ timeout, i = .dequeue timeout)
        ∨ (∃ valid tf cap, i = .encodeFrame valid tf cap) ∨ ∃ bytes, i = .transportWrite bytes))
    ∧ (∀ i : Instr, (i.owner = .host ↔ i = .reset ∨ i = .launch ∨ i = .configure)
        ∧ (i.owner = .env ↔ commandGroup (commandWord i) = 6#4)
        ∧ (i.owner = .ing ↔ commandGroup (commandWord i) = 4#4 ∨ i = .receive ∨ ∃ tf, i = .tryEnqueue tf)
        ∧ (i.owner = .egr ↔ commandGroup (commandWord i) = 5#4 ∨ ∃ timeout, i = .dequeue timeout)
        ∧ (i.owner = .fm ↔ commandGroup (commandWord i) = 2#4 ∨ i = .restart ∨ i = .initRecovery ∨ i = .readStatus
            ∨ i = .readAlerts))

/-- With no record pending, the agent whose turn it is takes its one step: a task the operation its sequencer allows, an
`Idle` task none (R27, R112, R250), `HOST` and `ENV` a well-formed operation of their own or none (R185, R188). That the
turn and their choice are free values is the model's choice (log 3). -/
def Obligations.FreeStepFollowsSequencers : Prop :=
  (∀ (s : State), s.pending = [] →
      step s = match s.agentOp (Config.turn s.drawIdx) with
        | none => .next (s.begin [] {}).waits
        | some i => exec i (s.begin [] {}))
    ∧ (∀ (s : State), (s.fmSeq = .idle → s.agentOp .fm = none)
        ∧ (s.fmSeq = .wait → s.agentOp .fm = some .fmWait)
        ∧ (∀ m a, s.fmSeq = .dispatch m → nextAlert s.params m = some a →
            s.agentOp .fm = some a.handler)
        ∧ (s.ingSeq = .idle → s.agentOp .ing = none) ∧ (s.ingSeq = .recv → s.agentOp .ing = some .ingRecv)
        ∧ (∀ tf, s.ingSeq = .held tf → s.agentOp .ing = some .ingEnq)
        ∧ (∀ wake, s.ingSeq = .backoff wake → s.agentOp .ing = some .ingWake)
        ∧ (s.egrSeq = .idle → s.agentOp .egr = none) ∧ (s.egrSeq = .deq → s.agentOp .egr = some .egrDeq)
        ∧ (∀ tf, s.egrSeq = .held tf → s.agentOp .egr = some .egrEmit)
        ∧ s.agentOp .host = chosenOp s.params .host (Config.hostOp s.drawIdx)
        ∧ s.agentOp .env = chosenOp s.params .env (Config.envOp s.drawIdx))
    ∧ ∀ (p : Params) (a : Agent) (i j : Instr), chosenOp p a i = some j →
        j = i ∧ i.wellFormed = true ∧ i.fits p = true ∧ i.owner = a ∧ i.inner = false

/-! ## Reset, boot and launch -/

/-- R240 (the spec's decision D26 but for `BHS` and `DROP`): the reset values, and that no agent of the block has an enabled
step. `TIME_US`, `STBY`, `STATUS`, `DRVCFG.TIMING` and `OUTBUF` are unspecified there and nothing is said of them
here. -/
def Obligations.ResetStateValues : Prop :=
  State.reset.bhs = .normal ∧ State.reset.drop = 0 ∧ State.reset.lastWarn = 0#64 ∧ State.reset.q = []
    ∧ State.reset.hwq = [] ∧ State.reset.ctrl = .uninstalled ∧ State.reset.mode = 1#1
    ∧ State.reset.drvCfg.filt = false ∧ State.reset.alertEn = 0#7 ∧ State.reset.alertPend = 0#7
    ∧ State.reset.irq = false ∧ State.reset.fault = false ∧ State.reset.cfgDone = false
    ∧ State.reset.launched = false ∧ State.reset.pinCfg = false ∧ State.reset.chAlloc = false
    ∧ State.reset.nrLogged = false ∧ State.reset.fmSeq = .idle ∧ State.reset.ingSeq = .idle
    ∧ State.reset.egrSeq = .idle ∧ State.reset.log = [] ∧ State.reset.tx = []
    ∧ State.reset.agentOp .fm = none ∧ State.reset.agentOp .ing = none ∧ State.reset.agentOp .egr = none

/-- R186: `RESET` may be taken in any state and puts every state element at its reset value; what R240 leaves unspecified
is drawn. The parameters stay (they are no state of the block), as do the records and the counter (log 29). -/
def Obligations.ResetRestoresResetState : Prop :=
  ∀ (s : State), exec .reset s = .next { State.reset with
    params := s.params, pending := s.pending, fixed := s.fixed, drawIdx := s.drawIdx, timeUs := s.drawResetTime
    stby := s.drawResetStby, drvCfg := ⟨false, s.drawResetTiming⟩, status := s.status }

/-- R187 (refusals: the spec's decision D27): `LAUNCH` starts the three tasks together, once, and only after a successful configure. -/
def Obligations.LaunchStartsTasks : Prop :=
  (∀ (s : State), s.cfgDone = true → s.launched = false → exec .launch s = .next { s with
      fmSeq := .wait, ingSeq := .recv, egrSeq := .deq, launched := true, result := .unit })
    ∧ (∀ (s : State), s.cfgDone = false → exec .launch s = .refused .launchWithoutConfigure)
    ∧ (∀ (s : State), s.cfgDone = true → s.launched = true → exec .launch s = .refused .launchTwice)

/-- The state after a boot (`RESET`, `CONFIGURE`, `LAUNCH` from any state), successful (R242) or failing at the driver
install (R243, the scenario E8 of the document's §8: fault flag set, tasks not started). -/
def Obligations.BootOutcomes : Prop :=
  (∀ (s : State), s.drawCfgFail = .none → ∃ t, execAll [.reset, .configure, .launch] s = .next t
      ∧ t.chAlloc = true ∧ t.pinCfg = true ∧ t.cfgDone = true ∧ t.launched = true ∧ t.fault = false
      ∧ t.stby = false ∧ t.ctrl = .running ∧ t.mode = 1#1 ∧ t.drvCfg = ⟨false, s.params.timingProfile⟩
      ∧ t.alertEn = alertSet s.params.alertCount ∧ t.alertPend = 0#7 ∧ t.bhs = .normal ∧ t.q = [] ∧ t.hwq = [] ∧ t.drop = 0
      ∧ t.lastWarn = 0#64 ∧ t.fmSeq = .wait ∧ t.ingSeq = .recv ∧ t.egrSeq = .deq)
    ∧ (∀ (s : State), s.drawCfgFail = .drvInstall → ∃ t, execAll [.reset, .configure] s = .next t
        ∧ t.result = .res (.err (.cfgFail .drvInstall)) ∧ t.fault = true ∧ t.cfgDone = false ∧ t.chAlloc = true
        ∧ t.pinCfg = true ∧ t.stby = false ∧ t.ctrl = .uninstalled ∧ t.alertEn = 0#7
        ∧ t.log = [⟨.host, .cfgFail, .step .drvInstall⟩] ∧ t.fmSeq = .idle ∧ t.ingSeq = .idle ∧ t.egrSeq = .idle
        ∧ exec .launch t = .refused .launchWithoutConfigure)

/-! ## Peripheral Controller -/

/-- `CONFIGURE` in a state where it was neither done nor failed (R100): the steps run in order, the failing one sets
`FAULT`, is logged and aborts the rest, and the effects of the steps before it remain. The alert set is that of `N_ALERTS`
alerts, the mask `0x7F` for the seven of R5, and the filter installed is accept-all. -/
def Obligations.ConfigureRunsStepsInOrder : Prop :=
  (State.reset.params.alertCount = 7 ∧ alertSet 7 = 0x7F#7)
  ∧ ∀ (s : State), s.launched = false → s.cfgDone = false → s.fault = false →
    (s.drawCfgFail = .none → exec .configure s = .next { s with
        chAlloc := true, pinCfg := true, stby := false, ctrl := .running
        drvCfg := ⟨false, s.params.timingProfile⟩, alertEn := alertSet s.params.alertCount, cfgDone := true, result := .res .ok })
      ∧ (s.drawCfgFail = .chAlloc → exec .configure s = .next { s with
          fault := true, log := s.log ++ [⟨.host, .cfgFail, .step .chAlloc⟩]
          result := .res (.err (.cfgFail .chAlloc)) })
      ∧ (s.drawCfgFail = .pinCfg → exec .configure s = .next { s with
          chAlloc := true, fault := true, log := s.log ++ [⟨.host, .cfgFail, .step .pinCfg⟩]
          result := .res (.err (.cfgFail .pinCfg)) })
      ∧ (s.drawCfgFail = .drvInstall → exec .configure s = .next { s with
          chAlloc := true, pinCfg := true, stby := false, fault := true
          log := s.log ++ [⟨.host, .cfgFail, .step .drvInstall⟩], result := .res (.err (.cfgFail .drvInstall)) })
      ∧ (s.drawCfgFail = .alertCfg → exec .configure s = .next { s with
          chAlloc := true, pinCfg := true, stby := false, ctrl := .stopped
          drvCfg := ⟨false, s.params.timingProfile⟩, fault := true
          log := s.log ++ [⟨.host, .cfgFail, .step .alertCfg⟩], result := .res (.err (.cfgFail .alertCfg)) })
      ∧ (s.drawCfgFail = .drvStart → exec .configure s = .next { s with
          chAlloc := true, pinCfg := true, stby := false, ctrl := .stopped
          drvCfg := ⟨false, s.params.timingProfile⟩, alertEn := alertSet s.params.alertCount, fault := true
          log := s.log ++ [⟨.host, .cfgFail, .step .drvStart⟩], result := .res (.err (.cfgFail .drvStart)) })

/-- A second `CONFIGURE` (R100 corner cases (c) and (d), the spec's decision D13): no change after success, refused after
a failure and after `LAUNCH`. -/
def Obligations.ConfigureAgain : Prop :=
  (∀ (s : State), s.launched = false → s.cfgDone = true →
      exec .configure s = .next { s with result := .res .ok })
    ∧ (∀ (s : State), s.launched = true → exec .configure s = .refused .reconfigureAtRuntime)
    ∧ (∀ (s : State), s.launched = false → s.cfgDone = false → s.fault = true →
        exec .configure s = .refused .configureAfterFailure)

/-- R101: `RESTART` starts a stopped controller, by the environment's draw; in any other state it returns `Err(NotReady)`
and changes nothing (the spec's decision D11). -/
def Obligations.RestartReissuesStart : Prop :=
  (∀ (s : State), s.ctrl = .stopped → s.drawRestart = .ok →
      exec .restart s = .next { s with ctrl := .running, result := .res .ok })
    ∧ (∀ (s : State), s.ctrl = .stopped → s.drawRestart = .fail →
        exec .restart s = .next { s with result := .res (.err .fail) })
    ∧ (∀ (s : State), s.ctrl ≠ .stopped → exec .restart s = .next { s with result := .res (.err .notReady) })

/-- R102: `INIT_RECOVERY` starts the recovery of a controller in bus-off, by the environment's draw; in any other state,
also with a recovery outstanding, it returns `Err(NotReady)` and changes nothing (the spec's decision D11). -/
def Obligations.InitRecoveryIssuesCommand : Prop :=
  (∀ (s : State), s.ctrl = .busOff → s.drawRecovery = .ok →
      exec .initRecovery s = .next { s with ctrl := .recovering, result := .res .ok })
    ∧ (∀ (s : State), s.ctrl = .busOff → s.drawRecovery = .fail →
        exec .initRecovery s = .next { s with result := .res (.err .fail) })
    ∧ (∀ (s : State), s.ctrl ≠ .busOff → exec .initRecovery s = .next { s with result := .res (.err .notReady) })

/-- `RECEIVE` (R103): the drawn fault is reported first, then a controller that does not run, then the head of `HWQ` is
removed; on an empty queue it waits (log 4). -/
def Obligations.ReceiveTakesHead : Prop :=
  (∀ (s : State) (f : Frame) (rest : List Frame), s.drawRxFault = .noFault → s.ctrl = .running →
      s.hwq = f :: rest → exec .receive s = .next { s with hwq := rest, result := .received f })
    ∧ (∀ (s : State), s.drawRxFault = .noFault → s.ctrl = .running → s.hwq = [] →
        exec .receive s = .next { s with result := .blocked })
    ∧ (∀ (s : State), s.drawRxFault = .noFault → s.ctrl ≠ .running →
        exec .receive s = .next { s with result := .receiveFailed .notReady })
    ∧ (∀ (s : State), s.drawRxFault = .timeout →
        exec .receive s = .next { s with result := .receiveFailed .timeout })
    ∧ (∀ (s : State), s.drawRxFault = .fail → exec .receive s = .next { s with result := .receiveFailed .fail })

/-- `READ_STATUS` (R104): no state is written; the snapshot is the current value of `STATUS`, whatever it is. -/
def Obligations.ReadStatusHasNoEffect : Prop :=
  (∀ (s : State), s.ctrl ≠ .uninstalled → s.drawStatusFails = false →
      exec .readStatus s = .next { s with result := .statusRead (some s.status) })
    ∧ (∀ (s : State), s.ctrl = .uninstalled ∨ s.drawStatusFails = true →
        exec .readStatus s = .next { s with result := .statusRead none })

/-- `READ_ALERTS` (R105): the whole pending register is returned and cleared in the same step; it waits while nothing is
pending (log 4). -/
def Obligations.ReadAlertsClears : Prop :=
  (∀ (s : State), s.alertPend ≠ 0#7 →
      exec .readAlerts s = .next { s with alertPend := 0#7, result := .alerts s.alertPend })
    ∧ (∀ (s : State), s.alertPend = 0#7 → exec .readAlerts s = .next { s with result := .blocked })

/-! ## Fault Monitor -/

/-- `FM_WAIT` (R110): enabled exactly in `Wait` with an alert pending; elsewhere it waits (log 4). -/
def Obligations.FmWaitEntersDispatch : Prop :=
  (∀ (s : State), s.fmSeq = .wait → s.alertPend ≠ 0#7 →
      exec .fmWait s = .next { s with alertPend := 0#7, fmSeq := .dispatch s.alertPend, result := .unit })
    ∧ (∀ (s : State), s.fmSeq ≠ .wait ∨ s.alertPend = 0#7 → exec .fmWait s = .next { s with result := .blocked })

/-- In `Dispatch(m)` with `m` not zero exactly one handler is enabled, that of `next(m)`, and it clears its bit of `m`
(R112). The other handlers wait (log 4). The order the machine is reset with is R111's (the spec's decision D4), written
out here, and under it `next(m)` is the alert of `m` that stands first in it. -/
def Obligations.DispatchRunsOneHandler : Prop :=
  (∀ (s : State) (m : AlertMask), s.params.wf = true → s.fmSeq = .dispatch m → m ≠ 0#7 →
      ∃ a, nextAlert s.params m = some a ∧ s.params.alertBit.has m a = true
        ∧ (∃ t, exec a.handler s = .next t ∧ t.result = .unit
            ∧ t.fmSeq = if m &&& ~~~s.params.alertBit.mask a = 0#7 then .wait else .dispatch (m &&& ~~~s.params.alertBit.mask a))
        ∧ ∀ b, b ≠ a → exec b.handler s = .next s.waits)
    ∧ (∀ (s : State) (b : Alert), s.fmSeq = .idle ∨ s.fmSeq = .wait → exec b.handler s = .next s.waits)
    ∧ State.reset.params.alertOrder
        = [.dataAvail, .rxqFull, .busError, .errPassive, .arbLost, .busOff, .busRecovered]
    ∧ ∀ (s : State) (m : AlertMask) (a : Alert), s.params.alertOrder = State.reset.params.alertOrder →
        (nextAlert s.params m = some a ↔
          (s.params.alertBit.has m a = true ∧ ∀ b, s.params.alertBit.has m b = true →
            [Alert.dataAvail, .rxqFull, .busError, .errPassive, .arbLost, .busOff, .busRecovered].idxOf a
              ≤ [Alert.dataAvail, .rxqFull, .busError, .errPassive, .arbLost, .busOff, .busRecovered].idxOf b))

/-- R113-R117, the handlers without a state change, when they are the one enabled step: the data-available handler does
nothing, the RX-queue-full and arbitration-lost ones log, the two error handlers fetch the status, as `READ_STATUS` does,
and log what it gives. Each then clears its bit (R112's `done`); nothing else is written. -/
def Obligations.QuietHandlersLogOnly : Prop :=
  ∀ (s : State) (m : AlertMask), s.fmSeq = .dispatch m →
    (nextAlert s.params m = some .dataAvail →
        exec .hDataAvail s = .next { s with fmSeq := doneSeq s.params.alertBit m .dataAvail, result := .unit })
      ∧ (nextAlert s.params m = some .rxqFull →
          exec .hRxqFull s = .next { s with
            log := s.log ++ [⟨.fm, .rxqFull, .none⟩], fmSeq := doneSeq s.params.alertBit m .rxqFull, result := .unit })
      ∧ (nextAlert s.params m = some .arbLost →
          exec .hArbLost s = .next { s with
            log := s.log ++ [⟨.fm, .arbLost, .none⟩], fmSeq := doneSeq s.params.alertBit m .arbLost, result := .unit })
      ∧ (nextAlert s.params m = some .busError →
          ∃ r, exec .readStatus s = .next { s with result := .statusRead r }
            ∧ exec .hBusError s = .next { s with
                log := s.log ++ [⟨.fm, .busError, .status r⟩], fmSeq := doneSeq s.params.alertBit m .busError, result := .unit })
      ∧ (nextAlert s.params m = some .errPassive →
          ∃ r, exec .readStatus s = .next { s with result := .statusRead r }
            ∧ exec .hErrPassive s = .next { s with
                log := s.log ++ [⟨.fm, .errPassive, .status r⟩], fmSeq := doneSeq s.params.alertBit m .errPassive, result := .unit })
      ∧ ∀ a, doneSeq s.params.alertBit m a = if m &&& ~~~s.params.alertBit.mask a = 0#7 then .wait else .dispatch (m &&& ~~~s.params.alertBit.mask a)

/-- R118 (what is logged: the spec's decisions D24, D43): the recovery command is issued only if `BHS` is not already `Recovering`; on success `BHS` becomes
`Recovering`, on failure it stays `Normal` and the failure is logged. -/
def Obligations.BusOffStartsRecoveryOnce : Prop :=
  ∀ (s : State) (m : AlertMask), s.fmSeq = .dispatch m → nextAlert s.params m = some .busOff →
    (s.bhs = .normal → s.ctrl = .busOff → s.drawRecovery = .ok → exec .hBusOff s = .next { s with
        ctrl := .recovering, bhs := .recovering, log := s.log ++ [⟨.fm, .busOffRecoveryStarted, .none⟩]
        fmSeq := doneSeq s.params.alertBit m .busOff, result := .unit })
      ∧ (s.bhs = .normal → s.ctrl = .busOff → s.drawRecovery = .fail → exec .hBusOff s = .next { s with
          log := s.log ++ [⟨.fm, .recoveryInitFailed, .err .fail⟩], fmSeq := doneSeq s.params.alertBit m .busOff, result := .unit })
      ∧ (s.bhs = .normal → s.ctrl ≠ .busOff → exec .hBusOff s = .next { s with
          log := s.log ++ [⟨.fm, .recoveryInitFailed, .err .notReady⟩], fmSeq := doneSeq s.params.alertBit m .busOff
          result := .unit })
      ∧ (s.bhs = .recovering → exec .hBusOff s = .next { s with fmSeq := doneSeq s.params.alertBit m .busOff, result := .unit })

/-- R119: the controller is restarted only if `BHS` is `Recovering`; on success `BHS` becomes `Normal`, on failure it
stays `Recovering` and the failure is logged; in `Normal` the alert is logged at the lowest severity and ignored. -/
def Obligations.BusRecoveredRestartsController : Prop :=
  (LogCode.severity .spuriousRecovered = .debug ∧ ∀ v, Severity.rank .debug ≤ Severity.rank v)
  ∧ ∀ (s : State) (m : AlertMask), s.fmSeq = .dispatch m → nextAlert s.params m = some .busRecovered →
    (s.bhs = .recovering → s.ctrl = .stopped → s.drawRestart = .ok → exec .hBusRecovered s = .next { s with
        ctrl := .running, bhs := .normal, log := s.log ++ [⟨.fm, .busRecoveredRestarted, .none⟩]
        fmSeq := doneSeq s.params.alertBit m .busRecovered, result := .unit })
      ∧ (s.bhs = .recovering → s.ctrl = .stopped → s.drawRestart = .fail → exec .hBusRecovered s = .next { s with
          log := s.log ++ [⟨.fm, .restartFailed, .err .fail⟩], fmSeq := doneSeq s.params.alertBit m .busRecovered, result := .unit })
      ∧ (s.bhs = .recovering → s.ctrl ≠ .stopped → exec .hBusRecovered s = .next { s with
          log := s.log ++ [⟨.fm, .restartFailed, .err .notReady⟩], fmSeq := doneSeq s.params.alertBit m .busRecovered
          result := .unit })
      ∧ (s.bhs = .normal → exec .hBusRecovered s = .next { s with
          log := s.log ++ [⟨.fm, .spuriousRecovered, .none⟩], fmSeq := doneSeq s.params.alertBit m .busRecovered, result := .unit })

/-- The document's state-machine property (§8, E5 of spec/95_test_vectors.md; R120 items 1 and 2): from a running
controller in `Normal`, a bus-off, a second bus-off alert while `Recovering`, the recovery and its alert end in `Normal`
with the controller running, after exactly one recovery start and one restart, as the log shows; provided both calls
return `Ok`. -/
def Obligations.BusOffCycleEndsNormal : Prop :=
  ∀ (s : State), s.params.wf = true → s.fmSeq = .wait → s.bhs = .normal → s.ctrl = .running →
    s.alertEn = 0x7F#7 → s.alertPend = 0#7 → s.drawRecovery = .ok → s.drawRestart = .ok →
    ∃ t, execAll [.evBusOff, .fmWait, .hBusOff, .evAlert (s.params.alertBit.mask .busOff), .fmWait, .hBusOff, .evRecoveryDone,
        .fmWait, .hBusRecovered] s = .next t
      ∧ t.bhs = .normal ∧ t.ctrl = .running ∧ t.fmSeq = .wait ∧ t.alertPend = 0#7
      ∧ t.log = s.log ++ [⟨.fm, .busOffRecoveryStarted, .none⟩, ⟨.fm, .busRecoveredRestarted, .none⟩]

/-! ## Frame Channel -/

/-- R131, with the counting of R133 and the limiter of R134 (the spec's decisions D16, D17): a channel that is not full takes the frame at its tail; a full one rejects it, counts the drop up to
`DROP_MAX`, and warns if the window has elapsed since the last warning (which lies in the past, R47 item 9); an
unconstructed one refuses. `DROP_MAX` is `2^DROP_W - 1`, and `DROP_W` 32 (R5). -/
def Obligations.TryEnqueueAcceptsOrDrops : Prop :=
  (∀ (s : State) (tf : TimedFrame), s.chAlloc = true → s.q.length < s.params.capacity →
      exec (.tryEnqueue tf) s = .next { s with q := s.q ++ [tf], result := .accepted true })
    ∧ (∀ (s : State) (tf : TimedFrame), s.chAlloc = true → s.params.capacity ≤ s.q.length →
        s.lastWarn.toNat ≤ s.timeUs.toNat → s.timeUs.toNat - s.lastWarn.toNat < s.params.warnWindowUs →
        ∃ d : Nat, d = (if s.drop < 2 ^ s.params.dropWidth - 1 then s.drop + 1 else s.drop)
          ∧ exec (.tryEnqueue tf) s = .next { s with drop := d, result := .accepted false })
    ∧ (∀ (s : State) (tf : TimedFrame), s.chAlloc = true → s.params.capacity ≤ s.q.length →
        s.lastWarn.toNat ≤ s.timeUs.toNat → s.params.warnWindowUs ≤ s.timeUs.toNat - s.lastWarn.toNat →
        ∃ d : Nat, d = (if s.drop < 2 ^ s.params.dropWidth - 1 then s.drop + 1 else s.drop)
          ∧ exec (.tryEnqueue tf) s = .next { s with
              drop := d, log := s.log ++ [⟨.ing, .chanDrop, .drop d⟩], lastWarn := s.timeUs
              result := .accepted false })
    ∧ (∀ (s : State) (tf : TimedFrame), s.chAlloc = false →
        exec (.tryEnqueue tf) s = .refused .channelNotConstructed)
    ∧ State.reset.params.dropWidth = 32

/-- `DEQUEUE` (R132): the head, whatever the timeout; on an empty channel `None` for a poll and, by the draw
`deq_expired`, for a finite wait, and otherwise it waits (log 4). -/
def Obligations.DequeueTakesHead : Prop :=
  (∀ (s : State) (timeout : Timeout) (tf : TimedFrame) (rest : List TimedFrame), s.chAlloc = true →
      s.q = tf :: rest → exec (.dequeue timeout) s = .next { s with q := rest, result := .dequeued (some tf) })
    ∧ (∀ (s : State), s.chAlloc = true → s.q = [] →
        exec (.dequeue .forever) s = .next { s with result := .blocked })
    ∧ (∀ (s : State), s.chAlloc = true → s.q = [] →
        exec (.dequeue (.after 0#64)) s = .next { s with result := .dequeued none })
    ∧ (∀ (s : State) (us : Word64), s.chAlloc = true → s.q = [] → us ≠ 0#64 →
        exec (.dequeue (.after us)) s
          = .next { s with result := if s.drawDeqExpired = true then .dequeued none else .blocked })
    ∧ (∀ (s : State) (timeout : Timeout), s.chAlloc = false →
        exec (.dequeue timeout) s = .refused .channelNotConstructed)

/-- R130 (c), R133: but for `RESET`, no operation lowers `DROP`; it changes only by one, below `DROP_MAX`, in a
`TRY_ENQUEUE` (alone or in `ING_ENQ`) that found the channel full, and then the channel is unchanged. -/
def Obligations.DropCountsRejectionsOnly : Prop :=
  ∀ (i : Instr) (s t : State), exec i s = .next t → i ≠ .reset →
    s.drop ≤ t.drop
      ∧ (t.drop ≠ s.drop → t.drop = s.drop + 1 ∧ t.drop ≤ 2 ^ s.params.dropWidth - 1 ∧ t.q = s.q ∧ s.params.capacity ≤ s.q.length
          ∧ ((∃ tf, i = .tryEnqueue tf) ∨ (i = .ingEnq ∧ ∃ tf, s.ingSeq = .held tf)))

/-- R134: a channel-full warning is logged only when the window has elapsed since the last one, and it then moves the
marker to the present; the marker moves in no other way but by `RESET`. So two warnings are at least a window apart. -/
def Obligations.WarningsAreAWindowApart : Prop :=
  ∀ (i : Instr) (s t : State), exec i s = .next t → i ≠ .reset → s.lastWarn.toNat ≤ s.timeUs.toNat →
    ((t.log.filter (fun e => decide (e.code = .chanDrop))) = (s.log.filter (fun e => decide (e.code = .chanDrop)))
        ∧ t.lastWarn = s.lastWarn)
      ∨ ((t.log.filter (fun e => decide (e.code = .chanDrop)))
            = (s.log.filter (fun e => decide (e.code = .chanDrop))) ++ [⟨.ing, .chanDrop, .drop t.drop⟩]
          ∧ t.lastWarn = s.timeUs ∧ s.params.warnWindowUs ≤ s.timeUs.toNat - s.lastWarn.toNat)

/-- The overload law (R136; the spec marks it derived): of any number of enqueues into an empty channel the first `C`
are taken, in order, the rest rejected, and the drop counter grows by exactly the number rejected, short of
saturation; from a counter that fits its width, as it does in every state a run reaches (`StepKeepsComponentInvariants`). -/
def Obligations.OverloadLaw : Prop :=
  ∀ (s : State) (frames : List TimedFrame), s.chAlloc = true → s.q = [] → s.drop ≤ 2 ^ s.params.dropWidth - 1 →
    ∃ t, execAll (frames.map .tryEnqueue) s = .next t
      ∧ t.q = frames.take s.params.capacity
      ∧ t.drop = min (s.drop + (frames.length - s.params.capacity)) (2 ^ s.params.dropWidth - 1)
      ∧ t.hwq = s.hwq ∧ t.bhs = s.bhs ∧ t.fault = s.fault ∧ t.ingSeq = s.ingSeq ∧ t.egrSeq = s.egrSeq
      ∧ t.fmSeq = s.fmSeq ∧ t.tx = s.tx ∧ t.ctrl = s.ctrl

/-- The FIFO law (R71; the spec marks it derived): frames enqueued while there is room come out in the order they went
in, after those that were there. -/
def Obligations.FifoLaw : Prop :=
  ∀ (s : State) (frames : List TimedFrame) (timeout : Timeout) (k : Nat), s.chAlloc = true →
    s.q.length + frames.length ≤ s.params.capacity → 0 < k → k ≤ s.q.length + frames.length →
    ∃ t, execAll (frames.map .tryEnqueue ++ List.replicate k (.dequeue timeout)) s = .next t
      ∧ t.q = (s.q ++ frames).drop k ∧ t.result = .dequeued (s.q ++ frames)[k - 1]? ∧ t.drop = s.drop

/-- The ring of R62 refines the abstract queue: a ring after reset is empty, a push on a ring that is not full appends,
a pop removes the head, and both keep the ring's invariant. -/
def Obligations.RingRefinesQueue : Prop :=
  ∀ (r : QueueRing TimedFrame),
    (∀ slots : List TimedFrame, 1 ≤ slots.length → (QueueRing.atReset slots).wf = true ∧ (QueueRing.atReset slots).queue = [])
      ∧ (r.wf = true → r.queue.length = r.count)
      ∧ (∀ tf, r.wf = true → r.count < r.slots.length →
          (r.push tf).wf = true ∧ (r.push tf).queue = push r.queue tf)
      ∧ (r.wf = true → r.count = 0 → r.pop = none ∧ r.queue = [])
      ∧ (r.wf = true → 0 < r.count →
          ∃ tf r', r.pop = some (tf, r') ∧ r'.wf = true ∧ pop r.queue = some (tf, r'.queue))

/-! ## Ingress -/

/-- `ING_RECV` in `Recv` (R150): a received frame is stamped with the present and held; a not-ready result is logged once
and backs off; any other error is logged and retried at once; with nothing to receive, or in another state of the
sequencer, it waits (log 4). -/
def Obligations.IngRecvStampsOrBacksOff : Prop :=
  (∀ (s : State) (f : Frame) (rest : List Frame), s.ingSeq = .recv → s.drawRxFault = .noFault → s.ctrl = .running →
      s.hwq = f :: rest → exec .ingRecv s = .next { s with
        hwq := rest, nrLogged := false, ingSeq := .held ⟨s.timeUs, f⟩, result := .unit })
    ∧ (∀ (s : State), s.ingSeq = .recv → s.drawRxFault = .noFault → s.ctrl ≠ .running → s.nrLogged = false →
        exec .ingRecv s = .next { s with
          log := s.log ++ [⟨.ing, .rxNotReady, .bhs s.bhs⟩], nrLogged := true
          ingSeq := .backoff (s.timeUs.toNat + s.params.backoffUs), result := .unit })
    ∧ (∀ (s : State), s.ingSeq = .recv → s.drawRxFault = .noFault → s.ctrl ≠ .running → s.nrLogged = true →
        exec .ingRecv s = .next { s with
          ingSeq := .backoff (s.timeUs.toNat + s.params.backoffUs), result := .unit })
    ∧ (∀ (s : State), s.ingSeq = .recv → s.drawRxFault = .timeout → exec .ingRecv s = .next { s with
        log := s.log ++ [⟨.ing, .rxError, .err .timeout⟩], result := .unit })
    ∧ (∀ (s : State), s.ingSeq = .recv → s.drawRxFault = .fail → exec .ingRecv s = .next { s with
        log := s.log ++ [⟨.ing, .rxError, .err .fail⟩], result := .unit })
    ∧ (∀ (s : State), s.ingSeq = .recv → s.drawRxFault = .noFault → s.ctrl = .running → s.hwq = [] →
        exec .ingRecv s = .next { s with result := .blocked })
    ∧ (∀ (s : State), s.ingSeq ≠ .recv → exec .ingRecv s = .next { s with result := .blocked })

/-- R151: the held frame is offered to the channel and the Ingress goes back to `Recv` whether or not it was taken; on a
full channel the frame is gone, and only the channel counts and may warn; a channel that is not constructed refuses, as
`TRY_ENQUEUE` does. -/
def Obligations.IngEnqOffersHeldFrame : Prop :=
  (∀ (s : State) (tf : TimedFrame), s.ingSeq = .held tf → s.chAlloc = true → s.q.length < s.params.capacity →
      exec .ingEnq s = .next { s with q := s.q ++ [tf], ingSeq := .recv, result := .unit })
    ∧ (∀ (s : State) (tf : TimedFrame), s.ingSeq = .held tf → s.chAlloc = true → s.params.capacity ≤ s.q.length →
        ∃ t u, exec (.tryEnqueue tf) s = .next t ∧ exec .ingEnq s = .next u
          ∧ u = { t with ingSeq := .recv, result := .unit } ∧ u.q = s.q
          ∧ u.drop = if s.drop < 2 ^ s.params.dropWidth - 1 then s.drop + 1 else s.drop)
    ∧ (∀ (s : State) (tf : TimedFrame), s.ingSeq = .held tf → s.chAlloc = false →
        exec .ingEnq s = .refused .channelNotConstructed)

/-- `ING_WAKE` (R152): the end of the back-off, once its deadline has come; before that, and elsewhere, it waits
(log 4). -/
def Obligations.IngWakeEndsBackoff : Prop :=
  (∀ (s : State) (wake : Nat), s.ingSeq = .backoff wake → wake ≤ s.timeUs.toNat →
      exec .ingWake s = .next { s with ingSeq := .recv, result := .unit })
    ∧ (∀ (s : State) (wake : Nat), s.ingSeq = .backoff wake → s.timeUs.toNat < wake →
        exec .ingWake s = .next { s with result := .blocked })
    ∧ (∀ (s : State), (∀ wake, s.ingSeq ≠ .backoff wake) → exec .ingWake s = .next { s with result := .blocked })

/-! ## Encoder -/

/-- R94 (`true`: the spec's decision D30): `DEC` is the decimal numeral of a `u64` with no leading zero, and `DEC(0)` is
`0`; all 32 bits of an identifier are printed; `BOOL` is `false` or `true`; `HEX2` is the digit of `b[7:4]`, then that of
`b[3:0]`, `0-9` then upper-case `A-F`. -/
def Obligations.RenderingFunctions : Prop :=
  (∀ n : Nat, n < 2 ^ 64 →
      (∀ c ∈ dec n, 0x30 ≤ c.toNat ∧ c.toNat ≤ 0x39)
        ∧ (dec n).foldl (fun v c => 10 * v + (c.toNat - 0x30)) 0 = n
        ∧ (n ≠ 0 → ∃ c rest, dec n = c :: rest ∧ c ≠ 0x30#8))
    ∧ dec 0 = [0x30#8]
    ∧ (∀ (payloadMax : Fin 9) (tf : TimedFrame), ∃ rest,
        record payloadMax tf = [0x7B#8, 0x22#8, 0x74#8, 0x79#8, 0x70#8, 0x65#8, 0x22#8, 0x3A#8, 0x22#8, 0x63#8, 0x61#8, 0x6E#8,
           0x22#8, 0x2C#8, 0x22#8, 0x74#8, 0x73#8, 0x5F#8, 0x75#8, 0x73#8, 0x22#8, 0x3A#8]
          ++ (dec tf.ts.toNat ++ ([0x2C#8, 0x22#8, 0x69#8, 0x64#8, 0x22#8, 0x3A#8] ++ (dec tf.frame.id.toNat ++ rest))))
    ∧ boolText false = [0x66#8, 0x61#8, 0x6C#8, 0x73#8, 0x65#8] ∧ boolText true = [0x74#8, 0x72#8, 0x75#8, 0x65#8]
    ∧ ∀ b : Byte, (hex2 b).map some
        = [(b.extractLsb' 4 4).toNat, (b.extractLsb' 0 4).toNat].map (fun n =>
            [0x30#8, 0x31#8, 0x32#8, 0x33#8, 0x34#8, 0x35#8, 0x36#8, 0x37#8, 0x38#8, 0x39#8, 0x41#8, 0x42#8, 0x43#8,
              0x44#8, 0x45#8, 0x46#8][n]?)

/-- The record byte for byte (R93, R161), and its shape (R166 (a) to (c); the spec marks the bounds and R166 derived): it
is R93's literal text, character by character in ASCII, with the renderings of R94 in its seven places; its length is the fixed text plus the renderings, the payload taking
`2 * min(dlc, 8)` characters, at least 72 and at most 118 bytes; its only newline is its last byte, every other byte is
printable, and a `dlc` above 8 is rendered as 8. The 8 is `PAYLOAD_MAX` (R5), for which any number up to 8 may stand. -/
def Obligations.RecordShape : Prop :=
  State.reset.params.payloadMax = 8 ∧ ∀ (payloadMax : Fin 9) (tf : TimedFrame),
    record payloadMax tf
        = [0x7B#8, 0x22#8, 0x74#8, 0x79#8, 0x70#8, 0x65#8, 0x22#8, 0x3A#8, 0x22#8, 0x63#8, 0x61#8, 0x6E#8,
           0x22#8, 0x2C#8, 0x22#8, 0x74#8, 0x73#8, 0x5F#8, 0x75#8, 0x73#8, 0x22#8, 0x3A#8]
          ++ dec tf.ts.toNat
          ++ [0x2C#8, 0x22#8, 0x69#8, 0x64#8, 0x22#8, 0x3A#8] ++ dec tf.frame.id.toNat
          ++ [0x2C#8, 0x22#8, 0x65#8, 0x78#8, 0x74#8, 0x22#8, 0x3A#8] ++ boolText tf.frame.ext
          ++ [0x2C#8, 0x22#8, 0x72#8, 0x74#8, 0x72#8, 0x22#8, 0x3A#8] ++ boolText tf.frame.rtr
          ++ [0x2C#8, 0x22#8, 0x64#8, 0x6C#8, 0x63#8, 0x22#8, 0x3A#8]
          ++ [BitVec.ofNat 8 (0x30 + min tf.frame.dlc.toNat payloadMax.val)]
          ++ [0x2C#8, 0x22#8, 0x64#8, 0x61#8, 0x74#8, 0x61#8, 0x22#8, 0x3A#8, 0x22#8]
          ++ (tf.frame.data.toList.take (min tf.frame.dlc.toNat payloadMax.val)).flatMap hex2
          ++ [0x22#8, 0x7D#8, 0x0A#8]
      ∧ ((record payloadMax tf).length = 61 + (dec tf.ts.toNat).length + (dec tf.frame.id.toNat).length
        + (boolText tf.frame.ext).length + (boolText tf.frame.rtr).length + 1
        + 2 * min tf.frame.dlc.toNat payloadMax.val
      ∧ 72 ≤ (record payloadMax tf).length ∧ (record payloadMax tf).length ≤ 102 + 2 * payloadMax.val
      ∧ (record payloadMax tf).length ≤ 118)
      ∧ (∃ line, record payloadMax tf = line ++ [0x0A#8] ∧ ∀ c ∈ line, 0x22 ≤ c.toNat ∧ c.toNat ≤ 0x7D)
      ∧ (payloadMax.val < tf.frame.dlc.toNat →
          record payloadMax tf = record payloadMax { tf with
            frame := { tf.frame with dlc := BitVec.ofNat 8 payloadMax.val } })

/-- R166 (d) (the spec marks it derived): the record determines the timestamp, the identifier, the two flags, the clamped
data length and the payload bytes below it. -/
def Obligations.RecordIsInjective : Prop :=
  ∀ (payloadMax : Fin 9) (tf tf' : TimedFrame), record payloadMax tf = record payloadMax tf' →
    tf.ts = tf'.ts ∧ tf.frame.id = tf'.frame.id ∧ tf.frame.ext = tf'.frame.ext ∧ tf.frame.rtr = tf'.frame.rtr
      ∧ min tf.frame.dlc.toNat payloadMax.val = min tf'.frame.dlc.toNat payloadMax.val
      ∧ tf.frame.data.toList.take (min tf.frame.dlc.toNat payloadMax.val)
          = tf'.frame.data.toList.take (min tf'.frame.dlc.toNat payloadMax.val)

/-- `ENCODE` (R160, R163-R165): `n` is 0 for a null frame or a null buffer and `min(L, cap)` otherwise; byte `i` of the
record is at index `i` of `OUTBUF` for every `i < n` that the buffer has; every other byte is as it was; nothing else
changes. That a byte at or beyond `OUT_CAP` lands nowhere is the model's choice (log 11). -/
def Obligations.EncodeWritesRecord : Prop :=
  ∀ (valid : Bool) (tf : TimedFrame) (cap : Word32) (s : State),
    ∃ (n : Nat) (m : Memory),
      n = (if valid = false ∨ cap = 0#32 then 0 else min (record s.params.payloadMax tf).length cap.toNat)
        ∧ exec (.encodeFrame valid tf cap) s
            = .next { s with outbuf := m, result := .length (BitVec.ofNat 32 n) }
        ∧ (∀ i, i < n → i < s.params.outCap → Memory.read? m i = (record s.params.payloadMax tf)[i]?)
        ∧ (∀ i, n ≤ i ∨ s.params.outCap ≤ i → Memory.read? m i = Memory.read? s.outbuf i)

/-! ## Egress -/

/-- `EGR_DEQ` (R170): the head of the channel is held; on an empty channel, or in another state of the sequencer, it waits
(log 4); a channel that is not constructed refuses, as `DEQUEUE` does. -/
def Obligations.EgrDeqHoldsHead : Prop :=
  (∀ (s : State) (tf : TimedFrame) (rest : List TimedFrame), s.egrSeq = .deq → s.chAlloc = true → s.q = tf :: rest →
      exec .egrDeq s = .next { s with q := rest, egrSeq := .held tf, result := .unit })
    ∧ (∀ (s : State), s.egrSeq = .deq → s.chAlloc = true → s.q = [] →
        exec .egrDeq s = .next { s with result := .blocked })
    ∧ (∀ (s : State), s.egrSeq ≠ .deq → exec .egrDeq s = .next { s with result := .blocked })
    ∧ (∀ (s : State), s.egrSeq = .deq → s.chAlloc = false → exec .egrDeq s = .refused .channelNotConstructed)

/-- R171: the held frame is encoded into `OUTBUF` (the bytes below the buffer's end and the record's, as `ENCODE` stores
them) and those bytes are written, capped to the buffer size; the frame is consumed whatever happens; with `OUT_CAP = 0`
nothing is written. -/
def Obligations.EgrEmitWritesRecord : Prop :=
  ∀ (s : State) (tf : TimedFrame), s.egrSeq = .held tf →
    ∃ m : Memory,
      (∀ i, i < min (record s.params.payloadMax tf).length s.params.outCap → Memory.read? m i = (record s.params.payloadMax tf)[i]?)
        ∧ (∀ i, min (record s.params.payloadMax tf).length s.params.outCap ≤ i → Memory.read? m i = Memory.read? s.outbuf i)
        ∧ (0 < s.params.outCap → s.drawTxOk = true → exec .egrEmit s = .next { s with
            outbuf := m, tx := s.tx ++ (record s.params.payloadMax tf).take s.params.outCap, egrSeq := .deq, result := .unit })
        ∧ (0 < s.params.outCap → s.drawTxOk = false → exec .egrEmit s = .next { s with
            outbuf := m, log := s.log ++ [⟨.egr, .transportSetupFailed, .none⟩], egrSeq := .deq, result := .unit })
        ∧ (s.params.outCap = 0 → exec .egrEmit s = .next { s with egrSeq := .deq, result := .unit })

/-- R172 (the spec's decision D31): all the bytes are appended to `TX`, or none and the failure is logged, by the draw
`tx_ok`. That an empty byte string, which R172 excludes, is written in the same way is the model's choice (log 12). -/
def Obligations.TransportWriteAllOrNothing : Prop :=
  (∀ (s : State) (bytes : List Byte), s.drawTxOk = true →
      exec (.transportWrite bytes) s = .next { s with tx := s.tx ++ bytes, result := .unit })
    ∧ (∀ (s : State) (bytes : List Byte), s.drawTxOk = false →
        exec (.transportWrite bytes) s = .next { s with
          log := s.log ++ [⟨.egr, .transportSetupFailed, .none⟩], result := .unit })

/-! ## Environment -/

/-- R180 (the spec's decision D9): a frame that `FILT` and the filter let through is appended to `HWQ` and raises `DATA_AVAIL`, or is lost on a
full queue and raises `RXQ_FULL`; one they do not has no effect; the filter this hardware has is accept-all, which lets
every frame through. Raising an alert that is not enabled changes nothing. -/
def Obligations.FrameArrivalQueuesOrIsLost : Prop :=
  (∀ (s : State) (f : Frame), s.ctrl = .running → s.hwq.length < s.params.hwqDepth →
      exec (.evFrame f) s = .next (if s.drvCfg.filt = true ∧ s.params.filter.accepts f = false then { s with result := .unit }
        else { s with
          hwq := s.hwq ++ [f], alertPend := s.alertPend ||| (s.params.alertBit.mask .dataAvail &&& s.alertEn), result := .unit }))
    ∧ (∀ (s : State) (f : Frame), s.ctrl = .running → s.params.hwqDepth ≤ s.hwq.length →
        exec (.evFrame f) s = .next (if s.drvCfg.filt = true ∧ s.params.filter.accepts f = false then { s with result := .unit }
          else { s with
            alertPend := s.alertPend ||| (s.params.alertBit.mask .rxqFull &&& s.alertEn), result := .unit }))
    ∧ State.reset.params.filter = .acceptAll ∧ ∀ f, AcceptFilter.acceptAll.accepts f = true

/-- R181 (the spec's decision D40): while the controller runs it may enter bus-off, and raises the alert. -/
def Obligations.BusOffEventStopsCapture : Prop :=
  ∀ (s : State), s.ctrl = .running → exec .evBusOff s = .next { s with
    ctrl := .busOff, alertPend := s.alertPend ||| (s.params.alertBit.mask .busOff &&& s.alertEn), result := .unit }

/-- R182 (the spec's decisions D7, D10): the recovery ends in a stopped controller and raises the alert; `HWQ` is kept or
flushed by the parameter. -/
def Obligations.RecoveryDoneStopsController : Prop :=
  (∀ (s : State), s.ctrl = .recovering → s.params.hwqOnRecovery = .preserve → exec .evRecoveryDone s = .next { s with
      ctrl := .stopped, alertPend := s.alertPend ||| (s.params.alertBit.mask .busRecovered &&& s.alertEn), result := .unit })
    ∧ (∀ (s : State), s.ctrl = .recovering → s.params.hwqOnRecovery = .flush → exec .evRecoveryDone s = .next { s with
        ctrl := .stopped, hwq := [], alertPend := s.alertPend ||| (s.params.alertBit.mask .busRecovered &&& s.alertEn)
        result := .unit })

/-- R183, R203 (the spec's decisions D5, D34, D39): each alert of the mask that is enabled becomes pending, a pending one stays pending, and a disabled one is
lost. -/
def Obligations.AlertEventLatchesEnabled : Prop :=
  ∀ (s : State) (mask : AlertMask), s.ctrl ≠ .uninstalled →
    exec (.evAlert mask) s = .next { s with
      alertPend := s.alertPend ||| (mask &&& s.alertEn), result := .unit }

/-- R184 (the spec's decision D38): the clock goes to `t`, which is not before the present, and nothing else changes. -/
def Obligations.ClockAdvances : Prop :=
  ∀ (s : State) (t : Word64), s.timeUs.toNat ≤ t.toNat →
    exec (.evTime t) s = .next { s with timeUs := t, result := .unit }

/-- An event whose precondition fails (R180-R184), and a step of the Ingress or the Egress in another state of its
sequencer (R151, R171), is not enabled: it changes no state of the block, and the clock never goes back. That the model
answers such a step with `blocked` is its own form (log 4). -/
def Obligations.OperationsOutsidePreconditionWait : Prop :=
  (∀ (s : State) (f : Frame), s.ctrl ≠ .running → exec (.evFrame f) s = .next { s with result := .blocked })
    ∧ (∀ (s : State), s.ctrl ≠ .running → exec .evBusOff s = .next { s with result := .blocked })
    ∧ (∀ (s : State), s.ctrl ≠ .recovering → exec .evRecoveryDone s = .next { s with result := .blocked })
    ∧ (∀ (s : State) (mask : AlertMask), s.ctrl = .uninstalled →
        exec (.evAlert mask) s = .next { s with result := .blocked })
    ∧ (∀ (s : State) (t : Word64), t.toNat < s.timeUs.toNat →
        exec (.evTime t) s = .next { s with result := .blocked })
    ∧ (∀ (s : State), (∀ tf, s.ingSeq ≠ .held tf) → exec .ingEnq s = .next { s with result := .blocked })
    ∧ (∀ (s : State), (∀ tf, s.egrSeq ≠ .held tf) → exec .egrEmit s = .next { s with result := .blocked })

/-! ## Registers -/

/-- The numbered registers of R34 (the spec's decisions D15, D41), each reading its element: `CTRL` and `BHS` by their
codes, `DRVCFG` by its fields with `MODE` hard-wired to listen-only, `FLAGS` bit by bit with the reserved bits 0, the
counts as the lengths of the queues; `IRQ` is high exactly while an alert is pending (R39). The handler of the alert that
has bit `i` when the machine is reset, R87's numbering, has command word `0x21 + i` (R83). That SR9 to SR14 and `TIMING` read as data and not as words is the model's reading
(log 17). -/
def Obligations.RegistersReadAsWords : Prop :=
  (∀ s : State,
      s.sr0 = (match s.ctrl with
        | .uninstalled => 0#3 | .stopped => 1#3 | .running => 2#3 | .busOff => 3#3 | .recovering => 4#3)
      ∧ s.mode = 1#1 ∧ s.sr1 = (1#1, if s.drvCfg.filt = true then 1#1 else 0#1, s.drvCfg.timing)
      ∧ s.sr2 = s.alertEn ∧ s.sr3 = s.alertPend
      ∧ s.sr4 = (match s.bhs with | .normal => 0#1 | .recovering => 1#1)
      ∧ s.sr5 = (if s.fault = true then 1#1 else 0#1)
      ∧ s.sr6.getLsbD 0 = s.cfgDone ∧ s.sr6.getLsbD 1 = s.launched ∧ s.sr6.getLsbD 2 = s.pinCfg
      ∧ s.sr6.getLsbD 3 = s.stby ∧ s.sr6.getLsbD 4 = s.chAlloc ∧ s.sr6.getLsbD 5 = s.nrLogged
      ∧ s.sr6.getLsbD 6 = false ∧ s.sr6.getLsbD 7 = false
      ∧ (s.drop < 2 ^ s.params.dropWidth → s.sr7.toNat = s.drop) ∧ s.sr8 = s.lastWarn ∧ s.sr9 = s.q.length ∧ s.sr10 = s.hwq.length
      ∧ s.sr11 = s.fmSeq ∧ s.sr12 = s.ingSeq ∧ s.sr13 = s.egrSeq ∧ s.sr14 = s.status ∧ s.sr15 = s.timeUs
      ∧ (s.irq = true ↔ s.alertPend ≠ 0#7))
    ∧ ∀ a : Alert, (commandWord a.handler).toNat = 0x21 + (State.reset.params.alertBit.bit a).val

/-! ## Whole-machine rules -/

/-- The invariants of R47 that every step keeps, of any issuer, from any state that has them (the spec marks R47
derived); and that every frame and time held fits the widths of R5 (the form of that is the model's, log 8). -/
def Obligations.StepKeepsComponentInvariants : Prop :=
  (∀ s t : State, ComponentInv s → step s = .next t → ComponentInv t)
    ∧ ∀ s t : State, FieldsFit s → step s = .next t → FieldsFit t

/-- In a whole-block run every step keeps R47's invariants on the setup and the alert set too, and the run stays one (the
spec marks R47 derived). -/
def Obligations.WholeBlockStepKeepsAlertSet : Prop :=
  ∀ s t : State, WholeBlock s → ComponentInv s → AlertsInstalled s → step s = .next t →
    WholeBlock t ∧ AlertsInstalled t

/-- In a whole-block run every step keeps the captured frames in order of capture, from the Egress to the Ingress, with no
timestamp in the future (R47 item 7, R135; the spec marks them derived). -/
def Obligations.WholeBlockStepKeepsCaptureOrder : Prop :=
  ∀ s t : State, WholeBlock s → CaptureOrdered s → step s = .next t → CaptureOrdered t

/-- No silent corruption (R173 (b), R252): in a whole-block run with room for the longest record, what the transport was
given is a sequence of whole records, and every step keeps it so. -/
def Obligations.WholeBlockStepKeepsRecordsWhole : Prop :=
  ∀ s t : State, WholeBlock s → 118 ≤ s.params.outCap → TxIsRecords s → step s = .next t → TxIsRecords t

/-- The reset state has every one of these invariants. -/
def Obligations.ResetStateHasInvariants : Prop :=
  ComponentInv State.reset ∧ FieldsFit State.reset ∧ AlertsInstalled State.reset ∧ CaptureOrdered State.reset ∧ TxIsRecords State.reset
    ∧ WholeBlock State.reset

/-- R28, R35: `BHS` changes only in the handlers of bus-off and bus-recovered, as the controller starts its recovery or is
restarted; `CTRL` changes only by the transitions of R35's table; `RESET` apart. -/
def Obligations.HealthAndControllerTransitions : Prop :=
  ∀ (i : Instr) (s t : State), ComponentInv s → exec i s = .next t → i ≠ .reset →
    (t.bhs ≠ s.bhs →
        (i = .hBusOff ∧ s.bhs = .normal ∧ t.bhs = .recovering ∧ s.ctrl = .busOff ∧ t.ctrl = .recovering)
          ∨ (i = .hBusRecovered ∧ s.bhs = .recovering ∧ t.bhs = .normal ∧ s.ctrl = .stopped ∧ t.ctrl = .running))
      ∧ (t.ctrl ≠ s.ctrl →
          (i = .configure ∧ s.ctrl = .uninstalled ∧ (t.ctrl = .stopped ∨ t.ctrl = .running))
            ∨ ((i = .restart ∨ i = .hBusRecovered) ∧ s.ctrl = .stopped ∧ t.ctrl = .running)
            ∨ (i = .evBusOff ∧ s.ctrl = .running ∧ t.ctrl = .busOff)
            ∨ ((i = .initRecovery ∨ i = .hBusOff) ∧ s.ctrl = .busOff ∧ t.ctrl = .recovering)
            ∨ (i = .evRecoveryDone ∧ s.ctrl = .recovering ∧ t.ctrl = .stopped))

/-- The single-owner discipline (R107, R120 item 6, R153 (d), R173 (e), R185, R220; the spec's decision D42): what the
operations of each agent leave alone, the driver configuration, the alert set, the pins and the setup flags, which only
`CONFIGURE` writes, and what each operation of the Peripheral Controller leaves alone (R107), also when it is issued by
itself. -/
def Obligations.AgentsWriteOnlyTheirOwn : Prop :=
  ∀ (i : Instr) (s t : State), exec i s = .next t → i ≠ .reset →
    (t.bhs = s.bhs ∨ i.owner = .fm)
      ∧ (t.fmSeq = s.fmSeq ∨ i.owner = .fm ∨ i = .launch) ∧ (t.ingSeq = s.ingSeq ∨ i.owner = .ing ∨ i = .launch)
      ∧ (t.egrSeq = s.egrSeq ∨ i.owner = .egr ∨ i = .launch)
      ∧ (t.q = s.q ∨ i.owner = .ing ∨ i.owner = .egr)
      ∧ (i.owner = .ing → t.q = s.q ∨ ∃ tf, t.q = s.q ++ [tf]) ∧ (i.owner = .egr → t.q = s.q ∨ t.q = s.q.tail)
      ∧ (t.hwq = s.hwq ∨ i.owner = .ing ∨ i.owner = .env) ∧ (i.owner = .ing → t.hwq = s.hwq ∨ t.hwq = s.hwq.tail)
      ∧ (t.alertPend = s.alertPend ∨ i.owner = .env ∨ i.owner = .fm)
      ∧ (i.owner = .env → s.alertPend ||| t.alertPend = t.alertPend)
      ∧ (i.owner = .fm → t.alertPend = s.alertPend ∨ t.alertPend = 0#7)
      ∧ (t.tx = s.tx ∨ i.owner = .egr) ∧ (t.outbuf = s.outbuf ∨ i.owner = .egr)
      ∧ (t.drop = s.drop ∨ i.owner = .ing) ∧ (t.lastWarn = s.lastWarn ∨ i.owner = .ing)
      ∧ (t.nrLogged = s.nrLogged ∨ i.owner = .ing)
      ∧ (t.timeUs = s.timeUs ∨ i.owner = .env) ∧ (t.ctrl = s.ctrl ∨ i.owner = .host ∨ i.owner = .fm ∨ i.owner = .env)
      ∧ (t.fault = s.fault ∨ i = .configure) ∧ (t.cfgDone = s.cfgDone ∨ i = .configure)
      ∧ (t.launched = s.launched ∨ i = .launch)
      ∧ (i ≠ .configure → t.drvCfg = s.drvCfg ∧ t.alertEn = s.alertEn ∧ t.pinCfg = s.pinCfg ∧ t.stby = s.stby
          ∧ t.chAlloc = s.chAlloc)
      ∧ (i = .configure ∨ i = .restart ∨ i = .initRecovery ∨ i = .receive ∨ i = .readStatus ∨ i = .readAlerts →
          t.bhs = s.bhs ∧ t.q = s.q ∧ t.drop = s.drop ∧ t.lastWarn = s.lastWarn ∧ t.fmSeq = s.fmSeq
            ∧ t.ingSeq = s.ingSeq ∧ t.egrSeq = s.egrSeq ∧ t.nrLogged = s.nrLogged ∧ t.launched = s.launched
            ∧ t.timeUs = s.timeUs ∧ t.tx = s.tx ∧ t.outbuf = s.outbuf
            ∧ (t.log = s.log ∨ i = .configure)
            ∧ (t.ctrl = s.ctrl ∨ i = .configure ∨ i = .restart ∨ i = .initRecovery)
            ∧ (t.hwq = s.hwq ∨ i = .receive) ∧ (t.alertPend = s.alertPend ∨ i = .readAlerts))
      ∧ t.params = s.params ∧ t.pending = s.pending ∧ t.status = s.status

/-- The configuration is frozen (R76, R253): once a `CONFIGURE` has returned `Ok`, no operation but `RESET` changes the
driver configuration, the alert set, the pins, the channel's construction or the flag itself; and no operation at all
changes a parameter (R188). -/
def Obligations.ConfigurationIsFrozen : Prop :=
  ∀ (i : Instr) (s t : State), exec i s = .next t →
    t.params = s.params
      ∧ (s.cfgDone = true → i ≠ .reset →
          t.drvCfg = s.drvCfg ∧ t.alertEn = s.alertEn ∧ t.pinCfg = s.pinCfg ∧ t.stby = s.stby
            ∧ t.chAlloc = s.chAlloc ∧ t.cfgDone = true ∧ t.fault = s.fault)

/-- `LOG` and `TX` are append-only streams (R22, R23): but for `RESET`, an operation only adds at their ends, to `LOG`
only events of the agent that owns the operation (R91, R224), at most one. -/
def Obligations.StreamsAreAppendOnly : Prop :=
  ∀ (i : Instr) (s t : State), exec i s = .next t → i ≠ .reset →
    (t.log = s.log ∨ ∃ code payload, t.log = s.log ++ [⟨i.owner, code, payload⟩])
      ∧ ∃ bytes, t.tx = s.tx ++ bytes

/-- R200, R202: no operation traps, and an operation is refused in exactly the situations of the first five of the seven
rows of R202's table; the other two, a reserved encoding and a wrong issuer, are refusals of the step before any
operation is executed (`ReservedEncodingsRefused`, `WrongIssuerRefused`), and so they are reported before these five where
a record meets both, which is the model's choice (log 33). That `ING_ENQ` and `EGR_DEQ` on a channel that
is not constructed are refused only in the sequencer's state in which they act, and wait elsewhere, is the model's choice
(log 21). -/
def Obligations.NoTrapAndRefusalsExactly : Prop :=
  ∀ (i : Instr) (s : State),
    (∀ r, exec i s ≠ .fault r)
      ∧ ∀ r, exec i s = .refused r ↔
          ((i = .configure ∧ s.launched = true ∧ r = .reconfigureAtRuntime)
            ∨ (i = .configure ∧ s.launched = false ∧ s.cfgDone = false ∧ s.fault = true ∧ r = .configureAfterFailure)
            ∨ (i = .launch ∧ s.cfgDone = false ∧ r = .launchWithoutConfigure)
            ∨ (i = .launch ∧ s.cfgDone = true ∧ s.launched = true ∧ r = .launchTwice)
            ∨ (s.chAlloc = false ∧ r = .channelNotConstructed
                ∧ ((∃ tf, i = .tryEnqueue tf) ∨ (∃ timeout, i = .dequeue timeout)
                  ∨ (i = .ingEnq ∧ ∃ tf, s.ingSeq = .held tf) ∨ (i = .egrDeq ∧ s.egrSeq = .deq))))

/-- R246: what ends each state the block cannot leave by itself, for a block whose tasks run: after a failed start of the
recovery only `H_BUS_OFF` (or its inner call) does, during a recovery only `EV_RECOVERY_DONE`, after a failed restart only
`H_BUS_RECOVERED` (or its inner call); and `FAULT` stays set; always `RESET` apart. -/
def Obligations.DegradedStatesPersist : Prop :=
  ∀ (i : Instr) (s t : State), exec i s = .next t → i ≠ .reset →
    (s.launched = true → s.ctrl = .busOff → s.bhs = .normal → i ≠ .hBusOff → i ≠ .initRecovery →
        t.ctrl = .busOff ∧ t.bhs = .normal)
      ∧ (s.launched = true → s.ctrl = .recovering → s.bhs = .recovering → i ≠ .evRecoveryDone →
          t.ctrl = .recovering ∧ t.bhs = .recovering)
      ∧ (s.launched = true → s.ctrl = .stopped → s.bhs = .recovering → i ≠ .hBusRecovered → i ≠ .restart →
          t.ctrl = .stopped ∧ t.bhs = .recovering)
      ∧ (s.fault = true → t.fault = true)

/-- The end of a run (R255, the spec's decision D36; R201). In a quiescent state, R255's (a) to (c), the step each task's
sequencer allows is not enabled, as long as no receive fault is drawn: it waits (log 4), but for a back-off whose deadline
has come, which `ING_WAKE` ends and nothing else. A state in which a task holds a frame or the Fault Monitor dispatches is
never quiescent. While the Ingress waits for a frame the end lasts: whatever operations the tasks take, with receive
faults or without, every one completes, the state stays quiescent and the transport is given nothing more. R255's (d), no
further step of the environment, is here that the operations are the tasks'; that form is the model's (log 31).
Where a run does not end, it makes progress (R250, the spec's decision D28): in a run that is weakly fair for the three
tasks, once they are launched and as long as the host does nothing, every pending alert is eventually handled, and every
frame in the channel is eventually taken by the Egress and written, capped to its buffer, if the transport takes it. The
form of runs and fairness is the model's (log 32). -/
def Obligations.QuiescentTasksWait : Prop :=
  (∀ (s : State) (a : Agent) (i : Instr), Quiescent s → s.drawRxFault = .noFault → s.chAlloc = true →
      a = .fm ∨ a = .ing ∨ a = .egr → s.agentOp a = some i →
      exec i s = .next s.waits
        ∨ ∃ wake, s.ingSeq = .backoff wake ∧ wake ≤ s.timeUs.toNat ∧ i = .ingWake
            ∧ exec i s = .next { s with ingSeq := .recv, result := .unit })
    ∧ (∀ (s : State) (wake : Nat), Quiescent s → s.ingSeq = .backoff wake → s.timeUs.toNat < wake →
        exec .ingWake s = .next s.waits)
    ∧ (∀ (s : State), Quiescent s → (∀ m, s.fmSeq ≠ .dispatch m) ∧ (∀ tf, s.ingSeq ≠ .held tf)
        ∧ ∀ tf, s.egrSeq ≠ .held tf)
    ∧ (∀ (s : State) (ops : List Instr), Quiescent s → s.ingSeq = .recv → s.chAlloc = true →
        (∀ i ∈ ops, (i.owner = .fm ∨ i.owner = .ing ∨ i.owner = .egr) ∧ i.inner = false) →
        ∃ t, execAll ops s = .next t ∧ Quiescent t ∧ t.ingSeq = .recv ∧ t.tx = s.tx ∧ t.hwq = s.hwq
          ∧ t.q = s.q ∧ t.drop = s.drop ∧ t.bhs = s.bhs ∧ t.ctrl = s.ctrl ∧ t.timeUs = s.timeUs
          ∧ logOf .fm t = logOf .fm s ∧ logOf .egr t = logOf .egr s)
    ∧ (∀ (states : Nat → State) (issues : Nat → Issue) (n : Nat), FairRun states issues → ComponentInv (states n) →
        (states n).launched = true → (states n).params.wf = true → (∀ m, n ≤ m → (issues m).issuer ≠ .agent .host) →
        (∀ a, (states n).params.alertBit.has (states n).alertPend a = true →
            ∃ m rest, n ≤ m ∧ decode (issues m).bytes = .ok (a.handler, rest) ∧ Takes states issues .fm m)
          ∧ ∀ tf ∈ (states n).q, ∃ m, n ≤ m ∧ (states m).egrSeq = .held tf ∧ Takes states issues .egr m
              ∧ (states (m + 1)).egrSeq = .deq
              ∧ ((issues m).draws.txOk = some true →
                (states (m + 1)).tx
                  = (states m).tx ++ (record (states m).params.payloadMax tf).take (states m).params.outCap))
end

