-- ==== Sys2Proof/Laws/Alerts.lean ====
section
/-! SUPPORT. The laws of the alert bits (spec/30_encoding.md R87, spec/41_fault_monitor.md R111, R112,
spec/60_exceptions.md R203). -/

namespace Sys2Proof

/-- Two alerts have different bits (R87). -/
theorem AlertBits.bit_injective (b : AlertBits) : Function.Injective b.bit := by
  have h := b.distinct
  simp only [List.nodup_cons, List.mem_cons, List.not_mem_nil, or_false, not_or] at h
  intro x y hxy
  cases x <;> cases y <;> simp_all [AlertBits.bit]

/-- Every bit of the mask is some alert's (R87). -/
theorem AlertBits.bit_surjective (b : AlertBits) (i : Fin 7) : ∃ a, b.bit a = i := by
  have hcard : [b.dataAvail, b.rxqFull, b.errPassive, b.busError, b.arbLost, b.busOff, b.busRecovered].toFinset
      = Finset.univ := by
    rw [← Finset.card_eq_iff_eq_univ, List.toFinset_card_of_nodup b.distinct]; rfl
  have hi := hcard ▸ Finset.mem_univ i
  simp only [List.mem_toFinset, List.mem_cons, List.not_mem_nil, or_false] at hi
  rcases hi with h | h | h | h | h | h | h
  exacts [⟨.dataAvail, h.symm⟩, ⟨.rxqFull, h.symm⟩, ⟨.errPassive, h.symm⟩, ⟨.busError, h.symm⟩, ⟨.arbLost, h.symm⟩,
    ⟨.busOff, h.symm⟩, ⟨.busRecovered, h.symm⟩]

/-- Two masks with the same alerts in them are the same. -/
theorem AlertBits.mask_ext (b : AlertBits) (m n : AlertMask) (h : ∀ a, b.has m a = b.has n a) : m = n := by
  apply BitVec.eq_of_getLsbD_eq
  intro i hi
  obtain ⟨a, ha⟩ := b.bit_surjective ⟨i, hi⟩
  simpa [AlertBits.has, ha] using h a

/-- The mask of an alert holds that alert and no other. -/
theorem AlertBits.has_mask (b : AlertBits) (a c : Alert) : b.has (b.mask a) c = decide (a = c) := by
  have h : (b.bit c).val = (b.bit a).val ↔ a = c := by rw [← Fin.ext_iff, b.bit_injective.eq_iff, eq_comm]
  simp [AlertBits.has, AlertBits.mask, h]

/-- A cleared bit is clear, and every other bit is as it was. -/
theorem AlertBits.has_clear (b : AlertBits) (m : AlertMask) (a c : Alert) :
    b.has (b.clear m a) c = (b.has m c && decide (a ≠ c)) := by
  have h : b.has (b.clear m a) c = (b.has m c && !b.has (b.mask a) c) := by
    simp [AlertBits.has, AlertBits.clear]
  rw [h, b.has_mask]; simp

/-- A mask that is not zero has an alert in it. -/
theorem AlertBits.exists_has (b : AlertBits) (m : AlertMask) (h : m ≠ 0#7) : ∃ a, b.has m a = true := by
  by_contra hn
  exact h (b.mask_ext m 0#7 (fun a => by simpa [AlertBits.has] using fun ha => hn ⟨a, ha⟩))

/-- The handler of `next(m)` handles a set bit. -/
theorem nextAlert_has (p : Params) (m : AlertMask) (a : Alert) (h : nextAlert p m = some a) :
    p.alertBit.has m a = true :=
  List.find?_some h

/-- Under an order that lists every alert, a mask that is not zero has a next alert. -/
theorem nextAlert_isSome (p : Params) (m : AlertMask) (hall : ∀ a, a ∈ p.alertOrder) (hm : m ≠ 0#7) :
    ∃ a, nextAlert p m = some a := by
  obtain ⟨a, ha⟩ := p.alertBit.exists_has m hm
  have : (nextAlert p m).isSome := List.find?_isSome.mpr ⟨a, hall a, ha⟩
  exact Option.isSome_iff_exists.mp this

/-- `Params.wf` says that the order lists every alert. -/
theorem Params.wf_order (p : Params) (h : p.wf = true) (a : Alert) : a ∈ p.alertOrder := by
  simp only [Params.wf, Bool.and_eq_true, List.all_cons, List.all_nil, decide_eq_true_eq] at h
  cases a <;> tauto

namespace Machine

/-- An alert's bit within a mask. -/
theorem mask_and (b : AlertBits) (en : AlertMask) (a : Alert) :
    b.mask a &&& en = if b.has en a then b.mask a else 0#7 := by
  refine b.mask_ext _ _ (fun c => ?_)
  have h : b.has (b.mask a &&& en) c = (decide (a = c) && b.has en c) := by
    rw [← b.has_mask]; simp [AlertBits.has]
  have hz : b.has 0#7 c = false := by simp [AlertBits.has]
  rw [h]
  split <;> rename_i he
  · rw [b.has_mask]; by_cases hc : a = c <;> simp_all
  · rw [hz]; by_cases hc : a = c <;> simp_all

/-- Raising an alert adds its bit if it is enabled, and nothing else (R203). -/
theorem raisedMask_eq (b : AlertBits) (en pend : AlertMask) (a : Alert) :
    raisedMask b en pend a = pend ||| (b.mask a &&& en) := by
  rw [mask_and]
  unfold raisedMask
  split <;> simp

/-- Raising every alert of a mask adds the enabled bits of it (R183, R203). -/
theorem raisedMasks_eq (b : AlertBits) (en pend mask : AlertMask) :
    raisedMasks b en pend mask = pend ||| (mask &&& en) := by
  refine b.mask_ext _ _ (fun c => ?_)
  have bit : ∀ (v : Bool) (p x : AlertMask), b.has (if v then p ||| (x &&& en) else p) c
      = (b.has p c || (v && b.has x c && b.has en c)) := by
    intro v p x; cases v <;> simp [AlertBits.has]
  have hor : b.has (pend ||| (mask &&& en)) c = (b.has pend c || (b.has mask c && b.has en c)) := by
    simp [AlertBits.has]
  simp only [raisedMasks, Alert.all, List.foldl, raisedMask_eq, bit, b.has_mask, hor]
  cases c <;> simp

/-- With no alert enabled none can be pending (R47 item 8). -/
theorem pending_none_of_enabled_none (pend : AlertMask) (h : pend &&& ~~~(0#7) = 0#7) : pend = 0#7 := by
  revert pend; decide

/-- An invariant of the latches: no disabled alert is pending (R47 item 8), whatever is raised. -/
theorem pending_enabled_or (en pend mask : AlertMask) (h : pend &&& ~~~en = 0#7) :
    (pend ||| (mask &&& en)) &&& ~~~en = 0#7 := by
  apply BitVec.eq_of_getLsbD_eq
  intro i hi
  have := congrArg (fun v => v.getLsbD i) h
  simp only [BitVec.getLsbD_and, BitVec.getLsbD_or, BitVec.getLsbD_not, BitVec.getLsbD_zero, hi, decide_true,
    Bool.true_and] at this ⊢
  cases hp : pend.getLsbD i <;> cases he : en.getLsbD i <;> simp_all

/-- `takeAlerts` gives the pending mask, which is not zero, and clears it (R105). -/
theorem State.takeAlerts_cases (s : State) :
    (s.alertPend = 0#7 ∧ s.takeAlerts = none)
      ∨ (s.alertPend ≠ 0#7 ∧ s.takeAlerts = some (s.alertPend, { s with alertPend := 0#7 })) := by
  by_cases h : s.alertPend = 0#7
  · exact .inl ⟨h, by simp [State.takeAlerts, State.irq, h]⟩
  · exact .inr ⟨h, by simp [State.takeAlerts, State.irq, h]⟩

/-- `Dispatch(0)` is never entered by `done` (R112). -/
theorem doneSeq_ne_zero (b : AlertBits) (m : AlertMask) (a : Alert) : doneSeq b m a ≠ .dispatch 0#7 := by
  unfold doneSeq
  split
  · simp
  · next h => simpa using h

/-- After `done` the Fault Monitor is never idle. -/
theorem doneSeq_ne_idle (b : AlertBits) (m : AlertMask) (a : Alert) : doneSeq b m a ≠ .idle := by
  unfold doneSeq; split <;> simp

/-- What `handling` says of the sequencer (R112). -/
theorem State.handling_eq_some (s : State) (a : Alert) (m : AlertMask) :
    s.handling a = some m ↔ s.fmSeq = .dispatch m ∧ nextAlert s.params m = some a := by
  unfold State.handling
  split
  · next h => simp [h]
  · next h => simp [h]
  · next n h =>
    rw [h]
    constructor
    · intro hs
      split at hs
      · next hn => obtain rfl := Option.some.inj hs; exact ⟨rfl, hn⟩
      · simp at hs
    · rintro ⟨heq, hn⟩
      obtain rfl : n = m := by simpa using heq
      simp [hn]

/-- What a handler step can do (R112): wait, or run its body and then `done`. -/
theorem State.handle_cases (s : State) (a : Alert) (body : State → State) :
    (s.handling a = none ∧ s.handle a body = s.waits)
      ∨ ∃ m, s.fmSeq = .dispatch m ∧ nextAlert s.params m = some a
          ∧ s.handle a body = ((body s).done m a).withResult .unit := by
  cases h : s.handling a with
  | none => exact .inl ⟨rfl, by simp [State.handle, h]⟩
  | some m =>
    obtain ⟨hseq, hnext⟩ := (State.handling_eq_some s a m).mp h
    exact .inr ⟨m, hseq, hnext, by simp [State.handle, h]⟩

end Machine

end Sys2Proof
end

