-- ==== Sys2Proof/Laws/Memory.lean ====
section
/-! SUPPORT. The laws of `OUTBUF` (spec/20_memory.md R60, R63): read after write, the canonical form, and blocks of
bytes. -/

namespace Sys2Proof.Machine

/-- A byte just written is read back. -/
@[simp] theorem Memory.read_write_same (m : Memory) (i : Nat) (b : Byte) :
    Memory.read? (Memory.write m i b) i = some b := by
  induction m with
  | nil => simp [Memory.write, Memory.read?]
  | cons c m ih =>
    obtain ⟨k, v⟩ := c
    simp only [Memory.write]
    split
    · simp [Memory.read?]
    · split
      · simp [Memory.read?]
      · next h => simp [Memory.read?, Ne.symm h, ih]

/-- A write leaves every other byte alone. -/
theorem Memory.read_write_other (m : Memory) (i j : Nat) (b : Byte) (h : j ≠ i) :
    Memory.read? (Memory.write m i b) j = Memory.read? m j := by
  induction m with
  | nil => simp [Memory.write, Memory.read?, Ne.symm h]
  | cons c m ih =>
    obtain ⟨k, v⟩ := c
    simp only [Memory.write]
    split
    · simp [Memory.read?, Ne.symm h]
    · split
      · next hk => subst hk; simp [Memory.read?, Ne.symm h]
      · simp [Memory.read?, ih]

/-- What a block write leaves at each index. -/
theorem Memory.read_writeBytes (bs : List Byte) (m : Memory) (i j : Nat) :
    Memory.read? (Memory.writeBytes m i bs) j
      = if i ≤ j ∧ j < i + bs.length then bs[j - i]? else Memory.read? m j := by
  induction bs generalizing m i with
  | nil => simp [Memory.writeBytes]
  | cons b bs ih =>
    simp only [Memory.writeBytes, ih, List.length_cons]
    by_cases hj : j = i
    · subst hj; simp
    · by_cases hlt : i ≤ j ∧ j < i + (bs.length + 1)
      · have h1 : i + 1 ≤ j ∧ j < i + 1 + bs.length := by omega
        have h2 : j - i = (j - (i + 1)) + 1 := by omega
        simp [h1, hlt, h2]
      · have h1 : ¬(i + 1 ≤ j ∧ j < i + 1 + bs.length) := by omega
        rw [if_neg h1, if_neg hlt, Memory.read_write_other _ _ _ _ hj]

/-- Reading a block whose bytes are known. -/
theorem Memory.readBytes_eq_some (bs : List Byte) (m : Memory) (i : Nat)
    (h : ∀ k, k < bs.length → Memory.read? m (i + k) = bs[k]?) :
    Memory.readBytes m i bs.length = some bs := by
  induction bs generalizing i with
  | nil => simp [Memory.readBytes]
  | cons b bs ih =>
    have h0 : Memory.read? m i = some b := by simpa using h 0 (by simp)
    have hs : ∀ k, k < bs.length → Memory.read? m (i + 1 + k) = bs[k]? := by
      intro k hk
      simpa [Nat.add_assoc, Nat.add_comm 1 k] using h (k + 1) (by simpa using hk)
    simp [Memory.readBytes, h0, ih (i + 1) hs]

/-- A block is read back from where it has been written. -/
theorem Memory.readBytes_writeBytes (m : Memory) (i : Nat) (bs : List Byte) :
    Memory.readBytes (Memory.writeBytes m i bs) i bs.length = some bs := by
  refine Memory.readBytes_eq_some bs _ i (fun k hk => ?_)
  rw [Memory.read_writeBytes, if_pos ⟨by omega, by omega⟩]
  simp

/-- The first index a canonical memory lists is below all the others: what `wf` says of a non-empty list. -/
theorem Memory.wf_cons (c : Host.Cell) (m : Memory) :
    Memory.wf (c :: m) = true ↔ (∀ d ∈ m, c.1 < d.1) ∧ Memory.wf m = true := by
  induction m generalizing c with
  | nil => simp [Memory.wf]
  | cons d m ih =>
    obtain ⟨k, v⟩ := c
    obtain ⟨k', v'⟩ := d
    simp only [Memory.wf, Bool.and_eq_true, decide_eq_true_eq, List.mem_cons, forall_eq_or_imp]
    constructor
    · rintro ⟨hlt, hwf⟩
      exact ⟨⟨hlt, fun e he => Nat.lt_trans hlt (((ih (k', v')).mp hwf).1 e he)⟩, hwf⟩
    · rintro ⟨⟨hlt, -⟩, hwf⟩
      exact ⟨hlt, hwf⟩

/-- The indices after a write: the written one and those there were. -/
theorem Memory.mem_write (m : Memory) (i : Nat) (b : Byte) (d : Host.Cell)
    (h : d ∈ Memory.write m i b) : d = (i, b) ∨ d ∈ m := by
  induction m with
  | nil => simpa [Memory.write] using h
  | cons c m ih =>
    obtain ⟨k, v⟩ := c
    simp only [Memory.write] at h
    split at h
    · simpa using h
    · split at h
      · simp only [List.mem_cons] at h ⊢; tauto
      · simp only [List.mem_cons] at h ⊢
        rcases h with h | h
        · exact .inr (.inl h)
        · rcases ih h with h | h
          · exact .inl h
          · exact .inr (.inr h)

/-- A write keeps the canonical form. -/
theorem Memory.wf_write (m : Memory) (i : Nat) (b : Byte) (h : Memory.wf m = true) :
    Memory.wf (Memory.write m i b) = true := by
  induction m with
  | nil => simp [Memory.write, Memory.wf]
  | cons c m ih =>
    obtain ⟨k, v⟩ := c
    obtain ⟨hlt, hwf⟩ := (Memory.wf_cons _ _).mp h
    simp only [Memory.write]
    split
    · next hi =>
      refine (Memory.wf_cons _ _).mpr ⟨fun d hd => ?_, h⟩
      simp only [List.mem_cons] at hd
      rcases hd with rfl | hd
      · exact hi
      · exact Nat.lt_trans hi (hlt d hd)
    · split
      · next hk => subst hk; exact (Memory.wf_cons _ _).mpr ⟨hlt, hwf⟩
      · refine (Memory.wf_cons _ _).mpr ⟨fun d hd => ?_, ih hwf⟩
        rcases Memory.mem_write m i b d hd with rfl | hd
        · show k < i; omega
        · exact hlt d hd

/-- A block write keeps the canonical form. -/
theorem Memory.wf_writeBytes (bs : List Byte) (m : Memory) (i : Nat) (h : Memory.wf m = true) :
    Memory.wf (Memory.writeBytes m i bs) = true := by
  induction bs generalizing m i with
  | nil => exact h
  | cons b bs ih => exact ih _ _ (Memory.wf_write m i b h)

/-- A write below `cap` stays inside the buffer. -/
theorem Memory.within_write (m : Memory) (i cap : Nat) (b : Byte) (hi : i < cap)
    (h : Memory.within m cap = true) : Memory.within (Memory.write m i b) cap = true := by
  simp only [Memory.within, List.all_eq_true, decide_eq_true_eq] at h ⊢
  intro d hd
  rcases Memory.mem_write m i b d hd with rfl | hd
  · exact hi
  · exact h d hd

/-- A block write below `cap` stays inside the buffer. -/
theorem Memory.within_writeBytes (bs : List Byte) (m : Memory) (i cap : Nat) (hi : i + bs.length ≤ cap)
    (h : Memory.within m cap = true) : Memory.within (Memory.writeBytes m i bs) cap = true := by
  induction bs generalizing m i with
  | nil => exact h
  | cons b bs ih =>
    simp only [List.length_cons] at hi
    exact ih _ _ (by omega) (Memory.within_write m i cap b (by omega) h)

end Sys2Proof.Machine
end

