-- ==== Sys2Proof/Laws/State.lean ====
section
/-! SUPPORT. One lemma per field for each named update of the state (spec/10_state.md R20), each true by unfolding, so
that no later proof unfolds a record update. -/

namespace Sys2Proof.Machine

variable (s : State)


/-! ### `State.withResult` -/

@[simp] theorem State.withResult_params (r : Result) : (s.withResult r).params = s.params := rfl
@[simp] theorem State.withResult_pending (r : Result) : (s.withResult r).pending = s.pending := rfl
@[simp] theorem State.withResult_fixed (r : Result) : (s.withResult r).fixed = s.fixed := rfl
@[simp] theorem State.withResult_drawIdx (r : Result) : (s.withResult r).drawIdx = s.drawIdx := rfl
@[simp] theorem State.withResult_result (r : Result) : (s.withResult r).result = r := rfl
@[simp] theorem State.withResult_timeUs (r : Result) : (s.withResult r).timeUs = s.timeUs := rfl
@[simp] theorem State.withResult_log (r : Result) : (s.withResult r).log = s.log := rfl
@[simp] theorem State.withResult_tx (r : Result) : (s.withResult r).tx = s.tx := rfl
@[simp] theorem State.withResult_fmSeq (r : Result) : (s.withResult r).fmSeq = s.fmSeq := rfl
@[simp] theorem State.withResult_ingSeq (r : Result) : (s.withResult r).ingSeq = s.ingSeq := rfl
@[simp] theorem State.withResult_egrSeq (r : Result) : (s.withResult r).egrSeq = s.egrSeq := rfl
@[simp] theorem State.withResult_bhs (r : Result) : (s.withResult r).bhs = s.bhs := rfl
@[simp] theorem State.withResult_nrLogged (r : Result) : (s.withResult r).nrLogged = s.nrLogged := rfl
@[simp] theorem State.withResult_cfgDone (r : Result) : (s.withResult r).cfgDone = s.cfgDone := rfl
@[simp] theorem State.withResult_launched (r : Result) : (s.withResult r).launched = s.launched := rfl
@[simp] theorem State.withResult_fault (r : Result) : (s.withResult r).fault = s.fault := rfl
@[simp] theorem State.withResult_pinCfg (r : Result) : (s.withResult r).pinCfg = s.pinCfg := rfl
@[simp] theorem State.withResult_stby (r : Result) : (s.withResult r).stby = s.stby := rfl
@[simp] theorem State.withResult_chAlloc (r : Result) : (s.withResult r).chAlloc = s.chAlloc := rfl
@[simp] theorem State.withResult_ctrl (r : Result) : (s.withResult r).ctrl = s.ctrl := rfl
@[simp] theorem State.withResult_drvCfg (r : Result) : (s.withResult r).drvCfg = s.drvCfg := rfl
@[simp] theorem State.withResult_alertEn (r : Result) : (s.withResult r).alertEn = s.alertEn := rfl
@[simp] theorem State.withResult_alertPend (r : Result) : (s.withResult r).alertPend = s.alertPend := rfl
@[simp] theorem State.withResult_hwq (r : Result) : (s.withResult r).hwq = s.hwq := rfl
@[simp] theorem State.withResult_status (r : Result) : (s.withResult r).status = s.status := rfl
@[simp] theorem State.withResult_q (r : Result) : (s.withResult r).q = s.q := rfl
@[simp] theorem State.withResult_drop (r : Result) : (s.withResult r).drop = s.drop := rfl
@[simp] theorem State.withResult_lastWarn (r : Result) : (s.withResult r).lastWarn = s.lastWarn := rfl
@[simp] theorem State.withResult_outbuf (r : Result) : (s.withResult r).outbuf = s.outbuf := rfl

/-! ### `State.logEvent` -/

@[simp] theorem State.logEvent_params (code : LogCode) (payload : LogPayload) :
    (s.logEvent code payload).params = s.params := rfl
@[simp] theorem State.logEvent_pending (code : LogCode) (payload : LogPayload) :
    (s.logEvent code payload).pending = s.pending := rfl
@[simp] theorem State.logEvent_fixed (code : LogCode) (payload : LogPayload) :
    (s.logEvent code payload).fixed = s.fixed := rfl
@[simp] theorem State.logEvent_drawIdx (code : LogCode) (payload : LogPayload) :
    (s.logEvent code payload).drawIdx = s.drawIdx := rfl
@[simp] theorem State.logEvent_result (code : LogCode) (payload : LogPayload) :
    (s.logEvent code payload).result = s.result := rfl
@[simp] theorem State.logEvent_timeUs (code : LogCode) (payload : LogPayload) :
    (s.logEvent code payload).timeUs = s.timeUs := rfl
@[simp] theorem State.logEvent_log (code : LogCode) (payload : LogPayload) :
    (s.logEvent code payload).log = s.log ++ [⟨code.agent, code, payload⟩] := rfl
@[simp] theorem State.logEvent_tx (code : LogCode) (payload : LogPayload) : (s.logEvent code payload).tx = s.tx := rfl
@[simp] theorem State.logEvent_fmSeq (code : LogCode) (payload : LogPayload) :
    (s.logEvent code payload).fmSeq = s.fmSeq := rfl
@[simp] theorem State.logEvent_ingSeq (code : LogCode) (payload : LogPayload) :
    (s.logEvent code payload).ingSeq = s.ingSeq := rfl
@[simp] theorem State.logEvent_egrSeq (code : LogCode) (payload : LogPayload) :
    (s.logEvent code payload).egrSeq = s.egrSeq := rfl
@[simp] theorem State.logEvent_bhs (code : LogCode) (payload : LogPayload) :
    (s.logEvent code payload).bhs = s.bhs := rfl
@[simp] theorem State.logEvent_nrLogged (code : LogCode) (payload : LogPayload) :
    (s.logEvent code payload).nrLogged = s.nrLogged := rfl
@[simp] theorem State.logEvent_cfgDone (code : LogCode) (payload : LogPayload) :
    (s.logEvent code payload).cfgDone = s.cfgDone := rfl
@[simp] theorem State.logEvent_launched (code : LogCode) (payload : LogPayload) :
    (s.logEvent code payload).launched = s.launched := rfl
@[simp] theorem State.logEvent_fault (code : LogCode) (payload : LogPayload) :
    (s.logEvent code payload).fault = s.fault := rfl
@[simp] theorem State.logEvent_pinCfg (code : LogCode) (payload : LogPayload) :
    (s.logEvent code payload).pinCfg = s.pinCfg := rfl
@[simp] theorem State.logEvent_stby (code : LogCode) (payload : LogPayload) :
    (s.logEvent code payload).stby = s.stby := rfl
@[simp] theorem State.logEvent_chAlloc (code : LogCode) (payload : LogPayload) :
    (s.logEvent code payload).chAlloc = s.chAlloc := rfl
@[simp] theorem State.logEvent_ctrl (code : LogCode) (payload : LogPayload) :
    (s.logEvent code payload).ctrl = s.ctrl := rfl
@[simp] theorem State.logEvent_drvCfg (code : LogCode) (payload : LogPayload) :
    (s.logEvent code payload).drvCfg = s.drvCfg := rfl
@[simp] theorem State.logEvent_alertEn (code : LogCode) (payload : LogPayload) :
    (s.logEvent code payload).alertEn = s.alertEn := rfl
@[simp] theorem State.logEvent_alertPend (code : LogCode) (payload : LogPayload) :
    (s.logEvent code payload).alertPend = s.alertPend := rfl
@[simp] theorem State.logEvent_hwq (code : LogCode) (payload : LogPayload) :
    (s.logEvent code payload).hwq = s.hwq := rfl
@[simp] theorem State.logEvent_status (code : LogCode) (payload : LogPayload) :
    (s.logEvent code payload).status = s.status := rfl
@[simp] theorem State.logEvent_q (code : LogCode) (payload : LogPayload) : (s.logEvent code payload).q = s.q := rfl
@[simp] theorem State.logEvent_drop (code : LogCode) (payload : LogPayload) :
    (s.logEvent code payload).drop = s.drop := rfl
@[simp] theorem State.logEvent_lastWarn (code : LogCode) (payload : LogPayload) :
    (s.logEvent code payload).lastWarn = s.lastWarn := rfl
@[simp] theorem State.logEvent_outbuf (code : LogCode) (payload : LogPayload) :
    (s.logEvent code payload).outbuf = s.outbuf := rfl

/-! ### `State.raiseAlert` -/

@[simp] theorem State.raiseAlert_params (a : Alert) : (s.raiseAlert a).params = s.params := rfl
@[simp] theorem State.raiseAlert_pending (a : Alert) : (s.raiseAlert a).pending = s.pending := rfl
@[simp] theorem State.raiseAlert_fixed (a : Alert) : (s.raiseAlert a).fixed = s.fixed := rfl
@[simp] theorem State.raiseAlert_drawIdx (a : Alert) : (s.raiseAlert a).drawIdx = s.drawIdx := rfl
@[simp] theorem State.raiseAlert_result (a : Alert) : (s.raiseAlert a).result = s.result := rfl
@[simp] theorem State.raiseAlert_timeUs (a : Alert) : (s.raiseAlert a).timeUs = s.timeUs := rfl
@[simp] theorem State.raiseAlert_log (a : Alert) : (s.raiseAlert a).log = s.log := rfl
@[simp] theorem State.raiseAlert_tx (a : Alert) : (s.raiseAlert a).tx = s.tx := rfl
@[simp] theorem State.raiseAlert_fmSeq (a : Alert) : (s.raiseAlert a).fmSeq = s.fmSeq := rfl
@[simp] theorem State.raiseAlert_ingSeq (a : Alert) : (s.raiseAlert a).ingSeq = s.ingSeq := rfl
@[simp] theorem State.raiseAlert_egrSeq (a : Alert) : (s.raiseAlert a).egrSeq = s.egrSeq := rfl
@[simp] theorem State.raiseAlert_bhs (a : Alert) : (s.raiseAlert a).bhs = s.bhs := rfl
@[simp] theorem State.raiseAlert_nrLogged (a : Alert) : (s.raiseAlert a).nrLogged = s.nrLogged := rfl
@[simp] theorem State.raiseAlert_cfgDone (a : Alert) : (s.raiseAlert a).cfgDone = s.cfgDone := rfl
@[simp] theorem State.raiseAlert_launched (a : Alert) : (s.raiseAlert a).launched = s.launched := rfl
@[simp] theorem State.raiseAlert_fault (a : Alert) : (s.raiseAlert a).fault = s.fault := rfl
@[simp] theorem State.raiseAlert_pinCfg (a : Alert) : (s.raiseAlert a).pinCfg = s.pinCfg := rfl
@[simp] theorem State.raiseAlert_stby (a : Alert) : (s.raiseAlert a).stby = s.stby := rfl
@[simp] theorem State.raiseAlert_chAlloc (a : Alert) : (s.raiseAlert a).chAlloc = s.chAlloc := rfl
@[simp] theorem State.raiseAlert_ctrl (a : Alert) : (s.raiseAlert a).ctrl = s.ctrl := rfl
@[simp] theorem State.raiseAlert_drvCfg (a : Alert) : (s.raiseAlert a).drvCfg = s.drvCfg := rfl
@[simp] theorem State.raiseAlert_alertEn (a : Alert) : (s.raiseAlert a).alertEn = s.alertEn := rfl
@[simp] theorem State.raiseAlert_alertPend (a : Alert) :
    (s.raiseAlert a).alertPend = raisedMask s.params.alertBit s.alertEn s.alertPend a := rfl
@[simp] theorem State.raiseAlert_hwq (a : Alert) : (s.raiseAlert a).hwq = s.hwq := rfl
@[simp] theorem State.raiseAlert_status (a : Alert) : (s.raiseAlert a).status = s.status := rfl
@[simp] theorem State.raiseAlert_q (a : Alert) : (s.raiseAlert a).q = s.q := rfl
@[simp] theorem State.raiseAlert_drop (a : Alert) : (s.raiseAlert a).drop = s.drop := rfl
@[simp] theorem State.raiseAlert_lastWarn (a : Alert) : (s.raiseAlert a).lastWarn = s.lastWarn := rfl
@[simp] theorem State.raiseAlert_outbuf (a : Alert) : (s.raiseAlert a).outbuf = s.outbuf := rfl

/-! ### `State.done` -/

@[simp] theorem State.done_params (m : AlertMask) (a : Alert) : (s.done m a).params = s.params := rfl
@[simp] theorem State.done_pending (m : AlertMask) (a : Alert) : (s.done m a).pending = s.pending := rfl
@[simp] theorem State.done_fixed (m : AlertMask) (a : Alert) : (s.done m a).fixed = s.fixed := rfl
@[simp] theorem State.done_drawIdx (m : AlertMask) (a : Alert) : (s.done m a).drawIdx = s.drawIdx := rfl
@[simp] theorem State.done_result (m : AlertMask) (a : Alert) : (s.done m a).result = s.result := rfl
@[simp] theorem State.done_timeUs (m : AlertMask) (a : Alert) : (s.done m a).timeUs = s.timeUs := rfl
@[simp] theorem State.done_log (m : AlertMask) (a : Alert) : (s.done m a).log = s.log := rfl
@[simp] theorem State.done_tx (m : AlertMask) (a : Alert) : (s.done m a).tx = s.tx := rfl
@[simp] theorem State.done_fmSeq (m : AlertMask) (a : Alert) : (s.done m a).fmSeq = doneSeq s.params.alertBit m a := rfl
@[simp] theorem State.done_ingSeq (m : AlertMask) (a : Alert) : (s.done m a).ingSeq = s.ingSeq := rfl
@[simp] theorem State.done_egrSeq (m : AlertMask) (a : Alert) : (s.done m a).egrSeq = s.egrSeq := rfl
@[simp] theorem State.done_bhs (m : AlertMask) (a : Alert) : (s.done m a).bhs = s.bhs := rfl
@[simp] theorem State.done_nrLogged (m : AlertMask) (a : Alert) : (s.done m a).nrLogged = s.nrLogged := rfl
@[simp] theorem State.done_cfgDone (m : AlertMask) (a : Alert) : (s.done m a).cfgDone = s.cfgDone := rfl
@[simp] theorem State.done_launched (m : AlertMask) (a : Alert) : (s.done m a).launched = s.launched := rfl
@[simp] theorem State.done_fault (m : AlertMask) (a : Alert) : (s.done m a).fault = s.fault := rfl
@[simp] theorem State.done_pinCfg (m : AlertMask) (a : Alert) : (s.done m a).pinCfg = s.pinCfg := rfl
@[simp] theorem State.done_stby (m : AlertMask) (a : Alert) : (s.done m a).stby = s.stby := rfl
@[simp] theorem State.done_chAlloc (m : AlertMask) (a : Alert) : (s.done m a).chAlloc = s.chAlloc := rfl
@[simp] theorem State.done_ctrl (m : AlertMask) (a : Alert) : (s.done m a).ctrl = s.ctrl := rfl
@[simp] theorem State.done_drvCfg (m : AlertMask) (a : Alert) : (s.done m a).drvCfg = s.drvCfg := rfl
@[simp] theorem State.done_alertEn (m : AlertMask) (a : Alert) : (s.done m a).alertEn = s.alertEn := rfl
@[simp] theorem State.done_alertPend (m : AlertMask) (a : Alert) : (s.done m a).alertPend = s.alertPend := rfl
@[simp] theorem State.done_hwq (m : AlertMask) (a : Alert) : (s.done m a).hwq = s.hwq := rfl
@[simp] theorem State.done_status (m : AlertMask) (a : Alert) : (s.done m a).status = s.status := rfl
@[simp] theorem State.done_q (m : AlertMask) (a : Alert) : (s.done m a).q = s.q := rfl
@[simp] theorem State.done_drop (m : AlertMask) (a : Alert) : (s.done m a).drop = s.drop := rfl
@[simp] theorem State.done_lastWarn (m : AlertMask) (a : Alert) : (s.done m a).lastWarn = s.lastWarn := rfl
@[simp] theorem State.done_outbuf (m : AlertMask) (a : Alert) : (s.done m a).outbuf = s.outbuf := rfl

/-! ### `State.countDrop` -/

@[simp] theorem State.countDrop_params : (s.countDrop).params = s.params := rfl
@[simp] theorem State.countDrop_pending : (s.countDrop).pending = s.pending := rfl
@[simp] theorem State.countDrop_fixed : (s.countDrop).fixed = s.fixed := rfl
@[simp] theorem State.countDrop_drawIdx : (s.countDrop).drawIdx = s.drawIdx := rfl
@[simp] theorem State.countDrop_result : (s.countDrop).result = s.result := rfl
@[simp] theorem State.countDrop_timeUs : (s.countDrop).timeUs = s.timeUs := rfl
@[simp] theorem State.countDrop_log : (s.countDrop).log = s.log := rfl
@[simp] theorem State.countDrop_tx : (s.countDrop).tx = s.tx := rfl
@[simp] theorem State.countDrop_fmSeq : (s.countDrop).fmSeq = s.fmSeq := rfl
@[simp] theorem State.countDrop_ingSeq : (s.countDrop).ingSeq = s.ingSeq := rfl
@[simp] theorem State.countDrop_egrSeq : (s.countDrop).egrSeq = s.egrSeq := rfl
@[simp] theorem State.countDrop_bhs : (s.countDrop).bhs = s.bhs := rfl
@[simp] theorem State.countDrop_nrLogged : (s.countDrop).nrLogged = s.nrLogged := rfl
@[simp] theorem State.countDrop_cfgDone : (s.countDrop).cfgDone = s.cfgDone := rfl
@[simp] theorem State.countDrop_launched : (s.countDrop).launched = s.launched := rfl
@[simp] theorem State.countDrop_fault : (s.countDrop).fault = s.fault := rfl
@[simp] theorem State.countDrop_pinCfg : (s.countDrop).pinCfg = s.pinCfg := rfl
@[simp] theorem State.countDrop_stby : (s.countDrop).stby = s.stby := rfl
@[simp] theorem State.countDrop_chAlloc : (s.countDrop).chAlloc = s.chAlloc := rfl
@[simp] theorem State.countDrop_ctrl : (s.countDrop).ctrl = s.ctrl := rfl
@[simp] theorem State.countDrop_drvCfg : (s.countDrop).drvCfg = s.drvCfg := rfl
@[simp] theorem State.countDrop_alertEn : (s.countDrop).alertEn = s.alertEn := rfl
@[simp] theorem State.countDrop_alertPend : (s.countDrop).alertPend = s.alertPend := rfl
@[simp] theorem State.countDrop_hwq : (s.countDrop).hwq = s.hwq := rfl
@[simp] theorem State.countDrop_status : (s.countDrop).status = s.status := rfl
@[simp] theorem State.countDrop_q : (s.countDrop).q = s.q := rfl
@[simp] theorem State.countDrop_drop : (s.countDrop).drop = countedDrop s.params s.drop := rfl
@[simp] theorem State.countDrop_lastWarn : (s.countDrop).lastWarn = s.lastWarn := rfl
@[simp] theorem State.countDrop_outbuf : (s.countDrop).outbuf = s.outbuf := rfl

/-! ### `State.begin` -/

@[simp] theorem State.begin_params (rest : List Issue) (draws : Draws) : (s.begin rest draws).params = s.params := rfl
@[simp] theorem State.begin_pending (rest : List Issue) (draws : Draws) : (s.begin rest draws).pending = rest := rfl
@[simp] theorem State.begin_fixed (rest : List Issue) (draws : Draws) : (s.begin rest draws).fixed = draws := rfl
@[simp] theorem State.begin_drawIdx (rest : List Issue) (draws : Draws) :
    (s.begin rest draws).drawIdx = s.drawIdx + 1 := rfl
@[simp] theorem State.begin_result (rest : List Issue) (draws : Draws) : (s.begin rest draws).result = s.result := rfl
@[simp] theorem State.begin_timeUs (rest : List Issue) (draws : Draws) : (s.begin rest draws).timeUs = s.timeUs := rfl
@[simp] theorem State.begin_log (rest : List Issue) (draws : Draws) : (s.begin rest draws).log = s.log := rfl
@[simp] theorem State.begin_tx (rest : List Issue) (draws : Draws) : (s.begin rest draws).tx = s.tx := rfl
@[simp] theorem State.begin_fmSeq (rest : List Issue) (draws : Draws) : (s.begin rest draws).fmSeq = s.fmSeq := rfl
@[simp] theorem State.begin_ingSeq (rest : List Issue) (draws : Draws) : (s.begin rest draws).ingSeq = s.ingSeq := rfl
@[simp] theorem State.begin_egrSeq (rest : List Issue) (draws : Draws) : (s.begin rest draws).egrSeq = s.egrSeq := rfl
@[simp] theorem State.begin_bhs (rest : List Issue) (draws : Draws) : (s.begin rest draws).bhs = s.bhs := rfl
@[simp] theorem State.begin_nrLogged (rest : List Issue) (draws : Draws) :
    (s.begin rest draws).nrLogged = s.nrLogged := rfl
@[simp] theorem State.begin_cfgDone (rest : List Issue) (draws : Draws) :
    (s.begin rest draws).cfgDone = s.cfgDone := rfl
@[simp] theorem State.begin_launched (rest : List Issue) (draws : Draws) :
    (s.begin rest draws).launched = s.launched := rfl
@[simp] theorem State.begin_fault (rest : List Issue) (draws : Draws) : (s.begin rest draws).fault = s.fault := rfl
@[simp] theorem State.begin_pinCfg (rest : List Issue) (draws : Draws) : (s.begin rest draws).pinCfg = s.pinCfg := rfl
@[simp] theorem State.begin_stby (rest : List Issue) (draws : Draws) : (s.begin rest draws).stby = s.stby := rfl
@[simp] theorem State.begin_chAlloc (rest : List Issue) (draws : Draws) :
    (s.begin rest draws).chAlloc = s.chAlloc := rfl
@[simp] theorem State.begin_ctrl (rest : List Issue) (draws : Draws) : (s.begin rest draws).ctrl = s.ctrl := rfl
@[simp] theorem State.begin_drvCfg (rest : List Issue) (draws : Draws) : (s.begin rest draws).drvCfg = s.drvCfg := rfl
@[simp] theorem State.begin_alertEn (rest : List Issue) (draws : Draws) :
    (s.begin rest draws).alertEn = s.alertEn := rfl
@[simp] theorem State.begin_alertPend (rest : List Issue) (draws : Draws) :
    (s.begin rest draws).alertPend = s.alertPend := rfl
@[simp] theorem State.begin_hwq (rest : List Issue) (draws : Draws) : (s.begin rest draws).hwq = s.hwq := rfl
@[simp] theorem State.begin_status (rest : List Issue) (draws : Draws) :
    (s.begin rest draws).status = draws.statusValue.getD (Config.statusValue (s.drawIdx + 1)) := rfl
@[simp] theorem State.begin_q (rest : List Issue) (draws : Draws) : (s.begin rest draws).q = s.q := rfl
@[simp] theorem State.begin_drop (rest : List Issue) (draws : Draws) : (s.begin rest draws).drop = s.drop := rfl
@[simp] theorem State.begin_lastWarn (rest : List Issue) (draws : Draws) :
    (s.begin rest draws).lastWarn = s.lastWarn := rfl
@[simp] theorem State.begin_outbuf (rest : List Issue) (draws : Draws) : (s.begin rest draws).outbuf = s.outbuf := rfl

/-! ### `State.waits` -/

@[simp] theorem State.waits_eq_withResult : s.waits = s.withResult .blocked := rfl

/-- A later result replaces an earlier one. -/
@[simp] theorem State.withResult_withResult (r r' : Result) :
    (s.withResult r).withResult r' = s.withResult r' := rfl

end Sys2Proof.Machine
end

