-- ==== Sys2Proof/Laws/Ops.lean ====
section
/-! SUPPORT. One lemma per shared operation that says once everything it can do; later proofs cite these instead of
unfolding the operation. -/

namespace Sys2Proof.Machine

/-- `pop` on a queue (R61). -/
theorem pop_cases {α : Type} (q : List α) :
    (q = [] ∧ pop q = none) ∨ ∃ e rest, q = e :: rest ∧ pop q = some (e, rest) := by
  cases q with
  | nil => exact .inl ⟨rfl, rfl⟩
  | cons e rest => exact .inr ⟨e, rest, rfl, rfl⟩

/-- Everything `RESTART` can do (R101). -/
theorem State.restart_cases (s : State) :
    (s.ctrl ≠ .stopped ∧ s.restart = (.err .notReady, s))
      ∨ (s.ctrl = .stopped ∧ s.drawRestart = .ok ∧ s.restart = (.ok, { s with ctrl := .running }))
      ∨ (s.ctrl = .stopped ∧ s.drawRestart = .fail ∧ s.restart = (.err .fail, s)) := by
  by_cases h : s.ctrl = .stopped
  · right
    cases hd : s.drawRestart with
    | ok => exact .inl ⟨h, rfl, by simp [State.restart, h, hd]⟩
    | fail => exact .inr ⟨h, rfl, by simp [State.restart, h, hd]⟩
  · exact .inl ⟨h, by simp [State.restart, h]⟩

/-- Everything `INIT_RECOVERY` can do (R102). -/
theorem State.initRecovery_cases (s : State) :
    (s.ctrl ≠ .busOff ∧ s.initRecovery = (.err .notReady, s))
      ∨ (s.ctrl = .busOff ∧ s.drawRecovery = .ok ∧ s.initRecovery = (.ok, { s with ctrl := .recovering }))
      ∨ (s.ctrl = .busOff ∧ s.drawRecovery = .fail ∧ s.initRecovery = (.err .fail, s)) := by
  by_cases h : s.ctrl = .busOff
  · right
    cases hd : s.drawRecovery with
    | ok => exact .inl ⟨h, rfl, by simp [State.initRecovery, h, hd]⟩
    | fail => exact .inr ⟨h, rfl, by simp [State.initRecovery, h, hd]⟩
  · exact .inl ⟨h, by simp [State.initRecovery, h]⟩

/-- Everything `RECEIVE` can give (R103). -/
theorem State.receive_cases (s : State) :
    (s.drawRxFault = .timeout ∧ s.receive = .failed .timeout)
      ∨ (s.drawRxFault = .fail ∧ s.receive = .failed .fail)
      ∨ (s.drawRxFault = .noFault ∧ s.ctrl ≠ .running ∧ s.receive = .failed .notReady)
      ∨ (s.drawRxFault = .noFault ∧ s.ctrl = .running ∧ s.hwq = [] ∧ s.receive = .blocked)
      ∨ ∃ f rest, s.drawRxFault = .noFault ∧ s.ctrl = .running ∧ s.hwq = f :: rest ∧ s.receive = .frame f rest := by
  unfold State.receive
  cases s.drawRxFault with
  | timeout => simp
  | fail => simp
  | noFault =>
    by_cases h : s.ctrl = .running
    · cases hq : s.hwq with
      | nil => simp [h, pop]
      | cons f rest => simp [h, pop]
    · simp [h]

/-- `DROP` after a failed enqueue: one more, up to `DROP_MAX` (R133). -/
theorem countedDrop_eq_min (p : Params) (d : Nat) (h : d ≤ dropMax p) : countedDrop p d = min (d + 1) (dropMax p) := by
  unfold countedDrop; split <;> omega

/-- `DROP` keeps its bound (R43). -/
theorem countedDrop_le (p : Params) (d : Nat) (h : d ≤ dropMax p) : countedDrop p d ≤ dropMax p := by
  rw [countedDrop_eq_min p d h]; exact Nat.min_le_right _ _

/-- `DROP` never falls (R133). -/
theorem le_countedDrop (p : Params) (d : Nat) : d ≤ countedDrop p d := by unfold countedDrop; split <;> omega

/-- Everything `maybe_warn()` can do (R134). -/
theorem State.maybeWarn_cases (s : State) :
    (s.warnDue = false ∧ s.maybeWarn = s)
      ∨ (s.warnDue = true ∧ s.maybeWarn = { s.logEvent .chanDrop (.drop s.drop) with lastWarn := s.timeUs }) := by
  cases h : s.warnDue with
  | false => exact .inl ⟨rfl, by simp [State.maybeWarn, h]⟩
  | true => exact .inr ⟨rfl, by simp [State.maybeWarn, h]⟩

/-- Everything `TRY_ENQUEUE` can do on a constructed channel (R131). -/
theorem State.offer_cases (s : State) (tf : TimedFrame) :
    (s.q.length < s.params.capacity ∧ s.offer tf = (true, { s with q := s.q ++ [tf] }))
      ∨ (s.params.capacity ≤ s.q.length ∧ s.offer tf = (false, s.countDrop.maybeWarn)) := by
  by_cases h : s.q.length < s.params.capacity
  · exact .inl ⟨h, by simp [State.offer, h, push]⟩
  · exact .inr ⟨by omega, by simp [State.offer, h]⟩

/-- Everything the body of `H_BUS_OFF` can do (R118). -/
theorem State.startRecovery_cases (s : State) :
    (s.bhs = .recovering ∧ s.startRecovery = s)
      ∨ (s.bhs = .normal ∧ s.ctrl = .busOff ∧ s.drawRecovery = .ok
          ∧ s.startRecovery
            = { s with ctrl := .recovering, bhs := .recovering }.logEvent .busOffRecoveryStarted .none)
      ∨ (s.bhs = .normal ∧ ∃ e, s.initRecovery = (.err e, s)
          ∧ s.startRecovery = s.logEvent .recoveryInitFailed (.err e)) := by
  unfold State.startRecovery
  cases s.bhs with
  | recovering => simp
  | normal =>
    rcases s.initRecovery_cases with ⟨hc, h⟩ | ⟨hc, hd, h⟩ | ⟨hc, hd, h⟩
    · simp [h]
    · simp [h, hc, hd]
    · simp [h]

/-- Everything the body of `H_BUS_RECOVERED` can do (R119). -/
theorem State.finishRecovery_cases (s : State) :
    (s.bhs = .normal ∧ s.finishRecovery = s.logEvent .spuriousRecovered .none)
      ∨ (s.bhs = .recovering ∧ s.ctrl = .stopped ∧ s.drawRestart = .ok
          ∧ s.finishRecovery
            = { s with ctrl := .running, bhs := .normal }.logEvent .busRecoveredRestarted .none)
      ∨ (s.bhs = .recovering ∧ ∃ e, s.restart = (.err e, s)
          ∧ s.finishRecovery = s.logEvent .restartFailed (.err e)) := by
  unfold State.finishRecovery
  cases s.bhs with
  | normal => simp
  | recovering =>
    rcases s.restart_cases with ⟨hc, h⟩ | ⟨hc, hd, h⟩ | ⟨hc, hd, h⟩
    · simp [h]
    · simp [h, hc, hd]
    · simp [h]

/-- The log-once marker (R150). -/
theorem State.logNotReady_cases (s : State) :
    (s.nrLogged = true ∧ s.logNotReady = s)
      ∨ (s.nrLogged = false ∧ s.logNotReady = { s.logEvent .rxNotReady (.bhs s.bhs) with nrLogged := true }) := by
  cases h : s.nrLogged with
  | false => exact .inr ⟨rfl, by simp [State.logNotReady, h]⟩
  | true => exact .inl ⟨rfl, by simp [State.logNotReady, h]⟩

/-- Everything a transport write can do (R172). -/
theorem State.transport_cases (s : State) (bytes : List Byte) :
    (s.drawTxOk = true ∧ s.transport bytes = { s with tx := s.tx ++ bytes })
      ∨ (s.drawTxOk = false ∧ s.transport bytes = s.logEvent .transportSetupFailed .none) := by
  cases h : s.drawTxOk with
  | false => exact .inr ⟨rfl, by simp [State.transport, h]⟩
  | true => exact .inl ⟨rfl, by simp [State.transport, h]⟩

/-- Everything an arriving frame can do (R180). -/
theorem State.frameArrives_cases (s : State) (f : Frame) :
    (s.drvCfg.filt = true ∧ s.params.filter.accepts f = false ∧ s.frameArrives f = s)
      ∨ ((s.drvCfg.filt = false ∨ s.params.filter.accepts f = true) ∧ s.hwq.length < s.params.hwqDepth
          ∧ s.frameArrives f = { s with hwq := s.hwq ++ [f] }.raiseAlert .dataAvail)
      ∨ ((s.drvCfg.filt = false ∨ s.params.filter.accepts f = true) ∧ s.params.hwqDepth ≤ s.hwq.length
          ∧ s.frameArrives f = s.raiseAlert .rxqFull) := by
  unfold State.frameArrives
  cases hf : s.drvCfg.filt <;> cases hp : s.params.filter.accepts f <;> by_cases h : s.hwq.length < s.params.hwqDepth <;>
    simp [h, push] <;> omega

/-- The length of what `ENCODE` stores stays inside the record, the caller's buffer and `OUTBUF`. -/
theorem encodeStored_length (payloadMax : Fin 9) (valid : Bool) (tf : TimedFrame) (cap outCap : Nat) :
    (encodeStored payloadMax valid tf cap outCap).length = min (encodeLength payloadMax valid tf cap) outCap := by
  have : encodeLength payloadMax valid tf cap ≤ (record payloadMax tf).length := by
    unfold encodeLength; split <;> omega
  simp only [encodeStored, List.length_take]
  omega

/-- `EGR_EMIT` reads back exactly what its `ENCODE` stored (R171). -/
theorem State.emit_readBytes (s : State) (tf : TimedFrame) :
    Memory.readBytes (s.encodeInto true tf s.params.outCap).2.outbuf 0
        (min (s.encodeInto true tf s.params.outCap).1 s.params.outCap)
      = some (encodeStored s.params.payloadMax true tf s.params.outCap s.params.outCap) := by
  have h := Memory.readBytes_writeBytes s.outbuf 0 (encodeStored s.params.payloadMax true tf s.params.outCap s.params.outCap)
  rw [encodeStored_length] at h
  exact h

/-- What `EGR_EMIT` stores and writes: the record, capped to the buffer (R171). -/
theorem encodeStored_full (payloadMax : Fin 9) (tf : TimedFrame) (outCap : Nat) :
    encodeStored payloadMax true tf outCap outCap = (record payloadMax tf).take outCap := by
  unfold encodeStored encodeLength
  by_cases h : outCap = 0
  · simp [h]
  · rw [if_neg (by simp [h]), List.take_eq_take_iff]
    omega

/-- `EGR_EMIT` on a held frame always ends in a next state (R171). -/
theorem execEgrEmit_held (s : State) (tf : TimedFrame) (hs : s.egrSeq = .held tf) :
    execEgrEmit s = .next (if (record s.params.payloadMax tf).take s.params.outCap = [] then { s with egrSeq := .deq, result := .unit }
      else { ({ s with outbuf := Memory.writeBytes s.outbuf 0 ((record s.params.payloadMax tf).take s.params.outCap) }.transport
          ((record s.params.payloadMax tf).take s.params.outCap)) with egrSeq := .deq, result := .unit }) := by
  have hread := s.emit_readBytes tf
  rw [encodeStored_full] at hread
  unfold execEgrEmit
  split
  next u hu =>
    obtain rfl : u = tf := by simpa [hs] using hu.symm
    rw [hread]
    cases h : (record s.params.payloadMax u).take s.params.outCap with
    | nil => simp [State.encodeInto, encodeStored_full, h, Memory.writeBytes, State.withResult]
    | cons b bs =>
      rw [if_neg (by simp)]
      simp only [State.encodeInto, encodeStored_full, h]
      rfl
  all_goals next h => simp [hs] at h

end Sys2Proof.Machine
end

