-- ==== Sys2Proof/Laws/Effects.lean ====
section
/-! SUPPORT. Everything an executed operation can do when it gives a next state, said once: each way as one explicit
update of the state, with the conditions under which it happens. Statements about all operations go by cases on it. -/

namespace Sys2Proof.Machine

/-- The ways an operation other than `RESET` ends in a next state. -/
inductive Effect : Instr → State → State → Prop
  | waits (i : Instr) (s : State) : Effect i s { s with result := .blocked }
  | launch (s : State) : s.cfgDone = true → s.launched = false →
      Effect .launch s { s with fmSeq := .wait, ingSeq := .recv, egrSeq := .deq, launched := true, result := .unit }
  | configureAgain (s : State) : s.launched = false → s.cfgDone = true →
      Effect .configure s { s with result := .res .ok }
  | configureDone (s : State) : s.launched = false → s.cfgDone = false → s.fault = false →
      Effect .configure s { s with
        chAlloc := true, pinCfg := true, stby := false, ctrl := .running
        drvCfg := ⟨false, s.params.timingProfile⟩, alertEn := alertSet s.params.alertCount, cfgDone := true, result := .res .ok }
  | configureFailed0 (s : State) : s.launched = false → s.cfgDone = false → s.fault = false →
      Effect .configure s { s with
        fault := true, log := s.log ++ [⟨.host, .cfgFail, .step .chAlloc⟩]
        result := .res (.err (.cfgFail .chAlloc)) }
  | configureFailed1 (s : State) : s.launched = false → s.cfgDone = false → s.fault = false →
      Effect .configure s { s with
        chAlloc := true, fault := true, log := s.log ++ [⟨.host, .cfgFail, .step .pinCfg⟩]
        result := .res (.err (.cfgFail .pinCfg)) }
  | configureFailed3 (s : State) : s.launched = false → s.cfgDone = false → s.fault = false →
      Effect .configure s { s with
        chAlloc := true, pinCfg := true, stby := false, fault := true
        log := s.log ++ [⟨.host, .cfgFail, .step .drvInstall⟩], result := .res (.err (.cfgFail .drvInstall)) }
  | configureFailed4 (s : State) : s.launched = false → s.cfgDone = false → s.fault = false →
      Effect .configure s { s with
        chAlloc := true, pinCfg := true, stby := false, ctrl := .stopped
        drvCfg := ⟨false, s.params.timingProfile⟩, fault := true
        log := s.log ++ [⟨.host, .cfgFail, .step .alertCfg⟩], result := .res (.err (.cfgFail .alertCfg)) }
  | configureFailed5 (s : State) : s.launched = false → s.cfgDone = false → s.fault = false →
      Effect .configure s { s with
        chAlloc := true, pinCfg := true, stby := false, ctrl := .stopped
        drvCfg := ⟨false, s.params.timingProfile⟩, alertEn := alertSet s.params.alertCount, fault := true
        log := s.log ++ [⟨.host, .cfgFail, .step .drvStart⟩], result := .res (.err (.cfgFail .drvStart)) }
  | restartOk (s : State) : s.ctrl = .stopped →
      Effect .restart s { s with ctrl := .running, result := .res .ok }
  | restartErr (s : State) (e : ErrCode) : Effect .restart s { s with result := .res (.err e) }
  | initRecoveryOk (s : State) : s.ctrl = .busOff →
      Effect .initRecovery s { s with ctrl := .recovering, result := .res .ok }
  | initRecoveryErr (s : State) (e : ErrCode) : Effect .initRecovery s { s with result := .res (.err e) }
  | received (s : State) (f : Frame) (rest : List Frame) : s.ctrl = .running → s.hwq = f :: rest →
      Effect .receive s { s with hwq := rest, result := .received f }
  | receiveFailed (s : State) (e : ErrCode) : Effect .receive s { s with result := .receiveFailed e }
  | statusRead (s : State) (v : Option Status) : Effect .readStatus s { s with result := .statusRead v }
  | alertsRead (s : State) : s.alertPend ≠ 0#7 →
      Effect .readAlerts s { s with alertPend := 0#7, result := .alerts s.alertPend }
  | fmWait (s : State) : s.fmSeq = .wait → s.alertPend ≠ 0#7 →
      Effect .fmWait s { s with alertPend := 0#7, fmSeq := .dispatch s.alertPend, result := .unit }
  | handledQuiet (s : State) (a : Alert) (m : AlertMask) : s.fmSeq = .dispatch m →
      Effect a.handler s { s with fmSeq := doneSeq s.params.alertBit m a, result := .unit }
  | handledLogged (s : State) (a : Alert) (m : AlertMask) (code : LogCode) (payload : LogPayload) :
      s.fmSeq = .dispatch m → code.agent = .fm →
      Effect a.handler s { s with
        log := s.log ++ [⟨.fm, code, payload⟩], fmSeq := doneSeq s.params.alertBit m a, result := .unit }
  | recoveryStarted (s : State) (m : AlertMask) : s.fmSeq = .dispatch m → s.bhs = .normal → s.ctrl = .busOff →
      Effect .hBusOff s { s with
        ctrl := .recovering, bhs := .recovering, log := s.log ++ [⟨.fm, .busOffRecoveryStarted, .none⟩]
        fmSeq := doneSeq s.params.alertBit m .busOff, result := .unit }
  | recoveryFinished (s : State) (m : AlertMask) :
      s.fmSeq = .dispatch m → s.bhs = .recovering → s.ctrl = .stopped →
      Effect .hBusRecovered s { s with
        ctrl := .running, bhs := .normal, log := s.log ++ [⟨.fm, .busRecoveredRestarted, .none⟩]
        fmSeq := doneSeq s.params.alertBit m .busRecovered, result := .unit }
  | enqueued (s : State) (tf : TimedFrame) : s.chAlloc = true → s.q.length < s.params.capacity →
      Effect (.tryEnqueue tf) s { s with q := s.q ++ [tf], result := .accepted true }
  | dropped (s : State) (tf : TimedFrame) :
      s.chAlloc = true → s.params.capacity ≤ s.q.length → s.countDrop.warnDue = false →
      Effect (.tryEnqueue tf) s { s with drop := countedDrop s.params s.drop, result := .accepted false }
  | droppedWarned (s : State) (tf : TimedFrame) :
      s.chAlloc = true → s.params.capacity ≤ s.q.length → s.countDrop.warnDue = true →
      Effect (.tryEnqueue tf) s { s with
        drop := countedDrop s.params s.drop, log := s.log ++ [⟨.ing, .chanDrop, .drop (countedDrop s.params s.drop)⟩]
        lastWarn := s.timeUs, result := .accepted false }
  | dequeued (s : State) (timeout : Timeout) (tf : TimedFrame) (rest : List TimedFrame) :
      s.chAlloc = true → s.q = tf :: rest →
      Effect (.dequeue timeout) s { s with q := rest, result := .dequeued (some tf) }
  | dequeueEnded (s : State) (timeout : Timeout) : s.chAlloc = true → s.q = [] →
      Effect (.dequeue timeout) s { s with result := .dequeued none }
  | ingHeld (s : State) (f : Frame) (rest : List Frame) : s.ingSeq = .recv → s.ctrl = .running → s.hwq = f :: rest →
      Effect .ingRecv s { s with hwq := rest, nrLogged := false, ingSeq := .held ⟨s.timeUs, f⟩, result := .unit }
  | ingBackoff (s : State) : s.ingSeq = .recv → s.nrLogged = true →
      Effect .ingRecv s { s with ingSeq := .backoff s.backoffDeadline, result := .unit }
  | ingBackoffLogged (s : State) : s.ingSeq = .recv → s.nrLogged = false →
      Effect .ingRecv s { s with
        log := s.log ++ [⟨.ing, .rxNotReady, .bhs s.bhs⟩], nrLogged := true, ingSeq := .backoff s.backoffDeadline
        result := .unit }
  | ingError (s : State) (e : ErrCode) : s.ingSeq = .recv →
      Effect .ingRecv s { s with log := s.log ++ [⟨.ing, .rxError, .err e⟩], ingSeq := .recv, result := .unit }
  | ingEnqueued (s : State) (tf : TimedFrame) : s.ingSeq = .held tf → s.chAlloc = true →
      s.q.length < s.params.capacity →
      Effect .ingEnq s { s with q := s.q ++ [tf], ingSeq := .recv, result := .unit }
  | ingDropped (s : State) (tf : TimedFrame) : s.ingSeq = .held tf →
      s.chAlloc = true → s.params.capacity ≤ s.q.length → s.countDrop.warnDue = false →
      Effect .ingEnq s { s with drop := countedDrop s.params s.drop, ingSeq := .recv, result := .unit }
  | ingDroppedWarned (s : State) (tf : TimedFrame) : s.ingSeq = .held tf →
      s.chAlloc = true → s.params.capacity ≤ s.q.length → s.countDrop.warnDue = true →
      Effect .ingEnq s { s with
        drop := countedDrop s.params s.drop, log := s.log ++ [⟨.ing, .chanDrop, .drop (countedDrop s.params s.drop)⟩]
        lastWarn := s.timeUs, ingSeq := .recv, result := .unit }
  | ingWoken (s : State) (wake : Nat) : s.ingSeq = .backoff wake → wake ≤ s.timeUs.toNat →
      Effect .ingWake s { s with ingSeq := .recv, result := .unit }
  | encoded (s : State) (valid : Bool) (tf : TimedFrame) (cap : Word32) (n : Word32) :
      Effect (.encodeFrame valid tf cap) s { s with
        outbuf := Memory.writeBytes s.outbuf 0 (encodeStored s.params.payloadMax valid tf cap.toNat s.params.outCap), result := .length n }
  | egrHeld (s : State) (tf : TimedFrame) (rest : List TimedFrame) : s.egrSeq = .deq → s.chAlloc = true →
      s.q = tf :: rest → Effect .egrDeq s { s with q := rest, egrSeq := .held tf, result := .unit }
  | emittedNothing (s : State) (tf : TimedFrame) : s.egrSeq = .held tf →
      encodeStored s.params.payloadMax true tf s.params.outCap s.params.outCap = [] →
      Effect .egrEmit s { s with outbuf := s.outbuf, egrSeq := .deq, result := .unit }
  | emitted (s : State) (tf : TimedFrame) : s.egrSeq = .held tf → s.drawTxOk = true →
      encodeStored s.params.payloadMax true tf s.params.outCap s.params.outCap ≠ [] →
      Effect .egrEmit s { s with
        outbuf := Memory.writeBytes s.outbuf 0 (encodeStored s.params.payloadMax true tf s.params.outCap s.params.outCap)
        tx := s.tx ++ encodeStored s.params.payloadMax true tf s.params.outCap s.params.outCap, egrSeq := .deq, result := .unit }
  | emitFailed (s : State) (tf : TimedFrame) : s.egrSeq = .held tf → s.drawTxOk = false →
      encodeStored s.params.payloadMax true tf s.params.outCap s.params.outCap ≠ [] →
      Effect .egrEmit s { s with
        outbuf := Memory.writeBytes s.outbuf 0 (encodeStored s.params.payloadMax true tf s.params.outCap s.params.outCap)
        log := s.log ++ [⟨.egr, .transportSetupFailed, .none⟩], egrSeq := .deq, result := .unit }
  | written (s : State) (bytes : List Byte) : Effect (.transportWrite bytes) s { s with
      tx := s.tx ++ bytes, result := .unit }
  | writeFailed (s : State) (bytes : List Byte) : Effect (.transportWrite bytes) s { s with
      log := s.log ++ [⟨.egr, .transportSetupFailed, .none⟩], result := .unit }
  | frameIgnored (s : State) (f : Frame) : s.ctrl = .running → Effect (.evFrame f) s { s with result := .unit }
  | frameQueued (s : State) (f : Frame) : s.ctrl = .running → s.hwq.length < s.params.hwqDepth →
      Effect (.evFrame f) s { s with
        hwq := s.hwq ++ [f], alertPend := s.alertPend ||| (s.params.alertBit.mask .dataAvail &&& s.alertEn), result := .unit }
  | frameLost (s : State) (f : Frame) : s.ctrl = .running → s.params.hwqDepth ≤ s.hwq.length →
      Effect (.evFrame f) s { s with
        alertPend := s.alertPend ||| (s.params.alertBit.mask .rxqFull &&& s.alertEn), result := .unit }
  | busOff (s : State) : s.ctrl = .running →
      Effect .evBusOff s { s with
        ctrl := .busOff, alertPend := s.alertPend ||| (s.params.alertBit.mask .busOff &&& s.alertEn), result := .unit }
  | recoveryDone (s : State) : s.ctrl = .recovering →
      Effect .evRecoveryDone s { s with
        ctrl := .stopped, hwq := recoveredHwq s.params.hwqOnRecovery s.hwq
        alertPend := s.alertPend ||| (s.params.alertBit.mask .busRecovered &&& s.alertEn), result := .unit }
  | alerted (s : State) (mask : AlertMask) : s.ctrl ≠ .uninstalled →
      Effect (.evAlert mask) s { s with alertPend := s.alertPend ||| (mask &&& s.alertEn), result := .unit }
  | timePassed (s : State) (t : Word64) : s.timeUs.toNat ≤ t.toNat →
      Effect (.evTime t) s { s with timeUs := t, result := .unit }

/-- A next state whose record is known is the effect named. -/
theorem Effect.of_next {i : Instr} {s t u : State} (h : Host.Outcome.next (φ := Fault) (ρ := Refusal) t = .next u)
    (he : Effect i s t) : Effect i s u := by
  injection h with h; exact h ▸ he

theorem configure_effect (s t : State) (h : execConfigure s = .next t) : Effect .configure s t := by
  unfold execConfigure at h
  split at h
  · simp at h
  next hl =>
  split at h
  next hd => exact .of_next h (.configureAgain s (by simpa using hl) hd)
  next hd =>
  split at h
  · simp at h
  next hf =>
  have hl : s.launched = false := by simpa using hl
  have hd : s.cfgDone = false := by simpa using hd
  have hf : s.fault = false := by simpa using hf
  cases hc : s.drawCfgFail <;>
    simp only [hc, CfgFault.failing, configureOrder, State.runConfigure, CfgStep.apply, reduceCtorEq, if_false, if_true,
      Option.some.injEq] at h
  · exact .of_next h (.configureDone s hl hd hf)
  · exact .of_next h (.configureFailed0 s hl hd hf)
  · exact .of_next h (.configureFailed1 s hl hd hf)
  · exact .of_next h (.configureFailed3 s hl hd hf)
  · exact .of_next h (.configureFailed4 s hl hd hf)
  · exact .of_next h (.configureFailed5 s hl hd hf)

theorem handle_effect (s t : State) (a : Alert) (body : State → State)
    (hbody : ∀ m, s.fmSeq = .dispatch m → Effect a.handler s (((body s).done m a).withResult .unit))
    (h : Host.Outcome.next (φ := Fault) (ρ := Refusal) (s.handle a body) = .next t) : Effect a.handler s t := by
  rcases s.handle_cases a body with ⟨-, he⟩ | ⟨m, hm, -, he⟩ <;> rw [he] at h
  · exact .of_next h (.waits _ s)
  · exact .of_next h (hbody m hm)

theorem busOff_effect (s t : State) (h : execHBusOff s = .next t) : Effect .hBusOff s t := by
  refine handle_effect s t .busOff _ (fun m hm => ?_) h
  rcases s.startRecovery_cases with ⟨-, he⟩ | ⟨hb, hc, -, he⟩ | ⟨-, e, -, he⟩ <;> rw [he]
  · exact .handledQuiet s .busOff m hm
  · exact .recoveryStarted s m hm hb hc
  · exact .handledLogged s .busOff m .recoveryInitFailed (.err e) hm rfl

theorem busRecovered_effect (s t : State) (h : execHBusRecovered s = .next t) : Effect .hBusRecovered s t := by
  refine handle_effect s t .busRecovered _ (fun m hm => ?_) h
  rcases s.finishRecovery_cases with ⟨-, he⟩ | ⟨hb, hc, -, he⟩ | ⟨-, e, -, he⟩ <;> rw [he]
  · exact .handledLogged s .busRecovered m .spuriousRecovered .none hm rfl
  · exact .recoveryFinished s m hm hb hc
  · exact .handledLogged s .busRecovered m .restartFailed (.err e) hm rfl

theorem tryEnqueue_effect (tf : TimedFrame) (s t : State) (h : execTryEnqueue tf s = .next t) :
    Effect (.tryEnqueue tf) s t := by
  unfold execTryEnqueue at h
  split at h
  next ha =>
    rcases s.offer_cases tf with ⟨hq, he⟩ | ⟨hq, he⟩ <;> rw [he] at h
    · exact .of_next h (.enqueued s tf ha hq)
    · rcases s.countDrop.maybeWarn_cases with ⟨hw, he⟩ | ⟨hw, he⟩ <;> rw [he] at h
      · exact .of_next h (.dropped s tf ha hq hw)
      · exact .of_next h (.droppedWarned s tf ha hq hw)
  · simp at h

theorem ingEnq_effect (s t : State) (h : execIngEnq s = .next t) : Effect .ingEnq s t := by
  unfold execIngEnq at h
  split at h
  next tf hs =>
    split at h
    next ha =>
      rcases s.offer_cases tf with ⟨hq, he⟩ | ⟨hq, he⟩ <;> rw [he] at h
      · exact .of_next h (.ingEnqueued s tf hs ha hq)
      · rcases s.countDrop.maybeWarn_cases with ⟨hw, he⟩ | ⟨hw, he⟩ <;> rw [he] at h
        · exact .of_next h (.ingDropped s tf hs ha hq hw)
        · exact .of_next h (.ingDroppedWarned s tf hs ha hq hw)
    · simp at h
  all_goals exact .of_next h (.waits _ s)

theorem receive_effect (s t : State) (h : execReceive s = .next t) : Effect .receive s t := by
  unfold execReceive at h
  rcases s.receive_cases with ⟨-, he⟩ | ⟨-, he⟩ | ⟨-, -, he⟩ | ⟨-, -, -, he⟩ | ⟨f, rest, -, hc, hq, he⟩ <;>
    rw [he] at h
  · exact .of_next h (.receiveFailed s _)
  · exact .of_next h (.receiveFailed s _)
  · exact .of_next h (.receiveFailed s _)
  · exact .of_next h (.waits _ s)
  · exact .of_next h (.received s f rest hc hq)

theorem ingRecv_effect (s t : State) (h : execIngRecv s = .next t) : Effect .ingRecv s t := by
  unfold execIngRecv at h
  split at h
  next hs =>
    unfold State.ingestReception at h
    rcases s.receive_cases with ⟨-, he⟩ | ⟨-, he⟩ | ⟨-, -, he⟩ | ⟨-, -, -, he⟩ | ⟨f, rest, -, hc, hq, he⟩ <;>
      rw [he] at h
    · exact .of_next h (.ingError s _ hs)
    · exact .of_next h (.ingError s _ hs)
    · rcases s.logNotReady_cases with ⟨hn, he⟩ | ⟨hn, he⟩ <;> simp only [he] at h
      · exact .of_next h (.ingBackoff s hs hn)
      · exact .of_next h (.ingBackoffLogged s hs hn)
    · exact .of_next h (.waits _ s)
    · exact .of_next h (.ingHeld s f rest hs hc hq)
  all_goals exact .of_next h (.waits _ s)

theorem egrEmit_effect (s t : State) (h : execEgrEmit s = .next t) : Effect .egrEmit s t := by
  unfold execEgrEmit at h
  split at h
  next tf hs =>
    rw [s.emit_readBytes tf] at h
    split at h
    · simp at h
    next he =>
      have he : encodeStored s.params.payloadMax true tf s.params.outCap s.params.outCap = [] := by simpa using he
      have := Effect.emittedNothing s tf hs he
      refine .of_next h ?_
      simpa [State.encodeInto, he, Memory.writeBytes, State.withResult] using this
    next hne heq =>
      obtain rfl := Option.some.inj heq
      rcases (s.encodeInto true tf s.params.outCap).2.transport_cases
        (encodeStored s.params.payloadMax true tf s.params.outCap s.params.outCap) with ⟨hd, he⟩ | ⟨hd, he⟩ <;> rw [he] at h
      · exact .of_next h (.emitted s tf hs hd (fun hn => hne (by rw [hn])))
      · exact .of_next h (.emitFailed s tf hs hd (fun hn => hne (by rw [hn])))
  all_goals exact .of_next h (.waits _ s)

/-- Every next state of an operation other than `RESET` is one of the effects. -/
theorem exec_effect (i : Instr) (s t : State) (h : exec i s = .next t) (hi : i ≠ .reset) : Effect i s t := by
  cases i with
  | reset => exact absurd rfl hi
  | launch =>
    simp only [exec, execLaunch] at h
    split at h
    · simp at h
    next hd =>
    split at h
    · simp at h
    next hl => exact .of_next h (.launch s (by simpa using hd) (by simpa using hl))
  | configure => exact configure_effect s t h
  | restart =>
    simp only [exec, execRestart] at h
    rcases s.restart_cases with ⟨-, he⟩ | ⟨hc, -, he⟩ | ⟨-, -, he⟩ <;> rw [he] at h
    · exact .of_next h (.restartErr s _)
    · exact .of_next h (.restartOk s hc)
    · exact .of_next h (.restartErr s _)
  | initRecovery =>
    simp only [exec, execInitRecovery] at h
    rcases s.initRecovery_cases with ⟨-, he⟩ | ⟨hc, -, he⟩ | ⟨-, -, he⟩ <;> rw [he] at h
    · exact .of_next h (.initRecoveryErr s _)
    · exact .of_next h (.initRecoveryOk s hc)
    · exact .of_next h (.initRecoveryErr s _)
  | receive => exact receive_effect s t h
  | readStatus => exact .of_next h (.statusRead s _)
  | readAlerts =>
    simp only [exec, execReadAlerts] at h
    rcases s.takeAlerts_cases with ⟨-, he⟩ | ⟨hp, he⟩ <;> rw [he] at h
    · exact .of_next h (.waits _ s)
    · exact .of_next h (.alertsRead s hp)
  | fmWait =>
    simp only [exec, execFmWait] at h
    split at h
    · exact .of_next h (.waits _ s)
    · exact .of_next h (.waits _ s)
    next hs =>
      rcases s.takeAlerts_cases with ⟨-, he⟩ | ⟨hp, he⟩ <;> rw [he] at h
      · exact .of_next h (.waits _ s)
      · exact .of_next h (.fmWait s hs hp)
  | hDataAvail =>
    refine handle_effect s t .dataAvail _ (fun m hm => ?_) h
    exact .handledQuiet s .dataAvail m hm
  | hRxqFull =>
    refine handle_effect s t .rxqFull _ (fun m hm => ?_) h
    exact .handledLogged s .rxqFull m .rxqFull .none hm rfl
  | hErrPassive =>
    refine handle_effect s t .errPassive _ (fun m hm => ?_) h
    exact .handledLogged s .errPassive m .errPassive _ hm rfl
  | hBusError =>
    refine handle_effect s t .busError _ (fun m hm => ?_) h
    exact .handledLogged s .busError m .busError _ hm rfl
  | hArbLost =>
    refine handle_effect s t .arbLost _ (fun m hm => ?_) h
    exact .handledLogged s .arbLost m .arbLost .none hm rfl
  | hBusOff => exact busOff_effect s t h
  | hBusRecovered => exact busRecovered_effect s t h
  | tryEnqueue tf => exact tryEnqueue_effect tf s t h
  | dequeue timeout =>
    simp only [exec, execDequeue] at h
    split at h
    next ha =>
      rcases pop_cases s.q with ⟨hq, he⟩ | ⟨tf, rest, hq, he⟩ <;> rw [he] at h
      · simp only at h
        split at h
        · exact .of_next h (.dequeueEnded s timeout ha hq)
        · exact .of_next h (.waits _ s)
      · exact .of_next h (.dequeued s timeout tf rest ha hq)
    · simp at h
  | ingRecv => exact ingRecv_effect s t h
  | ingEnq => exact ingEnq_effect s t h
  | ingWake =>
    simp only [exec, execIngWake] at h
    split at h
    next wake hs =>
      split at h
      next hw => exact .of_next h (.ingWoken s wake hs hw)
      · exact .of_next h (.waits _ s)
    all_goals exact .of_next h (.waits _ s)
  | encodeFrame valid tf cap => exact .of_next h (.encoded s valid tf cap _)
  | egrDeq =>
    simp only [exec, execEgrDeq] at h
    split at h
    next hs =>
      split at h
      next ha =>
        rcases pop_cases s.q with ⟨hq, he⟩ | ⟨tf, rest, hq, he⟩ <;> rw [he] at h
        · exact .of_next h (.waits _ s)
        · exact .of_next h (.egrHeld s tf rest hs ha hq)
      · simp at h
    all_goals exact .of_next h (.waits _ s)
  | egrEmit => exact egrEmit_effect s t h
  | transportWrite bytes =>
    simp only [exec, execTransportWrite] at h
    rcases s.transport_cases bytes with ⟨-, he⟩ | ⟨-, he⟩ <;> rw [he] at h
    · exact .of_next h (.written s bytes)
    · exact .of_next h (.writeFailed s bytes)
  | evFrame f =>
    simp only [exec, execEvFrame] at h
    split at h
    next hc =>
      rcases s.frameArrives_cases f with ⟨-, -, he⟩ | ⟨-, hq, he⟩ | ⟨-, hq, he⟩ <;> rw [he] at h
      · exact .of_next h (.frameIgnored s f hc)
      · exact .of_next h (by simpa [State.raiseAlert, raisedMask_eq, State.withResult] using Effect.frameQueued s f hc hq)
      · exact .of_next h (by simpa [State.raiseAlert, raisedMask_eq, State.withResult] using Effect.frameLost s f hc hq)
    · exact .of_next h (.waits _ s)
  | evBusOff =>
    simp only [exec, execEvBusOff] at h
    split at h
    next hc => exact .of_next h (by simpa [State.raiseAlert, raisedMask_eq, State.withResult] using Effect.busOff s hc)
    · exact .of_next h (.waits _ s)
  | evRecoveryDone =>
    simp only [exec, execEvRecoveryDone] at h
    split at h
    next hc =>
      exact .of_next h (by simpa [State.raiseAlert, raisedMask_eq, State.withResult] using Effect.recoveryDone s hc)
    · exact .of_next h (.waits _ s)
  | evAlert mask =>
    simp only [exec, execEvAlert] at h
    split at h
    · exact .of_next h (.waits _ s)
    next hc => exact .of_next h (by simpa [raisedMasks_eq, State.withResult] using Effect.alerted s mask hc)
  | evTime time =>
    simp only [exec, execEvTime] at h
    split at h
    next ht => exact .of_next h (.timePassed s time ht)
    · exact .of_next h (.waits _ s)

end Sys2Proof.Machine
end

