-- ==== Sys2Proof/Laws/Encoding.lean ====
section
/-! SUPPORT. The laws of the operand fields and record images (spec/30_encoding.md R80, R84-R86): each reader undoes its
writer. -/

namespace Sys2Proof

@[simp] theorem leBytes_length (n v : Nat) : (leBytes n v).length = n := by
  induction n generalizing v with
  | zero => rfl
  | succ n ih => simp [leBytes, ih]

/-- Reading a little-endian field gives the number written, as far as it fits. -/
theorem takeLe_leBytes (n v : Nat) (rest : List Byte) :
    takeLe n (leBytes n v ++ rest) = some (v % 256 ^ n, rest) := by
  induction n generalizing v with
  | zero => simp [takeLe, leBytes, Nat.mod_one]
  | succ n ih =>
    simp only [leBytes, List.cons_append, takeLe, ih]
    have h : v % 256 ^ (n + 1) = v % 256 + 256 * (v / 256 % 256 ^ n) := by
      rw [Nat.pow_succ', Nat.mod_mul]
    simp [h]

/-- A number below `256 ^ n` is read back whole. -/
theorem takeLe_leBytes_of_lt (n v : Nat) (rest : List Byte) (h : v < 256 ^ n) :
    takeLe n (leBytes n v ++ rest) = some (v, rest) := by
  rw [takeLe_leBytes, Nat.mod_eq_of_lt h]

/-- What a successful read consumed. -/
theorem takeLe_eq_some (n : Nat) (bs rest : List Byte) (v : Nat) (h : takeLe n bs = some (v, rest)) :
    v < 256 ^ n ∧ leBytes n v ++ rest = bs := by
  induction n generalizing bs v with
  | zero =>
    simp only [takeLe, Option.some.injEq, Prod.mk.injEq] at h
    obtain ⟨rfl, rfl⟩ := h
    simp [leBytes]
  | succ n ih =>
    cases bs with
    | nil => simp [takeLe] at h
    | cons b bs =>
      simp only [takeLe] at h
      split at h
      · next w r hw =>
        simp only [Option.some.injEq, Prod.mk.injEq] at h
        obtain ⟨rfl, rfl⟩ := h
        obtain ⟨hlt, hbs⟩ := ih bs w hw
        have hb : b.toNat < 256 := b.isLt
        refine ⟨by rw [Nat.pow_succ]; omega, ?_⟩
        have h1 : (b.toNat + 256 * w) / 256 = w := by omega
        have h2 : BitVec.ofNat 8 (b.toNat + 256 * w) = b := by
          apply BitVec.eq_of_toNat_eq
          rw [BitVec.toNat_ofNat]; omega
        simp [leBytes, h1, h2, hbs]
      · simp at h

/-- Reading exactly the bytes that stand first. -/
theorem takeBytes_append (xs rest : List Byte) : takeBytes xs.length (xs ++ rest) = some (xs, rest) := by
  induction xs with
  | nil => rfl
  | cons b xs ih => simp [takeBytes, ih]

/-- What a successful read of bytes consumed. -/
theorem takeBytes_eq_some (n : Nat) (bs xs rest : List Byte) (h : takeBytes n bs = some (xs, rest)) :
    xs.length = n ∧ xs ++ rest = bs := by
  induction n generalizing bs xs with
  | zero =>
    simp only [takeBytes, Option.some.injEq, Prod.mk.injEq] at h
    obtain ⟨rfl, rfl⟩ := h
    simp
  | succ n ih =>
    cases bs with
    | nil => simp [takeBytes] at h
    | cons b bs =>
      simp only [takeBytes] at h
      split at h
      · next ys r hy =>
        simp only [Option.some.injEq, Prod.mk.injEq] at h
        obtain ⟨rfl, rfl⟩ := h
        obtain ⟨hlen, hbs⟩ := ih bs ys hy
        simp [hlen, hbs]
      · simp at h

/-- The payload is read back. -/
@[simp] theorem takePayload_toList (p : Payload) (rest : List Byte) :
    takePayload (p.toList ++ rest) = some (p, rest) := rfl

/-- What a successful read of a payload consumed. -/
theorem takePayload_eq_some (bs rest : List Byte) (p : Payload) (h : takePayload bs = some (p, rest)) :
    p.toList ++ rest = bs := by
  unfold takePayload at h
  split at h
  · simp only [Option.some.injEq, Prod.mk.injEq] at h
    obtain ⟨rfl, rfl⟩ := h
    rfl
  · simp at h

/-- The `flags` byte: nothing above bit 1, and its two bits are `ext` and `rtr` (R84, R99). -/
theorem Frame.flags_spec (f : Frame) :
    f.flags.toNat < 4 ∧ f.flags.getLsbD 0 = f.ext ∧ f.flags.getLsbD 1 = f.rtr := by
  unfold Frame.flags
  cases f.ext <;> cases f.rtr <;> decide

/-- A `flags` byte without reserved bits is the one its two bits make. -/
theorem flags_of_bits (flags : Byte) (h : flags.toNat < 4) :
    BitVec.ofNat 8 ((flags.getLsbD 0).toNat + 2 * (flags.getLsbD 1).toNat) = flags := by
  revert h
  revert flags
  decide

/-- An `F` image is read back (R84). -/
theorem decodeFrame_image (f : Frame) (rest : List Byte) : decodeFrame (f.image ++ rest) = .ok (f, rest) := by
  obtain ⟨hlt, hext, hrtr⟩ := f.flags_spec
  have hid : f.id.toNat < 256 ^ 4 := by simpa using f.id.isLt
  simp only [decodeFrame, Frame.image, List.append_assoc, List.cons_append, takeLe_leBytes_of_lt 4 _ _ hid,
    hlt, if_true, takePayload_toList, hext, hrtr, BitVec.ofNat_toNat, BitVec.setWidth_eq]

/-- What a successful read of an `F` image consumed. -/
theorem decodeFrame_eq_ok (bs rest : List Byte) (f : Frame) (h : decodeFrame bs = .ok (f, rest)) :
    f.image ++ rest = bs := by
  unfold decodeFrame at h
  split at h
  · simp at h
  · next id afterId hid =>
    split at h
    · simp at h
    · next flags afterFlags =>
      split at h
      · next hlt =>
        split at h
        · simp at h
        · next dlc afterDlc =>
          split at h
          · simp at h
          · next data r hdata =>
            simp only [Except.ok.injEq, Prod.mk.injEq] at h
            obtain ⟨rfl, rfl⟩ := h
            obtain ⟨hlt', hbs⟩ := takeLe_eq_some 4 bs _ id hid
            have hid' : (BitVec.ofNat 32 id).toNat = id := by
              rw [BitVec.toNat_ofNat]; exact Nat.mod_eq_of_lt (by simpa using hlt')
            have hp := takePayload_eq_some _ _ _ hdata
            simp only [Frame.image, Frame.flags, hid', flags_of_bits flags hlt, List.append_assoc,
              List.cons_append, hp]
            exact hbs
      · simp at h

/-- A `TF` image is read back (R85). -/
theorem decodeTimedFrame_image (tf : TimedFrame) (rest : List Byte) :
    decodeTimedFrame (tf.image ++ rest) = .ok (tf, rest) := by
  have hts : tf.ts.toNat < 256 ^ 8 := by simpa using tf.ts.isLt
  simp only [decodeTimedFrame, TimedFrame.image, List.append_assoc, takeLe_leBytes_of_lt 8 _ _ hts,
    decodeFrame_image, BitVec.ofNat_toNat, BitVec.setWidth_eq]

/-- What a successful read of a `TF` image consumed. -/
theorem decodeTimedFrame_eq_ok (bs rest : List Byte) (tf : TimedFrame)
    (h : decodeTimedFrame bs = .ok (tf, rest)) : tf.image ++ rest = bs := by
  unfold decodeTimedFrame at h
  split at h
  · simp at h
  · next ts afterTs hts =>
    split at h
    · simp at h
    · next f r hf =>
      simp only [Except.ok.injEq, Prod.mk.injEq] at h
      obtain ⟨rfl, rfl⟩ := h
      obtain ⟨hlt, hbs⟩ := takeLe_eq_some 8 bs _ ts hts
      have hts' : (BitVec.ofNat 64 ts).toNat = ts := by
        rw [BitVec.toNat_ofNat]; exact Nat.mod_eq_of_lt (by simpa using hlt)
      simp only [TimedFrame.image, hts', List.append_assoc, decodeFrame_eq_ok _ _ _ hf]
      exact hbs

/-- A well-formed timeout is read back from its word (R86, R99). -/
theorem Timeout.ofWord_toWord (t : Timeout) (h : t.wellFormed = true) : Timeout.ofWord t.toWord = t := by
  cases t with
  | forever => simp [Timeout.ofWord, Timeout.toWord]
  | after us =>
    have : us ≠ BitVec.allOnes 64 := by simpa only [Timeout.wellFormed, bne_iff_ne] using h
    exact if_neg this

/-- The timeout of any word is well formed, and is that word's. -/
theorem Timeout.toWord_ofWord (us : Word64) :
    (Timeout.ofWord us).wellFormed = true ∧ (Timeout.ofWord us).toWord = us := by
  unfold Timeout.ofWord
  split
  · next h => subst h; simp [Timeout.wellFormed, Timeout.toWord]
  · next h => exact ⟨by simpa only [Timeout.wellFormed, bne_iff_ne] using h, rfl⟩

/-! The rows of the operation table that have an operand block (R83). -/

theorem decode_tryEnqueue (bs : List Byte) : decode (0x30#8 :: bs) = decodeT .tryEnqueue bs := rfl
theorem decode_dequeue (bs : List Byte) : decode (0x31#8 :: bs) = decodeD .dequeue bs := rfl
theorem decode_encodeFrame (bs : List Byte) : decode (0x50#8 :: bs) = decodeE .encodeFrame bs := rfl
theorem decode_transportWrite (bs : List Byte) : decode (0x53#8 :: bs) = decodeB .transportWrite bs := rfl
theorem decode_evFrame (bs : List Byte) : decode (0x60#8 :: bs) = decodeF .evFrame bs := rfl
theorem decode_evAlert (bs : List Byte) : decode (0x63#8 :: bs) = decodeM .evAlert bs := rfl
theorem decode_evTime (bs : List Byte) : decode (0x64#8 :: bs) = decodeU .evTime bs := rfl

end Sys2Proof
end

