-- ==== Sys2Proof/Laws/PerInstr.lean ====
section
/-! SUPPORT. Statements made of every operation, one lemma per constructor. -/

namespace Sys2Proof.Laws

/-- The command word of an operation has one of the seven groups of R81, and the decoder finds the operation's row by it
(R82): whatever operand block follows, it is not a reserved command word. -/
def CommandWord.Statement (i : Instr) : Prop :=
  (commandGroup (commandWord i)).toNat ≤ 6 ∧ (encode i).head? = some (commandWord i)
    ∧ ∀ bs, decode (commandWord i :: bs) ≠ .error (.reservedCommand (commandWord i))

/-- A reader of an operand block never reports a reserved command word. -/
theorem decodeFrame_ne (bs : List Byte) (c : Byte) : decodeFrame bs ≠ .error (.reservedCommand c) := by
  unfold decodeFrame; repeat' split
  all_goals simp

theorem decodeTimedFrame_ne (bs : List Byte) (c : Byte) : decodeTimedFrame bs ≠ .error (.reservedCommand c) := by
  unfold decodeTimedFrame
  split
  · simp
  · split
    · next h => intro hc; exact decodeFrame_ne _ c (by rw [h]; simpa using hc)
    · simp

theorem decodeF_ne (mk : Frame → Instr) (bs : List Byte) (c : Byte) :
    decodeF mk bs ≠ .error (.reservedCommand c) := by
  unfold decodeF
  split
  · next h => intro hc; exact decodeFrame_ne _ c (by rw [h]; simpa using hc)
  · simp

theorem decodeT_ne (mk : TimedFrame → Instr) (bs : List Byte) (c : Byte) :
    decodeT mk bs ≠ .error (.reservedCommand c) := by
  unfold decodeT
  split
  · next h => intro hc; exact decodeTimedFrame_ne _ c (by rw [h]; simpa using hc)
  · simp

theorem decodeD_ne (mk : Timeout → Instr) (bs : List Byte) (c : Byte) :
    decodeD mk bs ≠ .error (.reservedCommand c) := by
  unfold decodeD; split <;> simp

theorem decodeM_ne (mk : AlertMask → Instr) (bs : List Byte) (c : Byte) :
    decodeM mk bs ≠ .error (.reservedCommand c) := by
  unfold decodeM; repeat' split
  all_goals simp

theorem decodeU_ne (mk : Word64 → Instr) (bs : List Byte) (c : Byte) :
    decodeU mk bs ≠ .error (.reservedCommand c) := by
  unfold decodeU; split <;> simp

theorem decodeE_ne (mk : Bool → TimedFrame → Word32 → Instr) (bs : List Byte) (c : Byte) :
    decodeE mk bs ≠ .error (.reservedCommand c) := by
  unfold decodeE
  split
  · simp
  · split
    · split
      · next h => intro hc; exact decodeTimedFrame_ne _ c (by rw [h]; simpa using hc)
      · split <;> simp
    · simp

theorem decodeB_ne (mk : List Byte → Instr) (bs : List Byte) (c : Byte) :
    decodeB mk bs ≠ .error (.reservedCommand c) := by
  unfold decodeB; repeat' split
  all_goals simp

theorem CommandWord.reset : CommandWord.Statement .reset :=
  ⟨by decide, rfl, fun bs h => nomatch h⟩

theorem CommandWord.launch : CommandWord.Statement .launch :=
  ⟨by decide, rfl, fun bs h => nomatch h⟩

theorem CommandWord.configure : CommandWord.Statement .configure :=
  ⟨by decide, rfl, fun bs h => nomatch h⟩

theorem CommandWord.restart : CommandWord.Statement .restart :=
  ⟨by decide, rfl, fun bs h => nomatch h⟩

theorem CommandWord.initRecovery : CommandWord.Statement .initRecovery :=
  ⟨by decide, rfl, fun bs h => nomatch h⟩

theorem CommandWord.receive : CommandWord.Statement .receive :=
  ⟨by decide, rfl, fun bs h => nomatch h⟩

theorem CommandWord.readStatus : CommandWord.Statement .readStatus :=
  ⟨by decide, rfl, fun bs h => nomatch h⟩

theorem CommandWord.readAlerts : CommandWord.Statement .readAlerts :=
  ⟨by decide, rfl, fun bs h => nomatch h⟩

theorem CommandWord.fmWait : CommandWord.Statement .fmWait :=
  ⟨by decide, rfl, fun bs h => nomatch h⟩

theorem CommandWord.hDataAvail : CommandWord.Statement .hDataAvail :=
  ⟨by decide, rfl, fun bs h => nomatch h⟩

theorem CommandWord.hRxqFull : CommandWord.Statement .hRxqFull :=
  ⟨by decide, rfl, fun bs h => nomatch h⟩

theorem CommandWord.hErrPassive : CommandWord.Statement .hErrPassive :=
  ⟨by decide, rfl, fun bs h => nomatch h⟩

theorem CommandWord.hBusError : CommandWord.Statement .hBusError :=
  ⟨by decide, rfl, fun bs h => nomatch h⟩

theorem CommandWord.hArbLost : CommandWord.Statement .hArbLost :=
  ⟨by decide, rfl, fun bs h => nomatch h⟩

theorem CommandWord.hBusOff : CommandWord.Statement .hBusOff :=
  ⟨by decide, rfl, fun bs h => nomatch h⟩

theorem CommandWord.hBusRecovered : CommandWord.Statement .hBusRecovered :=
  ⟨by decide, rfl, fun bs h => nomatch h⟩

theorem CommandWord.tryEnqueue (tf : TimedFrame) : CommandWord.Statement (.tryEnqueue tf) :=
  ⟨by simp [commandGroup, commandWord], rfl, fun bs => decodeT_ne _ bs _⟩

theorem CommandWord.dequeue (timeout : Timeout) : CommandWord.Statement (.dequeue timeout) :=
  ⟨by simp [commandGroup, commandWord], rfl, fun bs => decodeD_ne _ bs _⟩

theorem CommandWord.ingRecv : CommandWord.Statement .ingRecv :=
  ⟨by decide, rfl, fun bs h => nomatch h⟩

theorem CommandWord.ingEnq : CommandWord.Statement .ingEnq :=
  ⟨by decide, rfl, fun bs h => nomatch h⟩

theorem CommandWord.ingWake : CommandWord.Statement .ingWake :=
  ⟨by decide, rfl, fun bs h => nomatch h⟩

theorem CommandWord.encodeFrame (valid : Bool) (tf : TimedFrame) (cap : Word32) : CommandWord.Statement (.encodeFrame valid tf cap) :=
  ⟨by simp [commandGroup, commandWord], rfl, fun bs => decodeE_ne _ bs _⟩

theorem CommandWord.egrDeq : CommandWord.Statement .egrDeq :=
  ⟨by decide, rfl, fun bs h => nomatch h⟩

theorem CommandWord.egrEmit : CommandWord.Statement .egrEmit :=
  ⟨by decide, rfl, fun bs h => nomatch h⟩

theorem CommandWord.transportWrite (bytes : List Byte) : CommandWord.Statement (.transportWrite bytes) :=
  ⟨by simp [commandGroup, commandWord], rfl, fun bs => decodeB_ne _ bs _⟩

theorem CommandWord.evFrame (f : Frame) : CommandWord.Statement (.evFrame f) :=
  ⟨by simp [commandGroup, commandWord], rfl, fun bs => decodeF_ne _ bs _⟩

theorem CommandWord.evBusOff : CommandWord.Statement .evBusOff :=
  ⟨by decide, rfl, fun bs h => nomatch h⟩

theorem CommandWord.evRecoveryDone : CommandWord.Statement .evRecoveryDone :=
  ⟨by decide, rfl, fun bs h => nomatch h⟩

theorem CommandWord.evAlert (mask : AlertMask) : CommandWord.Statement (.evAlert mask) :=
  ⟨by simp [commandGroup, commandWord], rfl, fun bs => decodeM_ne _ bs _⟩

theorem CommandWord.evTime (t : Word64) : CommandWord.Statement (.evTime t) :=
  ⟨by simp [commandGroup, commandWord], rfl, fun bs => decodeU_ne _ bs _⟩

end Sys2Proof.Laws
end

