-- ==== Sys2Proof/Laws/Step.lean ====
section
/-! SUPPORT. What one step can do: wait, or execute one operation after the step's own preparation. -/

namespace Sys2Proof.Machine

open Sys2Proof.Safety

/-- The operation a task's sequencer allows is one of that task's own (R27). -/
theorem State.agentOp_may (s : State) (a : Agent) (i : Instr) (h : s.agentOp a = some i) :
    Issuer.may (.agent a) i = true := by
  cases a with
  | host =>
    simp only [State.agentOp, chosenOp] at h
    split at h
    · next hc => obtain rfl := Option.some.inj h; simp only [Bool.and_eq_true] at hc; exact hc.2
    · simp at h
  | env =>
    simp only [State.agentOp, chosenOp] at h
    split at h
    · next hc => obtain rfl := Option.some.inj h; simp only [Bool.and_eq_true] at hc; exact hc.2
    · simp at h
  | fm =>
    simp only [State.agentOp, State.fmOp] at h
    split at h
    · simp at h
    · obtain rfl := Option.some.inj h; rfl
    · obtain ⟨b, -, rfl⟩ := Option.map_eq_some_iff.mp h
      cases b <;> rfl
  | ing =>
    simp only [State.agentOp, State.ingOp] at h
    split at h
    · simp at h
    all_goals obtain rfl := Option.some.inj h; rfl
  | egr =>
    simp only [State.agentOp, State.egrOp] at h
    split at h
    · simp at h
    all_goals obtain rfl := Option.some.inj h; rfl

/-- The operation an agent takes fits the widths of R5: a task's carries no operand. -/
theorem State.agentOp_fits (s : State) (a : Agent) (i : Instr) (h : s.agentOp a = some i) : i.fits s.params = true := by
  have chosen : ∀ b j, chosenOp s.params b j = some i → i.fits s.params = true := by
    intro b j hj
    simp only [chosenOp] at hj
    split at hj
    · next hc => obtain rfl := Option.some.inj hj; simp only [Bool.and_eq_true] at hc; exact hc.1.2
    · simp at hj
  cases a with
  | host => exact chosen _ _ h
  | env => exact chosen _ _ h
  | fm =>
    simp only [State.agentOp, State.fmOp] at h
    split at h
    · simp at h
    · obtain rfl := Option.some.inj h; rfl
    · obtain ⟨b, -, rfl⟩ := Option.map_eq_some_iff.mp h
      cases b <;> rfl
  | ing =>
    simp only [State.agentOp, State.ingOp] at h
    split at h
    · simp at h
    all_goals obtain rfl := Option.some.inj h; rfl
  | egr =>
    simp only [State.agentOp, State.egrOp] at h
    split at h
    · simp at h
    all_goals obtain rfl := Option.some.inj h; rfl

/-- A record's step that gives a next state (R95, R96): its first operation, of an issuer that may issue it and with
operands that fit, is executed. -/
theorem issuedStep_next (r : Issue) (rest : List Issue) (s t : State) (h : issuedStep r rest s = .next t) :
    ∃ i after, decode r.bytes = .ok (i, after) ∧ r.issuer.may i = true ∧ i.fits s.params = true
      ∧ exec i (s.begin (r.leftover after ++ rest) r.draws) = .next t := by
  unfold issuedStep at h
  split at h
  · simp at h
  next i after hd =>
  split at h
  · simp at h
  next hm =>
  split at h
  · simp at h
  next hf => exact ⟨i, after, hd, by simpa using hm, by simpa using hf, h⟩

/-- Everything a step can do when it gives a next state: no agent has a step and nothing happens, or one operation that
its issuer may issue and whose operands fit is executed. -/
theorem step_next_cases (s t : State) (h : step s = .next t) :
    (s.pending = [] ∧ t = (s.begin [] {}).waits)
      ∨ (∃ a i, s.pending = [] ∧ Issuer.may (.agent a) i = true ∧ i.fits s.params = true
          ∧ exec i (s.begin [] {}) = .next t)
      ∨ ∃ r rest i after, s.pending = r :: rest ∧ decode r.bytes = .ok (i, after) ∧ r.issuer.may i = true
          ∧ i.fits s.params = true ∧ exec i (s.begin (r.leftover after ++ rest) r.draws) = .next t := by
  unfold step at h
  split at h
  · next hp =>
    unfold freeStep at h
    split at h
    · exact .inl ⟨hp, by simpa using h.symm⟩
    · next i hi => exact .inr (.inl ⟨_, i, hp, State.agentOp_may s _ i hi, State.agentOp_fits s _ i hi, h⟩)
  · next r rest hp =>
    obtain ⟨i, after, hd, hm, hf, he⟩ := issuedStep_next r rest s t h
    exact .inr (.inr ⟨r, rest, i, after, hp, hd, hm, hf, he⟩)

/-- A whole-block step executes no inner operation by itself (R96). -/
theorem step_next_wholeBlock (s t : State) (hw : WholeBlock s) (h : step s = .next t) :
    t = (s.begin [] {}).waits
      ∨ ∃ i rest draws, i.inner = false ∧ (∀ r ∈ rest, r.issuer ≠ .harness)
          ∧ exec i (s.begin rest draws) = .next t := by
  have inner_of_may : ∀ a i, Issuer.may (.agent a) i = true → i.inner = false := by
    intro a i hm; simp only [Issuer.may, Bool.and_eq_true, Bool.not_eq_true'] at hm; exact hm.2
  rcases step_next_cases s t h with ⟨-, rfl⟩ | ⟨a, i, -, hm, -, he⟩ | ⟨r, rest, i, after, hp, -, hm, -, he⟩
  · exact .inl rfl
  · exact .inr ⟨i, [], {}, inner_of_may a i hm, by simp, he⟩
  · have hr : r.issuer ≠ .harness := hw r (by simp [hp])
    have hrest : ∀ x ∈ rest, x.issuer ≠ .harness := fun x hx => hw x (by simp [hp, hx])
    refine .inr ⟨i, _, _, ?_, ?_, he⟩
    · cases hi : r.issuer with
      | harness => exact absurd hi hr
      | agent a => exact inner_of_may a i (hi ▸ hm)
    · intro x hx
      rcases List.mem_append.mp hx with hx | hx
      · cases after with
        | nil => simp [Issue.leftover] at hx
        | cons b bs =>
          simp only [Issue.leftover, List.mem_singleton] at hx
          subst hx; exact hr
      · exact hrest x hx

/-- What one step of a run does: an agent's own operation, no inner one, is executed in the prepared state (R96, R250). -/
theorem Run.step_exec (states : Nat → State) (issues : Nat → Issue) (h : Run states issues) (n : Nat) :
    ∃ i rest, (issues n).issuer = .agent i.owner ∧ i.inner = false ∧ decode (issues n).bytes = .ok (i, rest)
      ∧ exec i ((states n).begin ((issues n).leftover rest) (issues n).draws) = .next (states (n + 1)) := by
  obtain ⟨hne, hs⟩ := h n
  obtain ⟨i, rest, hd, hm, -, he⟩ := issuedStep_next (issues n) [] _ _ hs
  cases hi : (issues n).issuer with
  | harness => exact absurd hi hne
  | agent a =>
    simp only [hi, Issuer.may, Bool.and_eq_true, decide_eq_true_eq, Bool.not_eq_true'] at hm
    exact ⟨i, rest, by rw [hm.1], hm.2, hd, by rw [List.append_nil] at he; exact he⟩

end Sys2Proof.Machine
end

