-- ==== Sys2Proof/Tests/Slice0.lean ====
section
/-! SUPPORT. Tests, each of one step on a small state, with the expected values of spec/95_test_vectors.md (the vector is
named in the test's comment), and for each statement of Obligations.lean that has hypotheses a state and operands that
meet them, clause by clause. -/

namespace Sys2Proof.Tests

open Sys2Proof.Machine Sys2Proof.Safety

/-! ### The small states -/

/-- The parameters of spec/95_test_vectors.md section 0, with small queues. -/
def cfg : Params :=
  { capacity := 2, warnWindowUs := 1000000, backoffUs := 5000, hwqDepth := 2, hwqOnRecovery := .preserve
    timingProfile := ⟨0⟩, stbyPin := 0, stbyActiveLevel := false, logVerbosity := .debug, outCap := 128
    alertBit := Config.alertBit, alertOrder := Config.alertOrder, filter := .acceptAll, dropWidth := 32, idWidth := 32
    dlcWidth := 8, tsWidth := 64, payloadMax := 8, alertCount := 7 }

/-- Benign draws. -/
def benign : Draws :=
  { cfgFail := some .none, restart := some .ok, recovery := some .ok, rxFault := some .noFault
    statusFails := some false, statusValue := some ⟨7⟩, deqExpired := some false, txOk := some true
    resetTime := some 0#64, resetStby := some true, resetTiming := some ⟨0⟩ }

/-- After `RESET`, with the draws fixed. -/
def base : State :=
  { State.reset with
    params := cfg, fixed := benign, timeUs := 0#64, stby := true, drvCfg := ⟨false, ⟨0⟩⟩, status := ⟨7⟩ }

/-- After a successful `CONFIGURE`. -/
def configured : State :=
  { base with
    chAlloc := true, pinCfg := true, stby := false, ctrl := .running, alertEn := 0x7F#7, cfgDone := true }

/-- The boot state of R242. -/
def boot : State := { configured with launched := true, fmSeq := .wait, ingSeq := .recv, egrSeq := .deq }

/-- The state an operation leaves, or the state before where it gives none. -/
def after (i : Instr) (s : State) : State :=
  match exec i s with
  | .next t => t
  | .fault _ => s
  | .refused _ => s

/-- Whether an operation is refused with this reason. -/
def refuses (i : Instr) (s : State) (r : Refusal) : Bool :=
  match exec i s with
  | .next _ => false
  | .fault _ => false
  | .refused x => decide (x = r)

/-- The frames of spec/95_test_vectors.md section 0. -/
def frameS : Frame := ⟨0x123#32, false, false, 2#8, ⟨0xAB#8, 0xCD#8, 0#8, 0#8, 0#8, 0#8, 0#8, 0#8⟩⟩
def frameA : Frame := ⟨0x100#32, false, false, 1#8, ⟨0xA1#8, 0#8, 0#8, 0#8, 0#8, 0#8, 0#8, 0#8⟩⟩
def frameB : Frame := ⟨0x101#32, false, false, 1#8, ⟨0xB2#8, 0#8, 0#8, 0#8, 0#8, 0#8, 0#8, 0#8⟩⟩
def frameC : Frame := ⟨0x102#32, false, false, 1#8, ⟨0xC3#8, 0#8, 0#8, 0#8, 0#8, 0#8, 0#8, 0#8⟩⟩

/-- `1000@S`, `100@A`, `200@B`, `300@Cf`. -/
def tfS : TimedFrame := ⟨1000#64, frameS⟩
def tfA : TimedFrame := ⟨100#64, frameA⟩
def tfB : TimedFrame := ⟨200#64, frameB⟩
def tfC : TimedFrame := ⟨300#64, frameC⟩

/-- The Fault Monitor handling a mask. -/
def dispatching (m : AlertMask) (s : State) : State := { s with fmSeq := .dispatch m }

/-! ### Well-formedness: each check refuses an ill-formed term -/

theorem test_wf_evAlert_zero : Instr.wellFormed (.evAlert 0#7) = false := by decide
theorem test_wf_evAlert_all : Instr.wellFormed (.evAlert 0x7F#7) = true := by decide
theorem test_wf_dequeue_forever_pattern :
    Instr.wellFormed (.dequeue (.after 0xFFFFFFFFFFFFFFFF#64)) = false := by decide
theorem test_wf_dequeue_longest : Instr.wellFormed (.dequeue (.after 0xFFFFFFFFFFFFFFFE#64)) = true := by decide
theorem test_wf_transportWrite_long (bs : List Byte) (h : bs.length = 2 ^ 32) :
    Instr.wellFormed (.transportWrite bs) = false := by simp [Instr.wellFormed, h]
theorem test_params_wf : cfg.wf = true ∧ Params.wf { cfg with capacity := 0 } = false
    ∧ Params.wf { cfg with hwqDepth := 0 } = false ∧ Params.wf { cfg with backoffUs := 0 } = false
    ∧ Params.wf { cfg with alertOrder := cfg.alertOrder.tail } = false := by decide

/-! ### Decoding: the words of V-ENCD-1 and V-ENCD-2 -/

theorem test_decode_reset : decode [0x01#8] = .ok (.reset, []) := by decide
theorem test_decode_launch : decode [0x02#8] = .ok (.launch, []) := by decide
theorem test_decode_configure : decode [0x10#8] = .ok (.configure, []) := by decide
theorem test_decode_restart : decode [0x11#8] = .ok (.restart, []) := by decide
theorem test_decode_initRecovery : decode [0x12#8] = .ok (.initRecovery, []) := by decide
theorem test_decode_receive : decode [0x13#8] = .ok (.receive, []) := by decide
theorem test_decode_readStatus : decode [0x14#8] = .ok (.readStatus, []) := by decide
theorem test_decode_readAlerts : decode [0x15#8] = .ok (.readAlerts, []) := by decide
theorem test_decode_fmWait : decode [0x20#8] = .ok (.fmWait, []) := by decide
theorem test_decode_hDataAvail : decode [0x21#8] = .ok (.hDataAvail, []) := by decide
theorem test_decode_hRxqFull : decode [0x22#8] = .ok (.hRxqFull, []) := by decide
theorem test_decode_hErrPassive : decode [0x23#8] = .ok (.hErrPassive, []) := by decide
theorem test_decode_hBusError : decode [0x24#8] = .ok (.hBusError, []) := by decide
theorem test_decode_hArbLost : decode [0x25#8] = .ok (.hArbLost, []) := by decide
theorem test_decode_hBusOff : decode [0x26#8] = .ok (.hBusOff, []) := by decide
theorem test_decode_hBusRecovered : decode [0x27#8] = .ok (.hBusRecovered, []) := by decide
theorem test_decode_ingRecv : decode [0x40#8] = .ok (.ingRecv, []) := by decide
theorem test_decode_ingEnq : decode [0x41#8] = .ok (.ingEnq, []) := by decide
theorem test_decode_ingWake : decode [0x42#8] = .ok (.ingWake, []) := by decide
theorem test_decode_egrDeq : decode [0x51#8] = .ok (.egrDeq, []) := by decide
theorem test_decode_egrEmit : decode [0x52#8] = .ok (.egrEmit, []) := by decide
theorem test_decode_evBusOff : decode [0x61#8] = .ok (.evBusOff, []) := by decide
theorem test_decode_evRecoveryDone : decode [0x62#8] = .ok (.evRecoveryDone, []) := by decide

theorem test_decode_tryEnqueue :
    decode [0x30#8, 0x64#8, 0#8, 0#8, 0#8, 0#8, 0#8, 0#8, 0#8, 0x00#8, 0x01#8, 0#8, 0#8, 0x00#8, 0x01#8, 0xA1#8, 0#8,
        0#8, 0#8, 0#8, 0#8, 0#8, 0#8] = .ok (.tryEnqueue tfA, []) := by decide
theorem test_decode_tryEnqueue_ones :
    decode (0x30#8 :: (List.replicate 12 0xFF#8 ++ 0x03#8 :: List.replicate 9 0xFF#8))
      = .ok (.tryEnqueue ⟨0xFFFFFFFFFFFFFFFF#64, ⟨0xFFFFFFFF#32, true, true, 0xFF#8,
          ⟨0xFF#8, 0xFF#8, 0xFF#8, 0xFF#8, 0xFF#8, 0xFF#8, 0xFF#8, 0xFF#8⟩⟩⟩, []) := by decide
theorem test_decode_dequeue_forever :
    decode (0x31#8 :: List.replicate 8 0xFF#8) = .ok (.dequeue .forever, []) := by decide
theorem test_decode_dequeue_5000 :
    decode [0x31#8, 0x88#8, 0x13#8, 0#8, 0#8, 0#8, 0#8, 0#8, 0#8] = .ok (.dequeue (.after 5000#64), []) := by decide
theorem test_decode_encodeFrame :
    decode [0x50#8, 0x01#8, 0xE8#8, 0x03#8, 0#8, 0#8, 0#8, 0#8, 0#8, 0#8, 0x23#8, 0x01#8, 0#8, 0#8, 0x00#8, 0x02#8,
        0xAB#8, 0xCD#8, 0#8, 0#8, 0#8, 0#8, 0#8, 0#8, 0x80#8, 0#8, 0#8, 0#8]
      = .ok (.encodeFrame true tfS 128#32, []) := by decide
theorem test_decode_transportWrite :
    decode [0x53#8, 0x02#8, 0#8, 0#8, 0#8, 0x7B#8, 0x22#8, 0x26#8]
      = .ok (.transportWrite [0x7B#8, 0x22#8], [0x26#8]) := by decide
theorem test_decode_evFrame :
    decode [0x60#8, 0x10#8, 0xF1#8, 0xDA#8, 0x18#8, 0x01#8, 0x0F#8, 0#8, 1#8, 2#8, 3#8, 4#8, 5#8, 6#8, 7#8]
      = .ok (.evFrame ⟨0x18DAF110#32, true, false, 15#8, ⟨0#8, 1#8, 2#8, 3#8, 4#8, 5#8, 6#8, 7#8⟩⟩, []) := by decide
theorem test_decode_evFrame_remote :
    decode (0x60#8 :: 0xFF#8 :: 0x07#8 :: 0#8 :: 0#8 :: 0x02#8 :: List.replicate 9 0#8)
      = .ok (.evFrame ⟨0x7FF#32, false, true, 0#8, ⟨0#8, 0#8, 0#8, 0#8, 0#8, 0#8, 0#8, 0#8⟩⟩, []) := by decide
theorem test_decode_evAlert :
    decode [0x63#8, 0x0C#8] = .ok (.evAlert (Config.alertBit.mask .busError ||| Config.alertBit.mask .errPassive), []) := by decide
theorem test_decode_evTime :
    decode [0x64#8, 0x40#8, 0x42#8, 0x0F#8, 0#8, 0#8, 0#8, 0#8, 0#8] = .ok (.evTime 1000000#64, []) := by decide

/-- V-ENCD-4: the two ends of each reserved range. -/
theorem test_decode_reserved_commands :
    ([0x00#8, 0x03#8, 0x0F#8, 0x16#8, 0x1F#8, 0x28#8, 0x2F#8, 0x32#8, 0x3F#8, 0x43#8, 0x4F#8, 0x54#8, 0x5F#8, 0x65#8,
        0x6F#8, 0x70#8, 0xFF#8] : List Byte).all (fun c => decide (decode [c] = .error (.reservedCommand c)))
      = true := by decide
/-- V-ENCD-4. -/
theorem test_decode_reserved_masks : decode [0x63#8, 0x00#8] = .error (.reservedMask 0x00#8)
    ∧ decode [0x63#8, 0x80#8] = .error (.reservedMask 0x80#8)
    ∧ decode [0x63#8, 0xA0#8] = .error (.reservedMask 0xA0#8) := by decide
/-- V-ENCD-4. -/
theorem test_decode_reserved_flags :
    decode [0x60#8, 0x23#8, 0x01#8, 0#8, 0#8, 0x04#8, 0x02#8, 0xAB#8, 0xCD#8, 0#8, 0#8, 0#8, 0#8, 0#8, 0#8]
      = .error (.reservedFlags 0x04#8) ∧ decode [0x50#8, 0x02#8] = .error (.reservedValid 0x02#8)
    ∧ decode [0x60#8, 0x23#8, 0x01#8, 0#8, 0#8, 0x04#8] = .error (.reservedFlags 0x04#8) := by decide
/-- R80: a block cut short is no instance (log 15). -/
theorem test_decode_truncated : decode [] = .error .noBytes ∧ decode [0x64#8, 0x01#8] = .error .truncated
    ∧ decode [0x53#8, 0x02#8, 0#8, 0#8, 0#8, 0x7B#8] = .error .truncated := by decide
/-- The encoder gives the same words (V-ENCD-2). -/
theorem test_encode : encode (.dequeue (.after 5000#64)) = [0x31#8, 0x88#8, 0x13#8, 0#8, 0#8, 0#8, 0#8, 0#8, 0#8]
    ∧ encode (.evAlert 0x20#7) = [0x63#8, 0x20#8]
    ∧ encode (.encodeFrame true tfS 128#32) = [0x50#8, 0x01#8, 0xE8#8, 0x03#8, 0#8, 0#8, 0#8, 0#8, 0#8, 0#8, 0x23#8,
        0x01#8, 0#8, 0#8, 0x00#8, 0x02#8, 0xAB#8, 0xCD#8, 0#8, 0#8, 0#8, 0#8, 0#8, 0#8, 0x80#8, 0#8, 0#8, 0#8] := by
  decide
/-- R81: `0x26` is group 2, operation 6. -/
theorem test_command_fields : commandGroup 0x26#8 = 2#4 ∧ commandOp 0x26#8 = 6#4 := by decide
/-- Table words number the first byte lowest. -/
theorem test_decodeTableWord : decodeTableWord 8 0x26 = some .hBusOff
    ∧ decodeTableWord 16 0x2063 = some (.evAlert 0x20#7) ∧ decodeTableWord 8 0x64 = some (.evTime 0#64)
    ∧ decodeTableWord 8 0x53 = some (.transportWrite []) ∧ decodeTableWord 8 0x03 = none := by decide

/-! ### The step -/

/-- A record runs its operation. -/
theorem test_step_record :
    step { boot with pending := [⟨.agent .env, [0x64#8, 0xE8#8, 0x03#8, 0#8, 0#8, 0#8, 0#8, 0#8, 0#8], benign⟩] }
      = .next { boot with drawIdx := 1, timeUs := 1000#64 } := by rfl
/-- V-HOST-3. -/
theorem test_step_wrongIssuer : step { boot with pending := [⟨.agent .host, [0x11#8], {}⟩] } = .refused .wrongIssuer
    ∧ step { boot with pending := [⟨.agent .ing, [0x26#8], {}⟩] } = .refused .wrongIssuer
    ∧ step { boot with pending := [⟨.agent .fm, [0x11#8], {}⟩] } = .refused .wrongIssuer := ⟨rfl, rfl, rfl⟩
/-- V-ENCD-4: refused by the step. -/
theorem test_step_reserved : step { boot with pending := [⟨.harness, [0x63#8, 0x00#8], {}⟩] }
    = .refused (.reservedEncoding (.reservedMask 0x00#8)) := rfl
/-- Two rows of R202 at once: the encoding is looked at before the issuer, the issuer before the operation (log 33). -/
theorem test_step_refusal_order : step { boot with pending := [⟨.agent .fm, [0x63#8, 0x00#8], {}⟩] }
    = .refused (.reservedEncoding (.reservedMask 0x00#8))
    ∧ step { boot with pending := [⟨.agent .fm, [0x10#8], {}⟩] } = .refused .wrongIssuer := ⟨rfl, rfl⟩
/-- R5 `ID_W`, `TS_W`: narrower widths (log 8). -/
theorem test_fits : Instr.fits { cfg with idWidth := 11 } (.evFrame { frameS with id := 0x7FF#32 }) = true
    ∧ Instr.fits { cfg with idWidth := 11 } (.evFrame { frameS with id := 0x800#32 }) = false
    ∧ Instr.fits { cfg with tsWidth := 32 } (.evTime 0x100000000#64) = false
    ∧ Instr.fits cfg (.evTime 0xFFFFFFFFFFFFFFFF#64) = true := by decide

/-! ### Host steps -/

/-- V-HOST-1. -/
theorem test_reset : (fun t : State => (t.drop, t.q, t.lastWarn, t.ctrl, t.alertEn, t.fault))
      (after .reset { boot with drop := 5, q := [tfA], lastWarn := 2000000#64, fault := true })
    = (0, [], 0#64, .uninstalled, 0#7, false) := by decide
/-- V-HOST-2. -/
theorem test_launch : (fun t : State => (t.fmSeq, t.ingSeq, t.egrSeq, t.launched)) (after .launch configured)
    = (.wait, .recv, .deq, true) := by decide
/-- V-HOST-2. -/
theorem test_launch_refused :
    refuses .launch base .launchWithoutConfigure = true ∧ refuses .launch boot .launchTwice = true := by decide

/-! ### Peripheral Controller -/

/-- V-PC-1, row `None`. -/
theorem test_configure : after .configure base = { configured with result := .res .ok } := by decide
/-- V-PC-1, row 4; V-PC-2. -/
theorem test_configure_failed :
    after .configure { base with fixed := { benign with cfgFail := some .alertCfg } }
    = { base with
        fixed := { benign with cfgFail := some .alertCfg }, chAlloc := true, pinCfg := true, stby := false
        ctrl := .stopped, fault := true, log := [⟨.host, .cfgFail, .step .alertCfg⟩]
        result := .res (.err (.cfgFail .alertCfg)) } := by decide
/-- V-PC-1, the result byte of row 4; V-PC-2. -/
theorem test_configure_after_failure : (Result.res (.err (.cfgFail .alertCfg))).image = some [0x14#8]
    ∧ refuses .configure { base with fault := true } .configureAfterFailure = true
    ∧ refuses .configure boot .reconfigureAtRuntime = true := by decide
/-- V-PC-3. -/
theorem test_restart : (fun t : State => (t.ctrl, t.result)) (after .restart { boot with ctrl := .stopped })
    = (.running, .res .ok) := by decide
/-- V-PC-3. -/
theorem test_restart_notReady : (fun t : State => (t.ctrl, t.result)) (after .restart { boot with ctrl := .busOff })
    = (.busOff, .res (.err .notReady)) := by decide
/-- V-PC-4. -/
theorem test_initRecovery : (fun t : State => (t.ctrl, t.bhs, t.result))
    (after .initRecovery { boot with ctrl := .busOff }) = (.recovering, .normal, .res .ok) := by decide
/-- V-PC-4. -/
theorem test_initRecovery_outstanding : (fun t : State => (t.ctrl, t.result))
    (after .initRecovery { boot with ctrl := .recovering }) = (.recovering, .res (.err .notReady)) := by decide
/-- V-PC-5, row 1. -/
theorem test_receive : (fun t : State => (t.hwq, t.result)) (after .receive { boot with hwq := [frameS, frameA] })
    = ([frameA], .received frameS) := by decide
/-- V-PC-5, last row: the fault draw is looked at first. -/
theorem test_receive_fault : (fun t : State => (t.hwq, t.result)) (after .receive { boot with
    ctrl := .busOff, hwq := [frameS], fixed := { benign with rxFault := some .fail } })
    = ([frameS], .receiveFailed .fail) := by decide
/-- V-PC-6. -/
theorem test_readStatus : (after .readStatus boot).result = .statusRead (some ⟨7⟩)
    ∧ (after .readStatus base).result = .statusRead none := by decide
/-- V-PC-7. -/
theorem test_readAlerts : (fun t : State => (t.alertPend, t.result))
    (after .readAlerts { boot with alertPend := 0x60#7 }) = (0#7, .alerts 0x60#7)
    ∧ (after .readAlerts boot).result = .blocked := by decide

/-! ### Fault Monitor -/

/-- V-FM-1. -/
theorem test_fmWait : (fun t : State => (t.alertPend, t.fmSeq)) (after .fmWait { boot with alertPend := 0x20#7 })
    = (0#7, .dispatch 0x20#7) ∧ after .fmWait boot = { boot with result := .blocked } := by decide
/-- V-FM-2. -/
theorem test_nextAlert :
    [0x7F#7, 0x7E#7, 0x7C#7, 0x0C#7, 0x74#7, 0x70#7, 0x60#7, 0x40#7].map (nextAlert cfg)
      = [some .dataAvail, some .rxqFull, some .busError, some .busError, some .errPassive, some .arbLost,
        some .busOff, some .busRecovered] := by decide
/-- R5 `ALERT_BIT`: with bits 5 and 6 exchanged, bit 6 is the bus-off alert's. -/
def swapped : AlertBits :=
  { Config.alertBit with
    busOff := 6, busRecovered := 5, distinct := by decide }
theorem test_alertBit : (fun t : State => (t.alertPend, t.ctrl))
      (after .evBusOff { boot with params := { cfg with alertBit := swapped } }) = (0x40#7, .busOff)
    ∧ nextAlert { cfg with alertBit := swapped } 0x40#7 = some .busOff := by decide
/-- V-FM-3. -/
theorem test_hDataAvail : after .hDataAvail (dispatching 0x01#7 boot) = boot := by decide
/-- V-FM-3. -/
theorem test_hRxqFull : after .hRxqFull (dispatching 0x02#7 boot)
    = { boot with log := [⟨.fm, .rxqFull, .none⟩] } := by decide
/-- V-FM-10, the third handler. -/
theorem test_hBusError : (fun t : State => (t.fmSeq, t.log)) (after .hBusError (dispatching 0x3C#7 boot))
    = (.dispatch 0x34#7, [⟨.fm, .busError, .status (some ⟨7⟩)⟩]) := by decide
/-- V-FM-3: a failed status fetch. -/
theorem test_hErrPassive : (fun t : State => (t.fmSeq, t.log))
    (after .hErrPassive (dispatching 0x04#7 { boot with fixed := { benign with statusFails := some true } }))
    = (.wait, [⟨.fm, .errPassive, .status none⟩]) := by decide
/-- V-FM-3. -/
theorem test_hArbLost : (fun t : State => (t.fmSeq, t.log)) (after .hArbLost (dispatching 0x10#7 boot))
    = (.wait, [⟨.fm, .arbLost, .none⟩]) := by decide
/-- V-FM-5. -/
theorem test_hBusOff : (fun t : State => (t.ctrl, t.bhs, t.log, t.fmSeq))
    (after .hBusOff (dispatching 0x20#7 { boot with ctrl := .busOff }))
    = (.recovering, .recovering, [⟨.fm, .busOffRecoveryStarted, .none⟩], .wait) := by decide
/-- V-FM-6: no second recovery. -/
theorem test_hBusOff_again : (fun t : State => (t.ctrl, t.bhs, t.log, t.fmSeq))
    (after .hBusOff (dispatching 0x20#7 { boot with ctrl := .recovering, bhs := .recovering }))
    = (.recovering, .recovering, [], .wait) := by decide
/-- V-FM-9, row 1; V-FM-4: not before `H_BUS_OFF`. -/
theorem test_hBusRecovered : (fun t : State => (t.ctrl, t.bhs, t.log))
    (after .hBusRecovered (dispatching 0x40#7 { boot with ctrl := .stopped, bhs := .recovering }))
    = (.running, .normal, [⟨.fm, .busRecoveredRestarted, .none⟩])
    ∧ (after .hBusRecovered (dispatching 0x60#7 boot)).result = .blocked := by decide
/-- V-FM-9, row 3. -/
theorem test_hBusRecovered_early : (fun t : State => (t.ctrl, t.bhs, t.log))
    (after .hBusRecovered (dispatching 0x40#7 { boot with ctrl := .recovering, bhs := .recovering }))
    = (.recovering, .recovering, [⟨.fm, .restartFailed, .err .notReady⟩]) := by decide

/-! ### Frame Channel -/

/-- V-FC-1. -/
theorem test_tryEnqueue : (fun t : State => (t.q, t.drop, t.result.image))
    (after (.tryEnqueue tfB) { boot with q := [tfA] }) = ([tfA, tfB], 0, some [0x01#8]) := by decide
/-- V-FC-4 and V-FC-5, row 3: saturation, and a warning once the window has elapsed. -/
theorem test_tryEnqueue_full : (fun t : State => (t.q, t.drop, t.lastWarn, t.log, t.result))
    (after (.tryEnqueue tfC) { boot with q := [tfA, tfB], drop := 4294967294, timeUs := 1000000#64 })
    = ([tfA, tfB], 4294967295, 1000000#64, [⟨.ing, .chanDrop, .drop 4294967295⟩], .accepted false) := by decide
/-- V-FC-6; V-ENCD-5. -/
theorem test_dequeue : (fun t : State => (t.q, t.result.image)) (after (.dequeue .forever) { boot with q := [tfA, tfB] })
    = ([tfB], some [0x01#8, 0x64#8, 0#8, 0#8, 0#8, 0#8, 0#8, 0#8, 0#8, 0x00#8, 0x01#8, 0#8, 0#8, 0x00#8, 0x01#8, 0xA1#8,
        0#8, 0#8, 0#8, 0#8, 0#8, 0#8, 0#8]) := by decide
/-- V-FC-6, V-FC-7. -/
theorem test_dequeue_empty : (after (.dequeue (.after 0#64)) boot).result = .dequeued none
    ∧ (after (.dequeue .forever) boot).result = .blocked ∧ (after (.dequeue (.after 5000#64)) boot).result = .blocked
    ∧ refuses (.dequeue .forever) base .channelNotConstructed = true := by decide
/-- V-FC-9: the ring wraps once. -/
theorem test_ring : ((((QueueRing.atReset [tfA, tfA]).push tfA).push tfB).pop.map
    (fun r => (r.2.push tfC).pop.map (fun r' => (r.1, r'.1, r'.2.queue)))) = some (some (tfA, tfB, [tfC])) := by decide

/-! ### Ingress -/

/-- V-ING-1. -/
theorem test_ingRecv : (fun t : State => (t.ingSeq, t.hwq, t.nrLogged))
    (after .ingRecv { boot with timeUs := 1000#64, hwq := [frameS], nrLogged := true })
    = (.held tfS, [], false) := by decide
/-- V-ING-3. -/
theorem test_ingRecv_notReady : (fun t : State => (t.ingSeq, t.nrLogged, t.log))
    (after .ingRecv { boot with timeUs := 1000#64, ctrl := .busOff })
    = (.backoff 6000, true, [⟨.ing, .rxNotReady, .bhs .normal⟩]) := by decide
/-- V-ING-1, V-ING-6. -/
theorem test_ingEnq : (fun t : State => (t.q, t.ingSeq, t.drop)) (after .ingEnq { boot with ingSeq := .held tfS })
    = ([tfS], .recv, 0)
    ∧ (fun t : State => (t.q, t.ingSeq, t.drop)) (after .ingEnq { boot with ingSeq := .held tfC, q := [tfA, tfB] })
    = ([tfA, tfB], .recv, 1) := by decide
/-- V-ING-3: at 5999 blocked, at 6000 enabled. -/
theorem test_ingWake :
    (after .ingWake { boot with ingSeq := .backoff 6000, timeUs := 5999#64 }).ingSeq = .backoff 6000
    ∧ (after .ingWake { boot with ingSeq := .backoff 6000, timeUs := 6000#64 }).ingSeq = .recv := by decide

/-! ### Encoder and Egress -/

/-- E6, the document's scenario. -/
theorem test_record_scenario : record 8 tfS
    = [0x7B#8, 0x22#8, 0x74#8, 0x79#8, 0x70#8, 0x65#8, 0x22#8, 0x3A#8, 0x22#8, 0x63#8, 0x61#8, 0x6E#8, 0x22#8, 0x2C#8,
        0x22#8, 0x74#8, 0x73#8, 0x5F#8, 0x75#8, 0x73#8, 0x22#8, 0x3A#8, 0x31#8, 0x30#8, 0x30#8, 0x30#8]
      ++ [0x2C#8, 0x22#8, 0x69#8, 0x64#8, 0x22#8, 0x3A#8, 0x32#8, 0x39#8, 0x31#8, 0x2C#8, 0x22#8, 0x65#8, 0x78#8,
        0x74#8, 0x22#8, 0x3A#8, 0x66#8, 0x61#8, 0x6C#8, 0x73#8, 0x65#8, 0x2C#8, 0x22#8, 0x72#8, 0x74#8, 0x72#8]
      ++ [0x22#8, 0x3A#8, 0x66#8, 0x61#8, 0x6C#8, 0x73#8, 0x65#8, 0x2C#8, 0x22#8, 0x64#8, 0x6C#8, 0x63#8, 0x22#8,
        0x3A#8, 0x32#8, 0x2C#8, 0x22#8, 0x64#8, 0x61#8, 0x74#8, 0x61#8, 0x22#8, 0x3A#8, 0x22#8, 0x41#8, 0x42#8]
      ++ [0x43#8, 0x44#8, 0x22#8, 0x7D#8, 0x0A#8] := by decide
/-- V-ENC-2, V-ENC-8, V-ENC-11: the longest and the shortest record, and the clamp. -/
theorem test_record_lengths :
    [(⟨0xFFFFFFFFFFFFFFFF#64, ⟨0xFFFFFFFF#32, false, false, 8#8, frameS.data⟩⟩ : TimedFrame),
      ⟨0#64, ⟨0#32, true, true, 0#8, frameS.data⟩⟩, ⟨1000#64, { frameS with dlc := 255#8 }⟩].map
        (fun tf => (record 8 tf).length) = [118, 72, 95] := by decide
/-- V-ENC-9: every digit, upper case, high nibble first. -/
theorem test_hex : [0x01#8, 0x23#8, 0x45#8, 0x67#8, 0x89#8, 0xAB#8, 0xCD#8, 0xEF#8].flatMap hex2
    = [0x30#8, 0x31#8, 0x32#8, 0x33#8, 0x34#8, 0x35#8, 0x36#8, 0x37#8, 0x38#8, 0x39#8, 0x41#8, 0x42#8, 0x43#8, 0x44#8,
      0x45#8, 0x46#8] := by decide
/-- V-ENC-13, `cap = 16`. -/
theorem test_encodeFrame : (fun t : State => (t.result, Memory.readBytes t.outbuf 0 16, Memory.read? t.outbuf 16))
    (after (.encodeFrame true tfS 16#32) boot)
    = (.length 16#32, some [0x7B#8, 0x22#8, 0x74#8, 0x79#8, 0x70#8, 0x65#8, 0x22#8, 0x3A#8, 0x22#8, 0x63#8, 0x61#8,
        0x6E#8, 0x22#8, 0x2C#8, 0x22#8, 0x74#8], none) := by decide
/-- V-ENC-12. -/
theorem test_encodeFrame_null : after (.encodeFrame false tfS 128#32) boot = { boot with result := .length 0#32 }
    ∧ after (.encodeFrame true tfS 0#32) boot = { boot with result := .length 0#32 } := by decide
/-- V-EGR-1. -/
theorem test_egrDeq : (fun t : State => (t.q, t.egrSeq)) (after .egrDeq { boot with q := [tfS] })
    = ([], .held tfS) ∧ (after .egrDeq boot).result = .blocked := by decide
/-- V-EGR-1. -/
theorem test_egrEmit : (fun t : State => (t.tx, t.egrSeq)) (after .egrEmit { boot with egrSeq := .held tfS })
    = (record 8 tfS, .deq) := by decide
/-- V-EGR-2 and V-EGR-3: a dropped write; a buffer of no bytes. -/
theorem test_egrEmit_dropped :
    (fun t : State => (t.tx, t.log, t.egrSeq))
      (after .egrEmit { boot with egrSeq := .held tfS, fixed := { benign with txOk := some false } })
    = ([], [⟨.egr, .transportSetupFailed, .none⟩], .deq)
    ∧ after .egrEmit { boot with egrSeq := .held tfS, params := { cfg with outCap := 0 } }
      = { boot with params := { cfg with outCap := 0 } } := by decide
/-- R172. -/
theorem test_transportWrite : (after (.transportWrite [0x41#8, 0x0A#8]) { boot with tx := [0x0A#8] }).tx
    = [0x0A#8, 0x41#8, 0x0A#8] := by decide

/-! ### Environment -/

/-- V-ENV-1. -/
theorem test_evFrame : (fun t : State => (t.hwq, t.alertPend)) (after (.evFrame frameA) boot) = ([frameA], 0x01#7)
    ∧ (fun t : State => (t.hwq, t.alertPend, t.drop))
        (after (.evFrame frameC) { boot with hwq := [frameA, frameB], alertPend := 0x01#7 })
      = ([frameA, frameB], 0x03#7, 0) := by decide
/-- R36, R180: the constant-true predicate keeps every frame, whatever `FILT` says. -/
theorem test_evFrame_acceptAll :
    (after (.evFrame frameA) { boot with drvCfg := ⟨true, ⟨0⟩⟩ }).hwq = [frameA] := by decide
/-- R5: a narrower drop counter saturates at its own width, and a shorter payload clamps at its own length. -/
theorem test_parameters :
    (after (.tryEnqueue tfC)
      { boot with params := { cfg with dropWidth := 8 }, q := [tfA, tfB], drop := 255 }).drop = 255
    ∧ clampedDlc 4 { frameS with dlc := 8#8 } = 4 ∧ alertSet 7 = 0x7F#7 := by decide
/-- V-ENV-3. -/
theorem test_evBusOff : (fun t : State => (t.ctrl, t.alertPend)) (after .evBusOff boot) = (.busOff, 0x20#7)
    ∧ (after .evBusOff { boot with ctrl := .busOff }).result = .blocked := by decide
/-- V-ENV-4. -/
theorem test_evRecoveryDone : (fun t : State => (t.ctrl, t.hwq, t.alertPend))
    (after .evRecoveryDone { boot with ctrl := .recovering, hwq := [frameA], alertPend := 0x01#7 })
    = (.stopped, [frameA], 0x41#7)
    ∧ (after .evRecoveryDone { boot with
        ctrl := .recovering, hwq := [frameA], params := { cfg with hwqOnRecovery := .flush } }).hwq = [] := by decide
/-- V-ENV-5, V-FM-10. -/
theorem test_evAlert : (after (.evAlert 0x1F#7) { boot with alertPend := 0x20#7 }).alertPend = 0x3F#7
    ∧ (after (.evAlert 0x08#7) { base with ctrl := .stopped }).alertPend = 0#7 := by decide
/-- V-ENV-7. -/
theorem test_evTime : [999#64, 1000#64, 6000#64].map (fun t => (after (.evTime t) { boot with timeUs := 1000#64 }).timeUs)
    = [1000#64, 1000#64, 6000#64] := by decide

/-- R34, R32: the boot state's `FLAGS` and the level of its standby pin. -/
theorem test_registers : boot.sr6 = 0x17#8 ∧ base.sr6 = 0x08#8 ∧ boot.stbyPinLevel = false
    ∧ base.stbyPinLevel = true := by decide
/-- R98. -/
theorem test_pseudo : pseudoFmRun cfg 0x0C#7 = [.fmWait, .hBusError, .hErrPassive]
    ∧ pseudoEvBusOffAgain Config.alertBit = .evAlert 0x20#7 := by decide

/-! ### Witnesses: for each statement with hypotheses, inputs that meet them, one conjunct for each clause -/

theorem witness_DecodeOfEncode : Instr.wellFormed (.evAlert 0x40#7) = true
    ∧ Instr.wellFormed (.dequeue (.after 0xFFFFFFFFFFFFFFFE#64)) = true := by decide
theorem witness_EncodeOfDecode : decode [0x63#8, 0x7F#8, 0x01#8] = .ok (.evAlert 0x7F#7, [0x01#8]) := by decide
theorem witness_ReservedEncodingsRefused :
    decode [0x70#8] = .error (.reservedCommand 0x70#8) ∧ (0x80#8 : Byte).getLsbD 7 = true
    ∧ ([0#8, 0#8, 0#8, 0#8] : List Byte).length = 4 ∧ (List.replicate 8 (0#8 : Byte)).length = 8
    ∧ (1#8 : Byte).toNat ≤ 1 ∧ (0x04#8 : Byte).extractLsb' 2 6 ≠ 0#6 ∧ 1 < (0x02#8 : Byte).toNat := by decide
theorem witness_ReservedEncodingsRefused_step : ∃ s : State, ∃ r rest, s.pending = r :: rest
    ∧ decode r.bytes = .error (.reservedCommand 0x03#8) :=
  ⟨{ boot with pending := [⟨.harness, [0x03#8], {}⟩] }, _, _, rfl, rfl⟩
theorem witness_StepRunsIssuedOperation : ∃ s : State, ∃ r rest i bytes, s.pending = r :: rest
    ∧ decode r.bytes = .ok (i, bytes) ∧ r.issuer.may i = true ∧ i.fits s.params = true :=
  ⟨{ boot with pending := [⟨.agent .fm, [0x20#8], {}⟩] }, _, _, .fmWait, [], rfl, rfl, rfl, rfl⟩
theorem witness_StepRunsIssuedOperation_unfit : ∃ s : State, ∃ r rest i bytes, s.pending = r :: rest
    ∧ decode r.bytes = .ok (i, bytes) ∧ r.issuer.may i = true ∧ i.fits s.params = false :=
  ⟨{ boot with
      params := { cfg with tsWidth := 32 }, pending := [⟨.agent .env, 0x64#8 :: List.replicate 8 0xFF#8, {}⟩] },
    _, _, .evTime (BitVec.allOnes 64), [], rfl, rfl, rfl, by decide⟩
theorem witness_WrongIssuerRefused :
    (∃ s : State, ∃ r ∈ s.pending, r.issuer = .agent .host ∧ decode r.bytes = .ok (.restart, []) ∧ Instr.restart.inner = true)
    ∧ (∃ s : State, ∃ r ∈ s.pending, r.issuer = .agent .ing ∧ decode r.bytes = .ok (.hBusOff, []) ∧ (.ing : Agent) ≠ Instr.hBusOff.owner)
    ∧ (∃ s : State, ∃ r ∈ s.pending, r.issuer = .harness ∧ decode r.bytes = .ok (.restart, [])
        ∧ Instr.restart.fits s.params = true) :=
  ⟨⟨{ boot with pending := [⟨.agent .host, [0x11#8], {}⟩] }, by decide⟩,
    ⟨{ boot with pending := [⟨.agent .ing, [0x26#8], {}⟩] }, by decide⟩,
    ⟨{ boot with pending := [⟨.harness, [0x11#8], {}⟩] }, by decide⟩⟩
theorem witness_FreeStepFollowsSequencers :
    boot.pending = [] ∧ base.fmSeq = .idle ∧ boot.fmSeq = .wait
    ∧ nextAlert (dispatching 0x60#7 boot).params 0x60#7 = some .busOff
    ∧ base.ingSeq = .idle ∧ boot.ingSeq = .recv ∧ { boot with ingSeq := .held tfS }.ingSeq = .held tfS
    ∧ { boot with ingSeq := .backoff 1 }.ingSeq = .backoff 1 ∧ base.egrSeq = .idle ∧ boot.egrSeq = .deq
    ∧ { boot with egrSeq := .held tfS }.egrSeq = .held tfS ∧ chosenOp cfg .env .evBusOff = some .evBusOff := by decide
theorem witness_LaunchStartsTasks : (configured.cfgDone = true ∧ configured.launched = false) ∧ base.cfgDone = false
    ∧ boot.cfgDone = true ∧ boot.launched = true := by decide
theorem witness_BootOutcomes : boot.drawCfgFail = .none
    ∧ { boot with fixed := { benign with cfgFail := some .drvInstall } }.drawCfgFail = .drvInstall := by decide
theorem witness_ConfigureRunsStepsInOrder : base.launched = false ∧ base.cfgDone = false ∧ base.fault = false
    ∧ [CfgFault.none, .chAlloc, .pinCfg, .drvInstall, .alertCfg, .drvStart].map
        (fun c => { base with fixed := { benign with cfgFail := some c } }.drawCfgFail)
      = [.none, .chAlloc, .pinCfg, .drvInstall, .alertCfg, .drvStart] := by decide
theorem witness_ConfigureAgain :
    (∃ s : State, s.launched = false ∧ s.cfgDone = true)
    ∧ (∃ s : State, s.launched = true)
    ∧ (∃ s : State, s.launched = false ∧ s.cfgDone = false ∧ s.fault = true) :=
  ⟨⟨configured, by decide⟩,
    ⟨boot, by decide⟩,
    ⟨{ base with fault := true }, by decide⟩⟩
theorem witness_RestartReissuesStart :
    (∃ s : State, s.ctrl = .stopped ∧ s.drawRestart = .ok)
    ∧ (∃ s : State, s.ctrl = .stopped ∧ s.drawRestart = .fail)
    ∧ (∃ s : State, s.ctrl ≠ .stopped) :=
  ⟨⟨{ boot with ctrl := .stopped }, by decide⟩,
    ⟨{ boot with ctrl := .stopped, fixed := { benign with restart := some .fail } }, by decide⟩,
    ⟨boot, by decide⟩⟩
theorem witness_InitRecoveryIssuesCommand :
    (∃ s : State, s.ctrl = .busOff ∧ s.drawRecovery = .ok)
    ∧ (∃ s : State, s.ctrl = .busOff ∧ s.drawRecovery = .fail)
    ∧ (∃ s : State, s.ctrl ≠ .busOff) :=
  ⟨⟨{ boot with ctrl := .busOff }, by decide⟩,
    ⟨{ boot with ctrl := .busOff, fixed := { benign with recovery := some .fail } }, by decide⟩,
    ⟨boot, by decide⟩⟩
theorem witness_ReceiveTakesHead :
    (∃ s : State, s.drawRxFault = .noFault ∧ s.ctrl = .running ∧ s.hwq = frameS :: [])
    ∧ (∃ s : State, s.drawRxFault = .noFault ∧ s.ctrl = .running ∧ s.hwq = [])
    ∧ (∃ s : State, s.drawRxFault = .noFault ∧ s.ctrl ≠ .running)
    ∧ (∃ s : State, s.drawRxFault = .timeout)
    ∧ (∃ s : State, s.drawRxFault = .fail) :=
  ⟨⟨{ boot with hwq := [frameS] }, by decide⟩,
    ⟨boot, by decide⟩,
    ⟨{ boot with ctrl := .busOff }, by decide⟩,
    ⟨{ boot with fixed := { benign with rxFault := some .timeout } }, by decide⟩,
    ⟨{ boot with fixed := { benign with rxFault := some .fail } }, by decide⟩⟩
theorem witness_ReadStatusHasNoEffect : (boot.ctrl ≠ .uninstalled ∧ boot.drawStatusFails = false)
    ∧ base.ctrl = .uninstalled
    ∧ { boot with fixed := { benign with statusFails := some true } }.drawStatusFails = true := by decide
theorem witness_ReadAlertsClears : { boot with alertPend := 0x40#7 }.alertPend ≠ 0#7 ∧ boot.alertPend = 0#7 := by decide
theorem witness_FmWaitEntersDispatch :
    ({ boot with alertPend := 0x01#7 }.fmSeq = .wait ∧ { boot with alertPend := 0x01#7 }.alertPend ≠ 0#7)
    ∧ base.fmSeq ≠ .wait ∧ boot.alertPend = 0#7 := by decide
theorem witness_DispatchRunsOneHandler :
    ((dispatching 0x60#7 boot).params.wf = true ∧ (dispatching 0x60#7 boot).fmSeq = .dispatch 0x60#7
      ∧ (0x60#7 : AlertMask) ≠ 0#7 ∧ Alert.busRecovered ≠ .busOff)
    ∧ base.fmSeq = .idle ∧ boot.fmSeq = .wait ∧ boot.params.alertOrder = State.reset.params.alertOrder := by decide
theorem witness_QuietHandlersLogOnly : [0x01#7, 0x02#7, 0x10#7, 0x08#7, 0x04#7].map
      (fun m => nextAlert (dispatching m boot).params m)
    = [some .dataAvail, some .rxqFull, some .arbLost, some .busError, some .errPassive] := by decide
theorem witness_BusOffStartsRecoveryOnce :
    (∃ s : State, s.fmSeq = .dispatch 0x20#7 ∧ nextAlert s.params 0x20#7 = some .busOff
        ∧ s.bhs = .normal ∧ s.ctrl = .busOff ∧ s.drawRecovery = .ok)
    ∧ (∃ s : State, s.fmSeq = .dispatch 0x60#7 ∧ nextAlert s.params 0x60#7 = some .busOff
        ∧ s.bhs = .normal ∧ s.ctrl = .busOff ∧ s.drawRecovery = .fail)
    ∧ (∃ s : State, s.fmSeq = .dispatch 0x20#7 ∧ nextAlert s.params 0x20#7 = some .busOff
        ∧ s.bhs = .normal ∧ s.ctrl ≠ .busOff)
    ∧ (∃ s : State, s.fmSeq = .dispatch 0x20#7 ∧ nextAlert s.params 0x20#7 = some .busOff
        ∧ s.bhs = .recovering) :=
  ⟨⟨dispatching 0x20#7 { boot with ctrl := .busOff }, by decide⟩,
    ⟨dispatching 0x60#7
      { boot with ctrl := .busOff, fixed := { benign with recovery := some .fail } }, by decide⟩,
    ⟨dispatching 0x20#7 boot, by decide⟩,
    ⟨dispatching 0x20#7 { boot with bhs := .recovering, ctrl := .recovering }, by decide⟩⟩
theorem witness_BusRecoveredRestartsController :
    (∃ s : State, s.fmSeq = .dispatch 0x40#7 ∧ nextAlert s.params 0x40#7 = some .busRecovered
        ∧ s.bhs = .recovering ∧ s.ctrl = .stopped ∧ s.drawRestart = .ok)
    ∧ (∃ s : State, s.fmSeq = .dispatch 0x40#7 ∧ nextAlert s.params 0x40#7 = some .busRecovered
        ∧ s.bhs = .recovering ∧ s.ctrl = .stopped ∧ s.drawRestart = .fail)
    ∧ (∃ s : State, s.fmSeq = .dispatch 0x40#7 ∧ nextAlert s.params 0x40#7 = some .busRecovered
        ∧ s.bhs = .recovering ∧ s.ctrl ≠ .stopped)
    ∧ (∃ s : State, s.fmSeq = .dispatch 0x40#7 ∧ nextAlert s.params 0x40#7 = some .busRecovered
        ∧ s.bhs = .normal) :=
  ⟨⟨dispatching 0x40#7 { boot with ctrl := .stopped, bhs := .recovering }, by decide⟩,
    ⟨dispatching 0x40#7
      { boot with ctrl := .stopped, bhs := .recovering, fixed := { benign with restart := some .fail } }, by decide⟩,
    ⟨dispatching 0x40#7 { boot with ctrl := .recovering, bhs := .recovering }, by decide⟩,
    ⟨dispatching 0x40#7 boot, by decide⟩⟩
theorem witness_BusOffCycleEndsNormal : boot.params.wf = true ∧ boot.fmSeq = .wait ∧ boot.bhs = .normal
    ∧ boot.ctrl = .running ∧ boot.alertEn = 0x7F#7 ∧ boot.alertPend = 0#7 ∧ boot.drawRecovery = .ok
    ∧ boot.drawRestart = .ok := by decide
theorem witness_TryEnqueueAcceptsOrDrops :
    (∃ s : State, s.chAlloc = true ∧ s.q.length < s.params.capacity)
    ∧ (∃ s : State, s.chAlloc = true ∧ s.params.capacity ≤ s.q.length ∧ s.lastWarn.toNat ≤ s.timeUs.toNat
        ∧ s.timeUs.toNat - s.lastWarn.toNat < s.params.warnWindowUs)
    ∧ (∃ s : State, s.chAlloc = true ∧ s.params.capacity ≤ s.q.length ∧ s.lastWarn.toNat ≤ s.timeUs.toNat
        ∧ s.params.warnWindowUs ≤ s.timeUs.toNat - s.lastWarn.toNat)
    ∧ (∃ s : State, s.chAlloc = false) :=
  ⟨⟨{ boot with q := [tfA] }, by decide⟩,
    ⟨{ boot with q := [tfA, tfB], timeUs := 999999#64 }, by decide⟩,
    ⟨{ boot with q := [tfA, tfB], timeUs := 1000000#64 }, by decide⟩,
    ⟨base, by decide⟩⟩
theorem witness_DequeueTakesHead :
    (∃ s : State, s.chAlloc = true ∧ s.q = tfA :: [])
    ∧ (∃ s : State, s.chAlloc = true ∧ s.q = [] ∧ (1#64 : Word64) ≠ 0#64)
    ∧ (∃ s : State, s.chAlloc = false) :=
  ⟨⟨{ boot with q := [tfA] }, by decide⟩,
    ⟨boot, by decide⟩,
    ⟨base, by decide⟩⟩
theorem witness_DropCountsRejectionsOnly : (∃ t, exec .ingEnq { boot with ingSeq := .held tfC, q := [tfA, tfB] } = .next t
    ∧ t.drop ≠ boot.drop) ∧ Instr.ingEnq ≠ .reset := ⟨⟨_, rfl, by decide⟩, by decide⟩
theorem witness_WarningsAreAWindowApart : (∃ t, exec (.tryEnqueue tfC) { boot with
    q := [tfA, tfB], timeUs := 1000000#64 } = .next t ∧ t.log ≠ boot.log) ∧ boot.lastWarn.toNat ≤ 1000000
    ∧ Instr.tryEnqueue tfC ≠ .reset := ⟨⟨_, rfl, by decide⟩, by decide, by decide⟩
theorem witness_OverloadLaw : boot.chAlloc = true ∧ boot.q = []
    ∧ boot.drop ≤ 2 ^ boot.params.dropWidth - 1 ∧ boot.params.capacity < [tfA, tfB, tfC].length := by decide
theorem witness_FifoLaw : boot.chAlloc = true ∧ boot.q.length + [tfA, tfB].length ≤ boot.params.capacity
    ∧ 0 < 2 ∧ 2 ≤ boot.q.length + [tfA, tfB].length := by decide
theorem witness_RingRefinesQueue :
    ((⟨[tfA, tfB], 1, 1, 0⟩ : QueueRing TimedFrame).wf = true ∧ 1 ≤ [tfA, tfB].length)
    ∧ (⟨[tfA, tfB], 1, 0, 1⟩ : QueueRing TimedFrame).wf = true
    ∧ (⟨[tfA, tfB], 1, 1, 2⟩ : QueueRing TimedFrame).wf = true := by decide
theorem witness_IngRecvStampsOrBacksOff :
    (∃ s : State, s.ingSeq = .recv ∧ s.drawRxFault = .noFault ∧ s.ctrl = .running ∧ s.hwq = frameS :: [])
    ∧ (∃ s : State, s.ingSeq = .recv ∧ s.drawRxFault = .noFault ∧ s.ctrl ≠ .running ∧ s.nrLogged = false)
    ∧ (∃ s : State, s.ingSeq = .recv ∧ s.drawRxFault = .noFault ∧ s.ctrl ≠ .running ∧ s.nrLogged = true)
    ∧ (∃ s : State, s.ingSeq = .recv ∧ s.drawRxFault = .timeout)
    ∧ (∃ s : State, s.ingSeq = .recv ∧ s.drawRxFault = .fail)
    ∧ (∃ s : State, s.ingSeq = .recv ∧ s.drawRxFault = .noFault ∧ s.ctrl = .running ∧ s.hwq = [])
    ∧ (∃ s : State, s.ingSeq ≠ .recv) :=
  ⟨⟨{ boot with hwq := [frameS] }, by decide⟩,
    ⟨{ boot with ctrl := .busOff }, by decide⟩,
    ⟨{ boot with ctrl := .busOff, nrLogged := true }, by decide⟩,
    ⟨{ boot with fixed := { benign with rxFault := some .timeout } }, by decide⟩,
    ⟨{ boot with fixed := { benign with rxFault := some .fail } }, by decide⟩,
    ⟨boot, by decide⟩,
    ⟨base, by decide⟩⟩
theorem witness_IngEnqOffersHeldFrame :
    (∃ s : State, s.ingSeq = .held tfC ∧ s.chAlloc = true ∧ s.q.length < s.params.capacity)
    ∧ (∃ s : State, s.ingSeq = .held tfC ∧ s.chAlloc = true ∧ s.params.capacity ≤ s.q.length) :=
  ⟨⟨{ boot with ingSeq := .held tfC, q := [tfA] }, by decide⟩,
    ⟨{ boot with ingSeq := .held tfC, q := [tfA, tfB] }, by decide⟩⟩
theorem witness_IngWakeEndsBackoff :
    (∃ s : State, s.ingSeq = .backoff 6000 ∧ 6000 ≤ s.timeUs.toNat)
    ∧ (∃ s : State, s.ingSeq = .backoff 6000 ∧ s.timeUs.toNat < 6000) :=
  ⟨⟨{ boot with ingSeq := .backoff 6000, timeUs := 6000#64 }, by decide⟩,
    ⟨{ boot with ingSeq := .backoff 6000, timeUs := 5999#64 }, by decide⟩⟩
theorem witness_OperationsOutsidePreconditionWait_tasks :
    (∀ tf, boot.ingSeq ≠ .held tf) ∧ ∀ tf, boot.egrSeq ≠ .held tf := by simp [boot]
theorem witness_channel_not_constructed : (∃ s : State, s.ingSeq = .held tfC ∧ s.chAlloc = false)
    ∧ (∃ s : State, s.egrSeq = .deq ∧ s.chAlloc = false) :=
  ⟨⟨{ base with ingSeq := .held tfC }, by decide⟩, ⟨{ base with egrSeq := .deq }, by decide⟩⟩
theorem witness_IngWakeEndsBackoff_elsewhere : ∀ wake, boot.ingSeq ≠ .backoff wake := by intro wake; simp [boot]
theorem witness_RenderingFunctions : 18446744073709551615 < 2 ^ 64 ∧ 18446744073709551615 ≠ 0 := by decide
theorem witness_RecordShape : 8 < ({ frameS with dlc := 9#8 } : Frame).dlc.toNat := by decide
theorem witness_RecordIsInjective : record 8 ⟨1#64, { frameS with dlc := 8#8 }⟩ = record 8 ⟨1#64, { frameS with dlc := 9#8 }⟩
    := by decide
/-- One index in each clause: the last byte written, the first one left alone, and one the buffer does not have. -/
theorem witness_EncodeWritesRecord :
    (∃ s : State, 0 < s.params.outCap ∧ min (record 8 tfS).length 16 = 16 ∧ 15 < 16 ∧ 15 < s.params.outCap ∧ 16 ≤ 16)
    ∧ (∃ s : State, s.params.outCap ≤ 15 ∧ 15 < min (record 8 tfS).length (16#32 : Word32).toNat) :=
  ⟨⟨boot, by decide⟩, ⟨{ boot with params := { cfg with outCap := 15 } }, by decide⟩⟩
/-- Each refusal of the table is taken. -/
theorem witness_NoTrapAndRefusalsExactly :
    refuses .configure boot .reconfigureAtRuntime = true
    ∧ refuses .configure { base with fault := true } .configureAfterFailure = true
    ∧ refuses .launch base .launchWithoutConfigure = true ∧ refuses .launch boot .launchTwice = true
    ∧ refuses (.tryEnqueue tfA) base .channelNotConstructed = true
    ∧ refuses (.dequeue .forever) base .channelNotConstructed = true
    ∧ refuses .ingEnq { base with ingSeq := .held tfA } .channelNotConstructed = true
    ∧ refuses .egrDeq { base with egrSeq := .deq } .channelNotConstructed = true := by decide
theorem witness_EgrDeqHoldsHead :
    (∃ s : State, s.egrSeq = .deq ∧ s.chAlloc = true ∧ s.q = tfS :: [])
    ∧ (∃ s : State, s.egrSeq = .deq ∧ s.chAlloc = true ∧ s.q = [])
    ∧ (∃ s : State, s.egrSeq ≠ .deq) :=
  ⟨⟨{ boot with q := [tfS] }, by decide⟩,
    ⟨boot, by decide⟩,
    ⟨base, by decide⟩⟩
theorem witness_EgrEmitWritesRecord :
    (∃ s : State, s.egrSeq = .held tfS ∧ 0 < s.params.outCap ∧ s.drawTxOk = true)
    ∧ (∃ s : State, s.egrSeq = .held tfS ∧ 0 < s.params.outCap ∧ s.drawTxOk = false)
    ∧ (∃ s : State, s.egrSeq = .held tfS ∧ s.params.outCap = 0) :=
  ⟨⟨{ boot with egrSeq := .held tfS }, by decide⟩,
    ⟨{ boot with
      egrSeq := .held tfS, params := { cfg with outCap := 1 }, fixed := { benign with txOk := some false } }, by decide⟩,
    ⟨{ boot with egrSeq := .held tfS, params := { cfg with outCap := 0 } }, by decide⟩⟩
theorem witness_TransportWriteAllOrNothing :
    (∃ s : State, s.drawTxOk = true)
    ∧ (∃ s : State, s.drawTxOk = false) :=
  ⟨⟨boot, by decide⟩,
    ⟨{ boot with fixed := { benign with txOk := some false } }, by decide⟩⟩
theorem witness_FrameArrivalQueuesOrIsLost :
    (∃ s : State, s.ctrl = .running ∧ s.hwq.length < s.params.hwqDepth)
    ∧ (∃ s : State, s.ctrl = .running ∧ s.params.hwqDepth ≤ s.hwq.length) :=
  ⟨⟨{ boot with hwq := [frameA] }, by decide⟩,
    ⟨{ boot with hwq := [frameA, frameB] }, by decide⟩⟩
theorem witness_BusOffEventStopsCapture : boot.ctrl = .running := by decide
theorem witness_RecoveryDoneStopsController :
    (∃ s : State, s.ctrl = .recovering ∧ s.params.hwqOnRecovery = .preserve)
    ∧ (∃ s : State, s.ctrl = .recovering ∧ s.params.hwqOnRecovery = .flush) :=
  ⟨⟨{ boot with ctrl := .recovering }, by decide⟩,
    ⟨{ boot with ctrl := .recovering, params := { cfg with hwqOnRecovery := .flush } }, by decide⟩⟩
theorem witness_AlertEventLatchesEnabled : boot.ctrl ≠ .uninstalled := by decide
theorem witness_ClockAdvances : { boot with timeUs := 1000#64 }.timeUs.toNat ≤ (1000#64 : Word64).toNat := by decide
theorem witness_OperationsOutsidePreconditionWait : base.ctrl ≠ .running ∧ boot.ctrl ≠ .recovering
    ∧ base.ctrl = .uninstalled ∧ (999#64 : Word64).toNat < { boot with timeUs := 1000#64 }.timeUs.toNat := by decide

/-- A whole-block run's state: the clock is about to advance. -/
def running : State := { boot with pending := [⟨.agent .env, 0x64#8 :: List.replicate 8 0xFF#8, benign⟩] }

theorem running_inv : ComponentInv running := by constructor <;> decide
theorem running_wholeBlock : WholeBlock running := by
  intro r hr
  obtain rfl : r = ⟨.agent .env, 0x64#8 :: List.replicate 8 0xFF#8, benign⟩ := List.mem_singleton.mp hr
  exact fun h => nomatch h
theorem running_step : ∃ t, step running = .next t := ⟨_, rfl⟩
theorem running_fits : FieldsFit running :=
  ⟨by decide, by decide, by decide, by decide⟩
theorem witness_StepKeepsComponentInvariants : ∃ t, ComponentInv running ∧ FieldsFit running ∧ step running = .next t :=
  ⟨_, running_inv, running_fits, rfl⟩
theorem witness_WholeBlockStepKeepsAlertSet :
    ∃ t, WholeBlock running ∧ ComponentInv running ∧ AlertsInstalled running ∧ step running = .next t :=
  ⟨_, running_wholeBlock, running_inv, fun _ => rfl, rfl⟩
theorem witness_WholeBlockStepKeepsCaptureOrder :
    ∃ t, WholeBlock running ∧ CaptureOrdered running ∧ step running = .next t :=
  ⟨_, running_wholeBlock, by simp [CaptureOrdered, captured, egrHeld, ingHeld, running, boot, configured, base,
    State.reset], rfl⟩
theorem witness_WholeBlockStepKeepsRecordsWhole :
    ∃ t, WholeBlock running ∧ 118 ≤ running.params.outCap ∧ TxIsRecords running ∧ step running = .next t :=
  ⟨_, running_wholeBlock, by decide, ⟨[], rfl⟩, rfl⟩
theorem witness_HealthAndControllerTransitions :
    (∃ t, exec .evBusOff running = .next t ∧ t.ctrl ≠ running.ctrl) ∧ ComponentInv running
    ∧ (∃ t, exec .hBusOff (dispatching 0x20#7 { boot with ctrl := .busOff }) = .next t ∧ t.bhs ≠ boot.bhs) :=
  ⟨⟨_, rfl, by decide⟩, running_inv, ⟨_, rfl, by decide⟩⟩
theorem witness_AgentsWriteOnlyTheirOwn :
    (∃ t, exec (.evFrame frameA) boot = .next t ∧ t.hwq ≠ boot.hwq) ∧ Instr.evFrame frameA ≠ .reset :=
  ⟨⟨_, rfl, by decide⟩, by decide⟩
theorem witness_ConfigurationIsFrozen :
    ∃ t, exec .evBusOff boot = .next t ∧ boot.cfgDone = true ∧ Instr.evBusOff ≠ .reset := ⟨_, rfl, rfl, by decide⟩
theorem witness_StreamsAreAppendOnly :
    ∃ t, exec (.transportWrite [0x41#8]) boot = .next t ∧ Instr.transportWrite [0x41#8] ≠ .reset :=
  ⟨_, rfl, by decide⟩
theorem witness_DegradedStatesPersist :
    (∃ t, exec .fmWait { boot with ctrl := .busOff } = .next t) ∧ boot.launched = true ∧ boot.bhs = .normal
    ∧ (∃ t, exec .fmWait { boot with ctrl := .recovering, bhs := .recovering } = .next t)
    ∧ (∃ t, exec .fmWait { boot with ctrl := .stopped, bhs := .recovering } = .next t)
    ∧ (∃ t, exec .evBusOff { base with fault := true } = .next t) := by
  refine ⟨⟨_, rfl⟩, rfl, rfl, ⟨_, rfl⟩, ⟨_, rfl⟩, ⟨_, rfl⟩⟩
theorem boot_quiescent : Quiescent boot := ⟨⟨rfl, rfl⟩, .inl ⟨rfl, rfl, rfl⟩, rfl, rfl⟩
/-- A back-off whose deadline is yet to come, and one whose deadline is the present. -/
theorem witness_QuiescentTasksWait_backoff :
    (∃ s : State, Quiescent s ∧ s.ingSeq = .backoff 1 ∧ s.timeUs.toNat < 1)
    ∧ (∃ s : State, Quiescent s ∧ s.drawRxFault = .noFault ∧ s.chAlloc = true ∧ s.agentOp .ing = some .ingWake
      ∧ s.ingSeq = .backoff 0 ∧ s.timeUs.toNat = 0) :=
  ⟨⟨{ boot with ingSeq := .backoff 1 }, ⟨⟨rfl, rfl⟩, .inr ⟨1, rfl⟩, rfl, rfl⟩, rfl, by decide⟩,
    ⟨{ boot with ingSeq := .backoff 0 }, ⟨⟨rfl, rfl⟩, .inr ⟨0, rfl⟩, rfl, rfl⟩, rfl, rfl, rfl, rfl, rfl⟩⟩
theorem witness_QuiescentTasksWait : Quiescent boot ∧ boot.drawRxFault = .noFault ∧ boot.chAlloc = true
    ∧ boot.agentOp .ing = some .ingRecv ∧ boot.ingSeq = .recv
    ∧ ∀ i ∈ [Instr.ingRecv, .egrDeq, .fmWait], (i.owner = .fm ∨ i.owner = .ing ∨ i.owner = .egr) ∧ i.inner = false :=
  ⟨boot_quiescent, rfl, rfl, rfl, rfl, by decide⟩

/-! ### A fair run: an alert is handled and a frame written, and then only time passes -/

def fairIssues : Nat → Issue
  | 0 => ⟨.agent .fm, [0x20#8], benign⟩
  | 1 => ⟨.agent .fm, [0x26#8], benign⟩
  | 2 => ⟨.agent .egr, [0x51#8], benign⟩
  | 3 => ⟨.agent .egr, [0x52#8], benign⟩
  | _ => ⟨.agent .env, 0x64#8 :: List.replicate 8 0#8, benign⟩

def fairStates : Nat → State
  | 0 => { boot with alertPend := 0x20#7, q := [tfA] }
  | n + 1 =>
    match step { fairStates n with pending := [fairIssues n] } with
    | .next t => t
    | .fault _ => fairStates n
    | .refused _ => fairStates n

/-- A task whose wait no draw ends is not enabled. -/
theorem not_enabled_of_quiescent (s : State) (a : Agent) (ha : a = .fm ∨ a = .ing ∨ a = .egr) (hq : Quiescent s)
    (hr : s.ingSeq = .recv) (hc : s.chAlloc = true) : ¬ TaskEnabled a s := by
  rintro ⟨i, hi, h⟩
  obtain ⟨t, ht, hb⟩ := h benign
  obtain ⟨⟨h1, h2⟩, h3, h4, h5⟩ := hq
  have ⟨h6, h7⟩ : s.ctrl = .running ∧ s.hwq = [] := by simpa [hr] using h3
  rcases ha with rfl | rfl | rfl
  · obtain rfl : Instr.fmWait = i := by simpa [State.agentOp, State.fmOp, h1] using hi
    have : exec .fmWait (s.begin [] benign) = .next (s.begin [] benign).waits := by
      simp [exec, execFmWait, h1, State.takeAlerts, State.irq, h2]
    rw [this] at ht; obtain rfl := Host.Outcome.next.inj ht; exact hb rfl
  · obtain rfl : Instr.ingRecv = i := by simpa [State.agentOp, State.ingOp, hr] using hi
    have hd : (s.begin [] benign).drawRxFault = .noFault := rfl
    have : exec .ingRecv (s.begin [] benign) = .next (s.begin [] benign).waits := by
      simp [exec, execIngRecv, State.ingestReception, State.receive, hd, hr, h6, h7, pop]
    rw [this] at ht; obtain rfl := Host.Outcome.next.inj ht; exact hb rfl
  · obtain rfl : Instr.egrDeq = i := by simpa [State.agentOp, State.egrOp, h4] using hi
    have : exec .egrDeq (s.begin [] benign) = .next (s.begin [] benign).waits := by
      simp [exec, execEgrDeq, h4, h5, hc, pop]
    rw [this] at ht; obtain rfl := Host.Outcome.next.inj ht; exact hb rfl

theorem fairStates_rest (n : Nat) : fairStates (n + 4) = { fairStates 4 with drawIdx := n + 4 } := by
  induction n with
  | zero => rfl
  | succ n ih => rw [show n + 1 + 4 = (n + 4) + 1 from rfl, fairStates, ih]; rfl

theorem fairRun_run : Run fairStates fairIssues := by
  intro n
  match n with
  | 0 => exact ⟨by decide, rfl⟩
  | 1 => exact ⟨by decide, rfl⟩
  | 2 => exact ⟨by decide, rfl⟩
  | 3 => exact ⟨by decide, rfl⟩
  | n + 4 =>
    refine ⟨fun h => (nomatch (h : Issuer.agent .env = .harness)), ?_⟩
    rw [show n + 4 + 1 = n + 1 + 4 by omega, fairStates_rest (n + 1), fairStates_rest n]; rfl

theorem fairRun_fair (a : Agent) (ha : a = .fm ∨ a = .ing ∨ a = .egr) : WeaklyFair fairStates fairIssues a := by
  intro n h
  refine absurd (h (n + 4) (by omega)) (not_enabled_of_quiescent _ a ha ?_ ?_ ?_) <;> rw [fairStates_rest]
  · exact ⟨⟨rfl, rfl⟩, .inl ⟨rfl, rfl, rfl⟩, rfl, rfl⟩
  · rfl
  · rfl

theorem witness_QuiescentTasksWait_fairRun :
    FairRun fairStates fairIssues ∧ ComponentInv (fairStates 0) ∧ (fairStates 0).launched = true
    ∧ (fairStates 0).params.wf = true ∧ (∀ m, 0 ≤ m → (fairIssues m).issuer ≠ .agent .host)
    ∧ (fairStates 0).params.alertBit.has (fairStates 0).alertPend .busOff = true ∧ tfA ∈ (fairStates 0).q
    ∧ (fairIssues 3).draws.txOk = some true := by
  refine ⟨⟨fairRun_run, fairRun_fair _ (.inl rfl), fairRun_fair _ (.inr (.inl rfl)), fairRun_fair _ (.inr (.inr rfl))⟩,
    by constructor <;> decide, rfl, by decide, fun m _ => ?_, by decide, by decide, rfl⟩
  match m with
  | 0 => decide
  | 1 => decide
  | 2 => decide
  | 3 => decide
  | m + 4 => exact fun h => (nomatch (h : Issuer.agent .env = .agent .host))

end Sys2Proof.Tests
end

section
/-! The rendering functions (spec/30_encoding.md R94): `DEC` as Mathlib's base-10 digits, most significant first, and the
obligation about `DEC`, `BOOL` and `HEX2`. -/

namespace Sys2Proof.Machine

/-! ### One digit -/

/-- The ASCII code does not wrap: a digit's character is `0x30` above it. -/
theorem toNat_decDigit {d : Nat} (h : d < 10) : (decDigit d).toNat = 0x30 + d := by
  simp only [decDigit, BitVec.toNat_ofNat]
  omega

theorem decDigit_ne_zeroChar {d : Nat} (h : d < 10) (h0 : d ≠ 0) : decDigit d ≠ 0x30#8 := fun heq => by
  have hval := congrArg BitVec.toNat heq
  rw [toNat_decDigit h] at hval
  exact h0 (by simpa using hval)

/-- R94's hexadecimal characters: `0-9`, then upper-case `A-F`. -/
def hexTable : List Byte :=
  [0x30#8, 0x31#8, 0x32#8, 0x33#8, 0x34#8, 0x35#8, 0x36#8, 0x37#8, 0x38#8, 0x39#8, 0x41#8, 0x42#8, 0x43#8, 0x44#8,
    0x45#8, 0x46#8]

theorem some_hexDigit {n : Nat} (h : n < 16) : some (hexDigit n) = hexTable[n]? := by
  have table : ∀ i : Fin 16, some (hexDigit i) = hexTable[(i : Nat)]? := by decide
  exact table ⟨n, h⟩

/-! ### `DEC` -/

/-- With fuel for all of its digits, the repeated division writes the digits of `n` in front of `acc`. -/
theorem decDigits_eq_digits {fuel n : Nat} (acc : List Byte) (h0 : n ≠ 0) (h : n < 10 ^ fuel) :
    decDigits fuel n acc = ((Nat.digits 10 n).map decDigit).reverse ++ acc := by
  induction fuel generalizing n acc with
  | zero => exact absurd h (by simpa using h0)
  | succ fuel ih =>
    rw [Nat.digits_def' (by decide) (Nat.pos_of_ne_zero h0), decDigits]
    split
    case isTrue hlast => simp [hlast]
    case isFalse hmore =>
      rw [ih _ hmore (Nat.div_lt_of_lt_mul (by rwa [Nat.pow_succ'] at h))]
      simp

/-- Twenty digits hold every `u64`. -/
theorem dec_eq_digits {n : Nat} (h0 : n ≠ 0) (h : n < 2 ^ 64) : dec n = ((Nat.digits 10 n).map decDigit).reverse := by
  rw [dec, decDigits_eq_digits [] h0 (h.trans (by decide)), List.append_nil]

theorem dec_zero : dec 0 = [0x30#8] := rfl

theorem dec_chars_are_digits {n : Nat} (h : n < 2 ^ 64) : ∀ c ∈ dec n, 0x30 ≤ c.toNat ∧ c.toNat ≤ 0x39 := by
  by_cases h0 : n = 0
  · subst h0
    decide
  · intro c hc
    rw [dec_eq_digits h0 h, List.mem_reverse, List.mem_map] at hc
    obtain ⟨d, hd, rfl⟩ := hc
    have hlt : d < 10 := Nat.digits_lt_base (by decide) hd
    rw [toNat_decDigit hlt]
    omega

/-- Reading a numeral back (as the obligation does) gives the number that its digits stand for. -/
theorem foldl_decDigit_eq_ofDigits {ds : List Nat} (h : ∀ d ∈ ds, d < 10) :
    (ds.map decDigit).reverse.foldl (fun v c => 10 * v + (c.toNat - 0x30)) 0 = Nat.ofDigits 10 ds := by
  rw [List.foldl_reverse]
  induction ds with
  | nil => rfl
  | cons d ds ih =>
    obtain ⟨hd, hds⟩ := List.forall_mem_cons.mp h
    rw [List.map_cons, List.foldr_cons, ih hds, toNat_decDigit hd, Nat.ofDigits_cons, Nat.add_sub_cancel_left,
      Nat.add_comm]

theorem dec_value {n : Nat} (h : n < 2 ^ 64) : (dec n).foldl (fun v c => 10 * v + (c.toNat - 0x30)) 0 = n := by
  by_cases h0 : n = 0
  · subst h0
    rfl
  · rw [dec_eq_digits h0 h, foldl_decDigit_eq_ofDigits fun _ => Nat.digits_lt_base (by decide), Nat.ofDigits_digits]

/-- The first character is the most significant digit, which is not `0`. -/
theorem dec_no_leading_zero {n : Nat} (h0 : n ≠ 0) (h : n < 2 ^ 64) : ∃ c rest, dec n = c :: rest ∧ c ≠ 0x30#8 := by
  have hne : Nat.digits 10 n ≠ [] := Nat.digits_ne_nil_iff_ne_zero.mpr h0
  refine ⟨decDigit ((Nat.digits 10 n).getLast hne), ((Nat.digits 10 n).dropLast.map decDigit).reverse, ?_, ?_⟩
  · rw [dec_eq_digits h0 h]
    conv_lhs => rw [← List.dropLast_append_getLast hne]
    simp
  · exact decDigit_ne_zeroChar (Nat.digits_lt_base (by decide) (List.getLast_mem hne)) (Nat.getLast_digit_ne_zero 10 h0)

/-! ### `HEX2` and the record -/

/-- The high nibble's character, then the low nibble's. -/
theorem hex2_eq_nibbles (b : Byte) :
    hex2 b = [hexDigit (b.extractLsb' 4 4).toNat, hexDigit (b.extractLsb' 0 4).toNat] := by
  have high : (b.extractLsb' 4 4).toNat = b.toNat / 16 := by
    rw [BitVec.extractLsb'_toNat, Nat.shiftRight_eq_div_pow]
    omega
  have low : (b.extractLsb' 0 4).toNat = b.toNat % 16 := BitVec.extractLsb'_toNat ..
  rw [hex2, high, low]

/-- The record opens with the fixed text, the timestamp's numeral, the next fixed text and the identifier's: both numerals
are of the whole words, no bit of which is masked off. -/
theorem record_opening (payloadMax : Fin 9) (tf : TimedFrame) :
    ∃ rest, record payloadMax tf = textTs ++ (dec tf.ts.toNat ++ (textId ++ (dec tf.frame.id.toNat ++ rest))) := by
  simp only [record, List.append_assoc]
  exact ⟨_, rfl⟩

/-- Settles O35: `DEC` is the list of Mathlib's base-10 digits, `HEX2` reads R94's table at each nibble. -/
theorem renderingFunctions : Obligations.RenderingFunctions := by
  unfold Obligations.RenderingFunctions
  refine ⟨fun n h => ⟨dec_chars_are_digits h, dec_value h, fun h0 => dec_no_leading_zero h0 h⟩, dec_zero,
    record_opening, rfl, rfl, fun b => ?_⟩
  rw [hex2_eq_nibbles, List.map_cons, List.map_cons, some_hexDigit (BitVec.isLt _), some_hexDigit (BitVec.isLt _)]
  rfl

end Sys2Proof.Machine
end

section
/-! The Peripheral Controller (spec/40_peripheral_controller.md): what `RESTART` and `INIT_RECOVERY` return and leave, for
each state of the controller and each draw, and the obligations about them. -/

namespace Sys2Proof.Machine

/-! ### `RESTART` (R101) -/

/-- The operation keeps the state that the call leaves and reports the call's result. -/
theorem exec_restart_of_call {s t : State} {r : Res} (h : s.restart = (r, t)) :
    exec .restart s = .next { t with result := .res r } := by
  change Host.Outcome.next (s.restart.2.withResult (.res s.restart.1)) = _
  rw [h]
  rfl

theorem State.restart_of_draw_ok {s : State} (hc : s.ctrl = .stopped) (hd : s.drawRestart = .ok) :
    s.restart = (.ok, { s with ctrl := .running }) := by
  simpa [hc, hd] using s.restart_cases

theorem State.restart_of_draw_fail {s : State} (hc : s.ctrl = .stopped) (hd : s.drawRestart = .fail) :
    s.restart = (.err .fail, s) := by
  simpa [hc, hd] using s.restart_cases

theorem State.restart_of_not_stopped {s : State} (hc : s.ctrl ≠ .stopped) : s.restart = (.err .notReady, s) := by
  simpa [hc] using s.restart_cases

/-- Settles O14: each clause is one case of the call. -/
theorem restartReissuesStart : Obligations.RestartReissuesStart := by
  unfold Obligations.RestartReissuesStart
  exact ⟨fun _ hc hd => exec_restart_of_call (State.restart_of_draw_ok hc hd),
    fun _ hc hd => exec_restart_of_call (State.restart_of_draw_fail hc hd),
    fun _ hc => exec_restart_of_call (State.restart_of_not_stopped hc)⟩

/-! ### `INIT_RECOVERY` (R102) -/

/-- The operation keeps the state that the call leaves and reports the call's result. -/
theorem exec_initRecovery_of_call {s t : State} {r : Res} (h : s.initRecovery = (r, t)) :
    exec .initRecovery s = .next { t with result := .res r } := by
  change Host.Outcome.next (s.initRecovery.2.withResult (.res s.initRecovery.1)) = _
  rw [h]
  rfl

theorem State.initRecovery_of_draw_ok {s : State} (hc : s.ctrl = .busOff) (hd : s.drawRecovery = .ok) :
    s.initRecovery = (.ok, { s with ctrl := .recovering }) := by
  simpa [hc, hd] using s.initRecovery_cases

theorem State.initRecovery_of_draw_fail {s : State} (hc : s.ctrl = .busOff) (hd : s.drawRecovery = .fail) :
    s.initRecovery = (.err .fail, s) := by
  simpa [hc, hd] using s.initRecovery_cases

/-- In every other state, that of an outstanding recovery among them (D11). -/
theorem State.initRecovery_of_not_busOff {s : State} (hc : s.ctrl ≠ .busOff) :
    s.initRecovery = (.err .notReady, s) := by
  simpa [hc] using s.initRecovery_cases

/-- Settles O15: each clause is one case of the call. -/
theorem initRecoveryIssuesCommand : Obligations.InitRecoveryIssuesCommand := by
  unfold Obligations.InitRecoveryIssuesCommand
  exact ⟨fun _ hc hd => exec_initRecovery_of_call (State.initRecovery_of_draw_ok hc hd),
    fun _ hc hd => exec_initRecovery_of_call (State.initRecovery_of_draw_fail hc hd),
    fun _ hc => exec_initRecovery_of_call (State.initRecovery_of_not_busOff hc)⟩

end Sys2Proof.Machine
end

section
/-! The handlers of the Fault Monitor (spec/41_fault_monitor.md): one rule for the enabled handler of any alert, what the
bodies of `H_BUS_OFF` and `H_BUS_RECOVERED` leave in each case, and the obligations about the handlers. -/

namespace Sys2Proof.Machine

/-! ### The enabled handler (R112) -/

/-- What the handler of an alert does before `done` (R113 to R119). -/
def handlerBody : Alert → State → State
  | .dataAvail, s => s
  | .rxqFull, s => s.logEvent .rxqFull .none
  | .errPassive, s => s.logEvent .errPassive (.status s.readStatus)
  | .busError, s => s.logEvent .busError (.status s.readStatus)
  | .arbLost, s => s.logEvent .arbLost .none
  | .busOff, s => s.startRecovery
  | .busRecovered, s => s.finishRecovery

/-- Every handler is its body guarded by `handle`. -/
theorem exec_handler (a : Alert) (s : State) : exec a.handler s = .next (s.handle a (handlerBody a)) := by
  cases a <;> rfl

theorem State.handle_of_nextAlert {s : State} {m : AlertMask} {a : Alert} (body : State → State)
    (hm : s.fmSeq = .dispatch m) (hn : nextAlert s.params m = some a) :
    s.handle a body = ((body s).done m a).withResult .unit := by
  simp [State.handle, (s.handling_eq_some a m).mpr ⟨hm, hn⟩]

/-- The handler whose turn it is leaves its body's state, with the alert's bit cleared. -/
theorem exec_handler_of_nextAlert {s t : State} {m : AlertMask} {a : Alert} (hm : s.fmSeq = .dispatch m)
    (hn : nextAlert s.params m = some a) (ht : handlerBody a s = t) :
    exec a.handler s = .next { t with fmSeq := doneSeq t.params.alertBit m a, result := .unit } := by
  rw [exec_handler, State.handle_of_nextAlert _ hm hn, ht]
  rfl

/-! ### The handlers without a state change (R113 to R117) -/

theorem exec_readStatus (s : State) : exec .readStatus s = .next { s with result := .statusRead s.readStatus } := rfl

/-- Settles O21: the enabled-handler rule at each of the five bodies; the status logged is the one `READ_STATUS` reads. -/
theorem quietHandlersLogOnly : Obligations.QuietHandlersLogOnly := by
  unfold Obligations.QuietHandlersLogOnly
  intro s m hm
  exact ⟨fun hn => exec_handler_of_nextAlert hm hn rfl,
    fun hn => exec_handler_of_nextAlert hm hn rfl,
    fun hn => exec_handler_of_nextAlert hm hn rfl,
    fun hn => ⟨s.readStatus, exec_readStatus s, exec_handler_of_nextAlert hm hn rfl⟩,
    fun hn => ⟨s.readStatus, exec_readStatus s, exec_handler_of_nextAlert hm hn rfl⟩,
    fun _ => rfl⟩

/-! ### `H_BUS_OFF` (R118) -/

theorem State.startRecovery_of_recovering {s : State} (hb : s.bhs = .recovering) : s.startRecovery = s := by
  simpa [hb] using s.startRecovery_cases

theorem State.startRecovery_of_draw_ok {s : State} (hb : s.bhs = .normal) (hc : s.ctrl = .busOff)
    (hd : s.drawRecovery = .ok) :
    s.startRecovery = { s with ctrl := .recovering, bhs := .recovering }.logEvent .busOffRecoveryStarted .none := by
  simpa [hb, hc, hd, State.initRecovery_of_draw_ok hc hd] using s.startRecovery_cases

/-- A failed call, whatever its reason, is only logged. -/
theorem State.startRecovery_of_call_err {s : State} {e : ErrCode} (hb : s.bhs = .normal)
    (h : s.initRecovery = (.err e, s)) : s.startRecovery = s.logEvent .recoveryInitFailed (.err e) := by
  rcases s.startRecovery_cases with ⟨hr, -⟩ | ⟨-, hc, hd, -⟩ | ⟨-, e', h', he⟩
  · simp [hb] at hr
  · simp [State.initRecovery_of_draw_ok hc hd] at h
  · obtain rfl : e = e' := by simpa [h] using h'
    exact he

/-- Settles O22: the enabled-handler rule at each case of the body; the two failures are the two ways the call fails. -/
theorem busOffStartsRecoveryOnce : Obligations.BusOffStartsRecoveryOnce := by
  unfold Obligations.BusOffStartsRecoveryOnce
  intro s m hm hn
  exact ⟨fun hb hc hd => exec_handler_of_nextAlert hm hn (State.startRecovery_of_draw_ok hb hc hd),
    fun hb hc hd => exec_handler_of_nextAlert hm hn
      (State.startRecovery_of_call_err hb (State.initRecovery_of_draw_fail hc hd)),
    fun hb hc => exec_handler_of_nextAlert hm hn
      (State.startRecovery_of_call_err hb (State.initRecovery_of_not_busOff hc)),
    fun hb => exec_handler_of_nextAlert hm hn (State.startRecovery_of_recovering hb)⟩

/-! ### `H_BUS_RECOVERED` (R119) -/

theorem State.finishRecovery_of_normal {s : State} (hb : s.bhs = .normal) :
    s.finishRecovery = s.logEvent .spuriousRecovered .none := by
  simpa [hb] using s.finishRecovery_cases

theorem State.finishRecovery_of_draw_ok {s : State} (hb : s.bhs = .recovering) (hc : s.ctrl = .stopped)
    (hd : s.drawRestart = .ok) :
    s.finishRecovery = { s with ctrl := .running, bhs := .normal }.logEvent .busRecoveredRestarted .none := by
  simpa [hb, hc, hd, State.restart_of_draw_ok hc hd] using s.finishRecovery_cases

/-- A failed call, whatever its reason, is only logged: `BHS` stays `Recovering`. -/
theorem State.finishRecovery_of_call_err {s : State} {e : ErrCode} (hb : s.bhs = .recovering)
    (h : s.restart = (.err e, s)) : s.finishRecovery = s.logEvent .restartFailed (.err e) := by
  rcases s.finishRecovery_cases with ⟨hr, -⟩ | ⟨-, hc, hd, -⟩ | ⟨-, e', h', he⟩
  · simp [hb] at hr
  · simp [State.restart_of_draw_ok hc hd] at h
  · obtain rfl : e = e' := by simpa [h] using h'
    exact he

theorem Severity.rank_debug_le (v : Severity) : Severity.rank .debug ≤ Severity.rank v := Nat.zero_le _

/-- Settles O23: the enabled-handler rule at each case of the body; the two failures are the two ways the call fails. -/
theorem busRecoveredRestartsController : Obligations.BusRecoveredRestartsController := by
  unfold Obligations.BusRecoveredRestartsController
  refine ⟨⟨rfl, Severity.rank_debug_le⟩, fun s m hm hn => ?_⟩
  exact ⟨fun hb hc hd => exec_handler_of_nextAlert hm hn (State.finishRecovery_of_draw_ok hb hc hd),
    fun hb hc hd => exec_handler_of_nextAlert hm hn
      (State.finishRecovery_of_call_err hb (State.restart_of_draw_fail hc hd)),
    fun hb hc => exec_handler_of_nextAlert hm hn
      (State.finishRecovery_of_call_err hb (State.restart_of_not_stopped hc)),
    fun hb => exec_handler_of_nextAlert hm hn (State.finishRecovery_of_normal hb)⟩

end Sys2Proof.Machine
end

section
/-! The Frame Channel (spec/42_frame_channel.md): what offering a frame answers and leaves with room, when full inside the
warning window and when full after it, and the obligation about `TRY_ENQUEUE`. -/

namespace Sys2Proof.Machine

/-! ### The warning limiter (R134) -/

/-- Where the last warning lies in the past, the window is compared with the true distance: nothing wraps around. -/
theorem State.warnDue_iff {s : State} (hp : s.lastWarn.toNat ≤ s.timeUs.toNat) :
    s.warnDue = true ↔ s.params.warnWindowUs ≤ s.timeUs.toNat - s.lastWarn.toNat := by
  rw [State.warnDue, decide_eq_true_iff, BitVec.toNat_sub_of_le hp]

/-- Counting a drop moves neither the clock nor the last warning. -/
theorem State.countDrop_warnDue (s : State) : s.countDrop.warnDue = s.warnDue := rfl

theorem State.maybeWarn_of_not_due {s : State} (h : s.warnDue = false) : s.maybeWarn = s := by
  simpa [h] using s.maybeWarn_cases

theorem State.maybeWarn_of_due {s : State} (h : s.warnDue = true) :
    s.maybeWarn = { s.logEvent .chanDrop (.drop s.drop) with lastWarn := s.timeUs } := by
  simpa [h] using s.maybeWarn_cases

/-! ### A frame offered to a constructed channel (R131, R133) -/

theorem State.offer_of_room {s : State} (tf : TimedFrame) (hq : s.q.length < s.params.capacity) :
    s.offer tf = (true, { s with q := s.q ++ [tf] }) := by
  simpa [hq, Nat.not_le.mpr hq] using s.offer_cases tf

theorem State.offer_of_full {s : State} (tf : TimedFrame) (hq : s.params.capacity ≤ s.q.length) :
    s.offer tf = (false, s.countDrop.maybeWarn) := by
  simpa [hq, Nat.not_lt.mpr hq] using s.offer_cases tf

/-- Inside the window the drop is only counted. -/
theorem State.offer_of_full_in_window {s : State} (tf : TimedFrame) (hq : s.params.capacity ≤ s.q.length)
    (hp : s.lastWarn.toNat ≤ s.timeUs.toNat) (hw : s.timeUs.toNat - s.lastWarn.toNat < s.params.warnWindowUs) :
    s.offer tf = (false, s.countDrop) := by
  have hdue : s.warnDue = false := by rw [Bool.eq_false_iff, ne_eq, State.warnDue_iff hp]; omega
  rw [State.offer_of_full tf hq, State.maybeWarn_of_not_due (s.countDrop_warnDue.trans hdue)]

/-- From the end of the window on, the warning carries the new count and restarts the window. -/
theorem State.offer_of_full_after_window {s : State} (tf : TimedFrame) (hq : s.params.capacity ≤ s.q.length)
    (hp : s.lastWarn.toNat ≤ s.timeUs.toNat) (hw : s.params.warnWindowUs ≤ s.timeUs.toNat - s.lastWarn.toNat) :
    s.offer tf = (false,
      { s.countDrop.logEvent .chanDrop (.drop (countedDrop s.params s.drop)) with lastWarn := s.timeUs }) := by
  have hdue : s.warnDue = true := (State.warnDue_iff hp).mpr hw
  rw [State.offer_of_full tf hq, State.maybeWarn_of_due (s.countDrop_warnDue.trans hdue)]
  rfl

/-! ### `TRY_ENQUEUE` (R131) -/

/-- On a constructed channel the operation keeps the state that the offer leaves and reports the offer's answer. -/
theorem exec_tryEnqueue_of_offer {s t : State} {tf : TimedFrame} {taken : Bool} (ha : s.chAlloc = true)
    (h : s.offer tf = (taken, t)) : exec (.tryEnqueue tf) s = .next { t with result := .accepted taken } := by
  change execTryEnqueue tf s = _
  rw [execTryEnqueue, if_pos ha, h]
  rfl

theorem exec_tryEnqueue_of_not_constructed {s : State} (tf : TimedFrame) (ha : s.chAlloc = false) :
    exec (.tryEnqueue tf) s = .refused .channelNotConstructed := by
  change execTryEnqueue tf s = _
  rw [execTryEnqueue, if_neg (by simp [ha])]

/-- Settles O25: each clause on a constructed channel is one case of the offer; the count is `countedDrop`. -/
theorem tryEnqueueAcceptsOrDrops : Obligations.TryEnqueueAcceptsOrDrops := by
  unfold Obligations.TryEnqueueAcceptsOrDrops
  exact ⟨fun _ tf ha hq => exec_tryEnqueue_of_offer ha (State.offer_of_room tf hq),
    fun s tf ha hq hp hw => ⟨countedDrop s.params s.drop, rfl,
      exec_tryEnqueue_of_offer ha (State.offer_of_full_in_window tf hq hp hw)⟩,
    fun s tf ha hq hp hw => ⟨countedDrop s.params s.drop, rfl,
      exec_tryEnqueue_of_offer ha (State.offer_of_full_after_window tf hq hp hw)⟩,
    fun _ tf ha => exec_tryEnqueue_of_not_constructed tf ha,
    rfl⟩

end Sys2Proof.Machine
end

section
/-! The Ingress (spec/43_ingress.md): `ING_ENQ` in terms of the offer it makes to the channel, and the obligation about
it. -/

namespace Sys2Proof.Machine

/-! ### What the warning limiter leaves alone (R134) -/

@[simp] theorem State.maybeWarn_q (s : State) : s.maybeWarn.q = s.q := by
  rcases s.maybeWarn_cases with ⟨-, h⟩ | ⟨-, h⟩ <;> simp [h]

@[simp] theorem State.maybeWarn_drop (s : State) : s.maybeWarn.drop = s.drop := by
  rcases s.maybeWarn_cases with ⟨-, h⟩ | ⟨-, h⟩ <;> simp [h]

/-! ### `ING_ENQ` (R151) -/

/-- The answer `taken` does not appear in the state left: the Ingress goes back to `Recv` either way. -/
theorem exec_ingEnq_of_offer {s t : State} {tf : TimedFrame} {taken : Bool} (hs : s.ingSeq = .held tf)
    (ha : s.chAlloc = true) (h : s.offer tf = (taken, t)) :
    exec .ingEnq s = .next { t with ingSeq := .recv, result := .unit } := by
  change execIngEnq s = _
  simp only [execIngEnq, hs, ha, h, if_true]
  rfl

theorem exec_ingEnq_of_not_constructed {s : State} {tf : TimedFrame} (hs : s.ingSeq = .held tf)
    (ha : s.chAlloc = false) : exec .ingEnq s = .refused .channelNotConstructed := by
  change execIngEnq s = _
  simp [execIngEnq, hs, ha]

/-- Settles O33: on a full channel `ING_ENQ` and `TRY_ENQUEUE` keep the same offer's state, where only the drop is counted
and the limiter may warn. -/
theorem ingEnqOffersHeldFrame : Obligations.IngEnqOffersHeldFrame := by
  unfold Obligations.IngEnqOffersHeldFrame
  refine ⟨fun s tf hs ha hq => exec_ingEnq_of_offer hs ha (State.offer_of_room tf hq), fun s tf hs ha hq => ?_,
    fun s tf hs ha => exec_ingEnq_of_not_constructed hs ha⟩
  have hoffer := State.offer_of_full tf hq
  exact ⟨_, _, exec_tryEnqueue_of_offer ha hoffer, exec_ingEnq_of_offer hs ha hoffer, rfl,
    s.countDrop.maybeWarn_q, s.countDrop.maybeWarn_drop⟩

end Sys2Proof.Machine
end

section
/-! The Egress (spec/45_egress.md): `EGR_EMIT` with a buffer, by the draw of its transport write, and without one; and the
obligation about it. -/

namespace Sys2Proof.Machine

/-! ### What stands in the buffer after the record is stored (R160) -/

theorem Memory.read_writeBytes_take_below (m : Memory) (bs : List Byte) {cap i : Nat} (h : i < min bs.length cap) :
    Memory.read? (Memory.writeBytes m 0 (bs.take cap)) i = bs[i]? := by
  rw [Memory.read_writeBytes, if_pos (by rw [List.length_take]; omega), Nat.sub_zero, List.getElem?_take_of_lt (by omega)]

theorem Memory.read_writeBytes_take_beyond (m : Memory) (bs : List Byte) {cap i : Nat} (h : min bs.length cap ≤ i) :
    Memory.read? (Memory.writeBytes m 0 (bs.take cap)) i = Memory.read? m i := by
  rw [Memory.read_writeBytes, if_neg (by rw [List.length_take]; omega)]

/-! ### `TRANSPORT_WRITE` by its draw (R172) -/

theorem State.transport_of_draw_ok {s : State} (bytes : List Byte) (hd : s.drawTxOk = true) :
    s.transport bytes = { s with tx := s.tx ++ bytes } := by
  simpa [hd] using s.transport_cases bytes

theorem State.transport_of_draw_fail {s : State} (bytes : List Byte) (hd : s.drawTxOk = false) :
    s.transport bytes = s.logEvent .transportSetupFailed .none := by
  simpa [hd] using s.transport_cases bytes

/-! ### `EGR_EMIT` on a held frame (R171) -/

/-- A buffer with room for any byte receives some of the record, so the transport write takes place. -/
theorem record_take_ne_nil (payloadMax : Fin 9) (tf : TimedFrame) {cap : Nat} (hcap : 0 < cap) :
    (record payloadMax tf).take cap ≠ [] := by
  obtain ⟨rest, hrec⟩ := record_opening payloadMax tf
  simp [hrec, textTs, hcap.ne']

/-- With a buffer, the frame is consumed in whatever state `t` the transport write leaves. -/
theorem exec_egrEmit_of_transport {s t : State} {tf : TimedFrame} (hs : s.egrSeq = .held tf) (hcap : 0 < s.params.outCap)
    (h : { s with outbuf := Memory.writeBytes s.outbuf 0 ((record s.params.payloadMax tf).take s.params.outCap) }.transport
      ((record s.params.payloadMax tf).take s.params.outCap) = t) :
    exec .egrEmit s = .next { t with egrSeq := .deq, result := .unit } := by
  subst h
  exact (execEgrEmit_held s tf hs).trans (by rw [if_neg (record_take_ne_nil _ tf hcap)])

theorem exec_egrEmit_of_no_buffer {s : State} {tf : TimedFrame} (hs : s.egrSeq = .held tf) (hcap : s.params.outCap = 0) :
    exec .egrEmit s = .next { s with egrSeq := .deq, result := .unit } :=
  (execEgrEmit_held s tf hs).trans (by rw [if_pos (by simp [hcap])])

/-- Settles O40: the clauses with a buffer are the two outcomes of the transport write, whose draw the stores into `OUTBUF`
do not touch. -/
theorem egrEmitWritesRecord : Obligations.EgrEmitWritesRecord := by
  unfold Obligations.EgrEmitWritesRecord
  intro s tf hs
  refine ⟨Memory.writeBytes s.outbuf 0 ((record s.params.payloadMax tf).take s.params.outCap), ?_, ?_, ?_, ?_, ?_⟩
  · exact fun i hi => Memory.read_writeBytes_take_below _ _ hi
  · exact fun i hi => Memory.read_writeBytes_take_beyond _ _ hi
  · exact fun hcap hd => exec_egrEmit_of_transport hs hcap (State.transport_of_draw_ok _ hd)
  · exact fun hcap hd => exec_egrEmit_of_transport hs hcap (State.transport_of_draw_fail _ hd)
  · exact fun hcap => exec_egrEmit_of_no_buffer hs hcap

end Sys2Proof.Machine
end

section
/-! The environment and the host (spec/46_environment_and_host.md): what raising an alert leaves, what an arriving frame
leaves when it is filtered out, stored or lost, and the obligations about bus events, the clock and `LAUNCH`. -/

namespace Sys2Proof.Machine

/-! ### Raising alerts (R203) -/

/-- The pending mask gets the alert's bit where `ALERT_EN` has it, and nothing else moves. -/
theorem State.raiseAlert_eq (s : State) (a : Alert) :
    s.raiseAlert a = { s with alertPend := s.alertPend ||| (s.params.alertBit.mask a &&& s.alertEn) } := by
  rw [State.raiseAlert, raisedMask_eq]

/-! ### `EV_FRAME` (R180) -/

theorem State.frameArrives_of_filtered {s : State} {f : Frame}
    (h : s.drvCfg.filt = true ∧ s.params.filter.accepts f = false) : s.frameArrives f = s := by
  simpa [h] using s.frameArrives_cases f

theorem State.frameArrives_of_room {s : State} {f : Frame}
    (h : ¬(s.drvCfg.filt = true ∧ s.params.filter.accepts f = false)) (hq : s.hwq.length < s.params.hwqDepth) :
    s.frameArrives f = { s with hwq := s.hwq ++ [f] }.raiseAlert .dataAvail := by
  rcases s.frameArrives_cases f with ⟨hf, ha, -⟩ | ⟨-, -, he⟩ | ⟨-, hfull, -⟩
  · exact absurd ⟨hf, ha⟩ h
  · exact he
  · omega

theorem State.frameArrives_of_full {s : State} {f : Frame}
    (h : ¬(s.drvCfg.filt = true ∧ s.params.filter.accepts f = false)) (hq : s.params.hwqDepth ≤ s.hwq.length) :
    s.frameArrives f = s.raiseAlert .rxqFull := by
  rcases s.frameArrives_cases f with ⟨hf, ha, -⟩ | ⟨-, hroom, -⟩ | ⟨-, -, he⟩
  · exact absurd ⟨hf, ha⟩ h
  · omega
  · exact he

/-- While the controller runs, the event keeps the state that the arrival leaves. -/
theorem exec_evFrame_of_arrival {s t : State} {f : Frame} (hc : s.ctrl = .running) (h : s.frameArrives f = t) :
    exec (.evFrame f) s = .next { t with result := .unit } := by
  change execEvFrame f s = _
  rw [execEvFrame, if_pos hc, h]
  rfl

/-- Settles O42: on each side of the queue's depth, the frame is filtered out or is stored or lost. -/
theorem frameArrivalQueuesOrIsLost : Obligations.FrameArrivalQueuesOrIsLost := by
  unfold Obligations.FrameArrivalQueuesOrIsLost
  refine ⟨fun s f hc hq => ?_, fun s f hc hq => ?_, rfl, fun _ => rfl⟩
  · split
    case isTrue hfilt => exact exec_evFrame_of_arrival hc (State.frameArrives_of_filtered hfilt)
    case isFalse hpass =>
      exact exec_evFrame_of_arrival hc ((State.frameArrives_of_room hpass hq).trans (State.raiseAlert_eq _ _))
  · split
    case isTrue hfilt => exact exec_evFrame_of_arrival hc (State.frameArrives_of_filtered hfilt)
    case isFalse hpass =>
      exact exec_evFrame_of_arrival hc ((State.frameArrives_of_full hpass hq).trans (State.raiseAlert_eq _ _))

/-! ### `EV_BUS_OFF` and `EV_RECOVERY_DONE` (R181, R182) -/

/-- Settles O43: the event's effect is a raised alert in the state already in bus-off; `HWQ` is not touched. -/
theorem busOffEventStopsCapture : Obligations.BusOffEventStopsCapture := by
  unfold Obligations.BusOffEventStopsCapture
  intro s hc
  change execEvBusOff s = _
  rw [execEvBusOff, if_pos hc, State.raiseAlert_eq]
  rfl

/-- Under either policy the event differs in `HWQ` alone. -/
theorem exec_evRecoveryDone_of_hwq {s : State} {hwq : List Frame} (hc : s.ctrl = .recovering)
    (h : recoveredHwq s.params.hwqOnRecovery s.hwq = hwq) :
    exec .evRecoveryDone s = .next { s with
      ctrl := .stopped, hwq := hwq
      alertPend := s.alertPend ||| (s.params.alertBit.mask .busRecovered &&& s.alertEn), result := .unit } := by
  change execEvRecoveryDone s = _
  rw [execEvRecoveryDone, if_pos hc, State.raiseAlert_eq, h]
  rfl

/-- Settles O44: the two policies for `HWQ`. -/
theorem recoveryDoneStopsController : Obligations.RecoveryDoneStopsController := by
  unfold Obligations.RecoveryDoneStopsController
  exact ⟨fun s hc hp => exec_evRecoveryDone_of_hwq hc (by rw [hp]; rfl),
    fun s hc hp => exec_evRecoveryDone_of_hwq hc (by rw [hp]; rfl)⟩

/-! ### `EV_ALERT` (R183) -/

/-- Settles O45: raising the alerts of a mask one after another adds the enabled part of the mask, wherever `ALERT_BIT`
places the bits. -/
theorem alertEventLatchesEnabled : Obligations.AlertEventLatchesEnabled := by
  unfold Obligations.AlertEventLatchesEnabled
  intro s mask hc
  change execEvAlert mask s = _
  rw [execEvAlert, if_neg hc, raisedMasks_eq]
  rfl

/-! ### `EV_TIME` (R184) -/

/-- Settles O46: the comparison that guards the event is inclusive, so the present is a time it may set. -/
theorem clockAdvances : Obligations.ClockAdvances := by
  unfold Obligations.ClockAdvances
  intro s t ht
  change execEvTime t s = _
  rw [execEvTime, if_pos ht]
  rfl

/-! ### `LAUNCH` (R187) -/

/-- Settles O10: the two tests of `LAUNCH`, in the rule's order. -/
theorem launchStartsTasks : Obligations.LaunchStartsTasks := by
  unfold Obligations.LaunchStartsTasks
  refine ⟨fun s hd hl => ?_, fun s hd => ?_, fun s hd hl => ?_⟩ <;> change execLaunch s = _
  · rw [execLaunch, if_neg (by simp [hd]), if_neg (by simp [hl])]
    rfl
  · rw [execLaunch, if_pos (by simp [hd])]
  · rw [execLaunch, if_neg (by simp [hd]), if_pos hl]

end Sys2Proof.Machine
end

section
/-! Reset (spec/70_reset_and_hazards.md): what follows for `IRQ` and for the tasks from the values the reset state holds, and
the obligation about them. -/

namespace Sys2Proof.Machine

/-! ### `IRQ` with nothing pending (R39) -/

theorem State.irq_eq_false_iff (s : State) : s.irq = false ↔ s.alertPend = 0#7 := by
  simp [State.irq]

/-! ### An idle task has no operation (R27) -/

theorem State.agentOp_fm_of_idle {s : State} (h : s.fmSeq = .idle) : s.agentOp .fm = none := by
  simp only [State.agentOp, State.fmOp, h]

theorem State.agentOp_ing_of_idle {s : State} (h : s.ingSeq = .idle) : s.agentOp .ing = none := by
  simp only [State.agentOp, State.ingOp, h]

theorem State.agentOp_egr_of_idle {s : State} (h : s.egrSeq = .idle) : s.agentOp .egr = none := by
  simp only [State.agentOp, State.egrOp, h]

/-! ### The reset state (R240) -/

/-- Settles O8: the stored elements are the reset state's own fields; `IRQ` is low because no alert is pending, and no task
has a step because every sequencer is idle. -/
theorem resetStateValues : Obligations.ResetStateValues := by
  unfold Obligations.ResetStateValues
  have hirq : State.reset.irq = false := (State.irq_eq_false_iff _).mpr rfl
  have hfm : State.reset.agentOp .fm = none := State.agentOp_fm_of_idle rfl
  have hing : State.reset.agentOp .ing = none := State.agentOp_ing_of_idle rfl
  have hegr : State.reset.agentOp .egr = none := State.agentOp_egr_of_idle rfl
  exact ⟨rfl, rfl, rfl, rfl, rfl, rfl, rfl, rfl, rfl, rfl, hirq, rfl, rfl, rfl, rfl, rfl, rfl, rfl, rfl, rfl, rfl, rfl,
    hfm, hing, hegr⟩

end Sys2Proof.Machine
end

section
/-! Decoding and encoding (spec/30_encoding.md R80 to R88, R95): each reader of an operand block undoes its writer and reads
nothing else, the command word finds the row, and the obligations about the encodings. -/

namespace Sys2Proof

/-! ### Each reader undoes its writer (R80, R84 to R88) -/

theorem decodeF_image (mk : Frame → Instr) (f : Frame) (rest : List Byte) :
    decodeF mk (f.image ++ rest) = .ok (mk f, rest) := by
  rw [decodeF, decodeFrame_image]

theorem decodeT_image (mk : TimedFrame → Instr) (tf : TimedFrame) (rest : List Byte) :
    decodeT mk (tf.image ++ rest) = .ok (mk tf, rest) := by
  rw [decodeT, decodeTimedFrame_image]

theorem decodeD_leBytes (mk : Timeout → Instr) {timeout : Timeout} (h : timeout.wellFormed = true) (rest : List Byte) :
    decodeD mk (leBytes 8 timeout.toWord.toNat ++ rest) = .ok (mk timeout, rest) := by
  rw [decodeD, takeLe_leBytes_of_lt 8 _ _ timeout.toWord.isLt]
  simp [Timeout.ofWord_toWord _ h]

/-- The one byte of a mask has bit 7 clear, and is not zero where the mask is not (R88). -/
theorem decodeM_byte (mk : AlertMask → Instr) {mask : AlertMask} (h : mask ≠ 0#7) (rest : List Byte) :
    decodeM mk (BitVec.ofNat 8 mask.toNat :: rest) = .ok (mk mask, rest) := by
  have hlt : mask.toNat < 128 := mask.isLt
  have hpos : mask.toNat ≠ 0 := fun h0 => h (BitVec.eq_of_toNat_eq h0)
  have hbyte : (BitVec.ofNat 8 mask.toNat).toNat = mask.toNat := by
    rw [BitVec.toNat_ofNat]
    omega
  rw [decodeM, hbyte, if_neg (by omega), BitVec.ofNat_toNat, BitVec.setWidth_eq]

theorem decodeU_leBytes (mk : Word64 → Instr) (t : Word64) (rest : List Byte) :
    decodeU mk (leBytes 8 t.toNat ++ rest) = .ok (mk t, rest) := by
  rw [decodeU, takeLe_leBytes_of_lt 8 _ _ t.isLt]
  simp

theorem decodeE_image (mk : Bool → TimedFrame → Word32 → Instr) (valid : Bool) (tf : TimedFrame) (cap : Word32)
    (rest : List Byte) :
    decodeE mk (BitVec.ofNat 8 valid.toNat :: (tf.image ++ leBytes 4 cap.toNat) ++ rest) = .ok (mk valid tf cap, rest) := by
  have hvalid : (BitVec.ofNat 8 valid.toNat).toNat < 2 ∧ (BitVec.ofNat 8 valid.toNat).getLsbD 0 = valid := by
    cases valid <;> decide
  rw [List.cons_append, List.append_assoc, decodeE, if_pos hvalid.1, hvalid.2, decodeTimedFrame_image]
  simp [takeLe_leBytes_of_lt 4 _ _ cap.isLt]

theorem decodeB_leBytes (mk : List Byte → Instr) {bytes : List Byte} (h : bytes.length < 2 ^ 32) (rest : List Byte) :
    decodeB mk (leBytes 4 bytes.length ++ bytes ++ rest) = .ok (mk bytes, rest) := by
  rw [List.append_assoc, decodeB, takeLe_leBytes_of_lt 4 _ _ h]
  simp [takeBytes_append]

/-- Settles O2: the command word finds the row, and the row's reader undoes its writer. -/
theorem decodeOfEncode : Obligations.DecodeOfEncode := by
  unfold Obligations.DecodeOfEncode
  intro i rest hwf
  cases i with
  | tryEnqueue tf => exact decodeT_image .tryEnqueue tf rest
  | dequeue timeout => exact decodeD_leBytes .dequeue hwf rest
  | encodeFrame valid tf cap => exact decodeE_image .encodeFrame valid tf cap rest
  | transportWrite bytes => exact decodeB_leBytes .transportWrite (of_decide_eq_true hwf) rest
  | evFrame f => exact decodeF_image .evFrame f rest
  | evAlert mask => exact decodeM_byte .evAlert (bne_iff_ne.mp hwf) rest
  | evTime t => exact decodeU_leBytes .evTime t rest
  | _ => rfl

/-! ### What a successful reader has read -/

theorem decodeF_eq_ok {mk : Frame → Instr} {bs rest : List Byte} {i : Instr} (h : decodeF mk bs = .ok (i, rest)) :
    ∃ f, i = mk f ∧ f.image ++ rest = bs := by
  unfold decodeF at h
  split at h
  · simp at h
  next f r hf =>
    simp only [Except.ok.injEq, Prod.mk.injEq] at h
    obtain ⟨rfl, rfl⟩ := h
    exact ⟨f, rfl, decodeFrame_eq_ok _ _ _ hf⟩

theorem decodeT_eq_ok {mk : TimedFrame → Instr} {bs rest : List Byte} {i : Instr} (h : decodeT mk bs = .ok (i, rest)) :
    ∃ tf, i = mk tf ∧ tf.image ++ rest = bs := by
  unfold decodeT at h
  split at h
  · simp at h
  next tf r htf =>
    simp only [Except.ok.injEq, Prod.mk.injEq] at h
    obtain ⟨rfl, rfl⟩ := h
    exact ⟨tf, rfl, decodeTimedFrame_eq_ok _ _ _ htf⟩

/-- A field of `n` bytes read as a word of that width is written back as the bytes read. -/
theorem leBytes_ofNat_of_takeLe {n w v : Nat} {bs rest : List Byte} (hw : 256 ^ n = 2 ^ w)
    (h : takeLe n bs = some (v, rest)) : leBytes n (BitVec.ofNat w v).toNat ++ rest = bs := by
  obtain ⟨hlt, hbs⟩ := takeLe_eq_some n bs rest v h
  rwa [BitVec.toNat_ofNat, Nat.mod_eq_of_lt (hw ▸ hlt)]

theorem decodeD_eq_ok {mk : Timeout → Instr} {bs rest : List Byte} {i : Instr} (h : decodeD mk bs = .ok (i, rest)) :
    ∃ timeout, i = mk timeout ∧ timeout.wellFormed = true ∧ leBytes 8 timeout.toWord.toNat ++ rest = bs := by
  unfold decodeD at h
  split at h
  · simp at h
  next us r hus =>
    simp only [Except.ok.injEq, Prod.mk.injEq] at h
    obtain ⟨rfl, rfl⟩ := h
    obtain ⟨hwf, hword⟩ := Timeout.toWord_ofWord (BitVec.ofNat 64 us)
    exact ⟨_, rfl, hwf, by rw [hword, leBytes_ofNat_of_takeLe (by decide) hus]⟩

theorem decodeM_eq_ok {mk : AlertMask → Instr} {bs rest : List Byte} {i : Instr} (h : decodeM mk bs = .ok (i, rest)) :
    ∃ mask, i = mk mask ∧ mask ≠ 0#7 ∧ BitVec.ofNat 8 mask.toNat :: rest = bs := by
  unfold decodeM at h
  split at h
  · simp at h
  next m r =>
  split at h
  · simp at h
  next hm =>
    simp only [Except.ok.injEq, Prod.mk.injEq] at h
    obtain ⟨rfl, rfl⟩ := h
    have hval : (BitVec.ofNat 7 m.toNat).toNat = m.toNat := by
      rw [BitVec.toNat_ofNat]
      omega
    refine ⟨_, rfl, fun h0 => ?_, by rw [hval, BitVec.ofNat_toNat, BitVec.setWidth_eq]⟩
    rw [h0] at hval
    exact hm (.inl hval.symm)

theorem decodeU_eq_ok {mk : Word64 → Instr} {bs rest : List Byte} {i : Instr} (h : decodeU mk bs = .ok (i, rest)) :
    ∃ t, i = mk t ∧ leBytes 8 t.toNat ++ rest = bs := by
  unfold decodeU at h
  split at h
  · simp at h
  next t r ht =>
    simp only [Except.ok.injEq, Prod.mk.injEq] at h
    obtain ⟨rfl, rfl⟩ := h
    exact ⟨_, rfl, leBytes_ofNat_of_takeLe (by decide) ht⟩

/-- A byte below 2 is the byte of its lowest bit. -/
theorem ofNat_toNat_lowBit {v : Byte} (h : v.toNat < 2) : BitVec.ofNat 8 (v.getLsbD 0).toNat = v := by
  revert v
  decide

theorem decodeE_eq_ok {mk : Bool → TimedFrame → Word32 → Instr} {bs rest : List Byte} {i : Instr}
    (h : decodeE mk bs = .ok (i, rest)) :
    ∃ valid tf cap, i = mk valid tf cap
      ∧ BitVec.ofNat 8 valid.toNat :: (tf.image ++ leBytes 4 cap.toNat) ++ rest = bs := by
  unfold decodeE at h
  split at h
  · simp at h
  next v afterValid =>
  split at h
  case isFalse => simp at h
  case isTrue hv =>
  split at h
  · simp at h
  next tf afterTf htf =>
  split at h
  · simp at h
  next cap r hcap =>
    simp only [Except.ok.injEq, Prod.mk.injEq] at h
    obtain ⟨rfl, rfl⟩ := h
    refine ⟨_, tf, _, rfl, ?_⟩
    rw [ofNat_toNat_lowBit hv, List.cons_append, List.append_assoc, leBytes_ofNat_of_takeLe (by decide) hcap,
      decodeTimedFrame_eq_ok _ _ _ htf]

theorem decodeB_eq_ok {mk : List Byte → Instr} {bs rest : List Byte} {i : Instr} (h : decodeB mk bs = .ok (i, rest)) :
    ∃ bytes, i = mk bytes ∧ bytes.length < 2 ^ 32 ∧ leBytes 4 bytes.length ++ bytes ++ rest = bs := by
  unfold decodeB at h
  split at h
  · simp at h
  next n afterN hn =>
  split at h
  · simp at h
  next bytes r hbytes =>
    simp only [Except.ok.injEq, Prod.mk.injEq] at h
    obtain ⟨rfl, rfl⟩ := h
    obtain ⟨hlt, hbs⟩ := takeLe_eq_some 4 bs _ n hn
    obtain ⟨rfl, hafter⟩ := takeBytes_eq_some n afterN _ _ hbytes
    exact ⟨bytes, rfl, hlt, by rw [List.append_assoc, hafter, hbs]⟩

/-- What a successful decoding has read: `i` is well formed, its command word is `c` and its operand block stands first. -/
def ReadsAs (c : Byte) (bs rest : List Byte) (i : Instr) : Prop :=
  i.wellFormed = true ∧ commandWord i = c ∧ operandBlock i ++ rest = bs

/-- A row of the table without operands (R83). -/
theorem readsAs_of_bareRow {c : Byte} {bs rest : List Byte} {i j : Instr} (hc : c.toNat = (commandWord j).toNat)
    (hwf : j.wellFormed = true) (hblock : operandBlock j = [])
    (h : Except.ok (ε := DecodeError) (j, bs) = .ok (i, rest)) : ReadsAs c bs rest i := by
  simp only [Except.ok.injEq, Prod.mk.injEq] at h
  obtain ⟨rfl, rfl⟩ := h
  exact ⟨hwf, (BitVec.eq_of_toNat_eq hc).symm, by rw [hblock, List.nil_append]⟩

/-- Row by row of the table (R83). -/
theorem decodeOperands_readsAs {c : Byte} {bs rest : List Byte} {i : Instr}
    (h : decodeOperands c bs = .ok (i, rest)) : ReadsAs c bs rest i := by
  have word : ∀ {d : Byte}, c.toNat = d.toNat → d = c := fun hc => (BitVec.eq_of_toNat_eq hc).symm
  unfold decodeOperands at h
  split at h
  case h_17 hc =>
    obtain ⟨tf, rfl, hbs⟩ := decodeT_eq_ok h
    exact ⟨rfl, word hc, hbs⟩
  case h_18 hc =>
    obtain ⟨timeout, rfl, hwf, hbs⟩ := decodeD_eq_ok h
    exact ⟨hwf, word hc, hbs⟩
  case h_22 hc =>
    obtain ⟨valid, tf, cap, rfl, hbs⟩ := decodeE_eq_ok h
    exact ⟨rfl, word hc, hbs⟩
  case h_25 hc =>
    obtain ⟨bytes, rfl, hlt, hbs⟩ := decodeB_eq_ok h
    exact ⟨decide_eq_true hlt, word hc, hbs⟩
  case h_26 hc =>
    obtain ⟨f, rfl, hbs⟩ := decodeF_eq_ok h
    exact ⟨rfl, word hc, hbs⟩
  case h_29 hc =>
    obtain ⟨mask, rfl, hne, hbs⟩ := decodeM_eq_ok h
    exact ⟨bne_iff_ne.mpr hne, word hc, hbs⟩
  case h_30 hc =>
    obtain ⟨t, rfl, hbs⟩ := decodeU_eq_ok h
    exact ⟨rfl, word hc, hbs⟩
  case h_31 => simp at h
  all_goals exact readsAs_of_bareRow ‹_› rfl rfl h

/-- Settles O3: the bytes read are the command word of the row and the operand block its reader has read. -/
theorem encodeOfDecode : Obligations.EncodeOfDecode := by
  unfold Obligations.EncodeOfDecode
  intro bs rest i h
  cases bs with
  | nil => simp [decode] at h
  | cons c bs =>
    obtain ⟨hwf, hc, hbs⟩ := decodeOperands_readsAs h
    exact ⟨hwf, by rw [encode, List.cons_append, hc, hbs]⟩

/-! ### Sample words (R81) -/

/-- Settles O1: the decoder evaluated at each word. -/
theorem sampleWordsDecode : Obligations.SampleWordsDecode := by
  unfold Obligations.SampleWordsDecode
  exact ⟨rfl, rfl, rfl, rfl, rfl, rfl, rfl, rfl, rfl, rfl, rfl⟩

/-! ### Reserved encodings (R95) -/

/-- R83's table has a row for a command word exactly outside the ranges of R95 (a). -/
theorem decode_reservedCommand_iff (c : Byte) (bs : List Byte) :
    decode (c :: bs) = .error (.reservedCommand c) ↔
      (c.toNat = 0x00 ∨ (0x03 ≤ c.toNat ∧ c.toNat ≤ 0x0F) ∨ (0x16 ≤ c.toNat ∧ c.toNat ≤ 0x1F)
        ∨ (0x28 ≤ c.toNat ∧ c.toNat ≤ 0x2F) ∨ (0x32 ≤ c.toNat ∧ c.toNat ≤ 0x3F)
        ∨ (0x43 ≤ c.toNat ∧ c.toNat ≤ 0x4F) ∨ (0x54 ≤ c.toNat ∧ c.toNat ≤ 0x5F)
        ∨ (0x65 ≤ c.toNat ∧ c.toNat ≤ 0x6F) ∨ 0x70 ≤ c.toNat) := by
  change decodeOperands c bs = _ ↔ _
  unfold decodeOperands
  split
  case h_17 => exact iff_of_false (Laws.decodeT_ne _ bs c) (by omega)
  case h_18 => exact iff_of_false (Laws.decodeD_ne _ bs c) (by omega)
  case h_22 => exact iff_of_false (Laws.decodeE_ne _ bs c) (by omega)
  case h_25 => exact iff_of_false (Laws.decodeB_ne _ bs c) (by omega)
  case h_26 => exact iff_of_false (Laws.decodeF_ne _ bs c) (by omega)
  case h_29 => exact iff_of_false (Laws.decodeM_ne _ bs c) (by omega)
  case h_30 => exact iff_of_false (Laws.decodeU_ne _ bs c) (by omega)
  case h_31 =>
    refine iff_of_true rfl ?_
    simp only [imp_false] at *
    omega
  all_goals exact iff_of_false (fun h => nomatch h) (by omega)

theorem reservedMask_iff (m : Byte) : (m.toNat = 0 ∨ 128 ≤ m.toNat) ↔ (m = 0#8 ∨ m.getLsbD 7 = true) := by
  revert m
  decide

theorem decode_reservedMask_iff (m : Byte) (bs : List Byte) :
    decode (0x63#8 :: m :: bs) = .error (.reservedMask m) ↔ (m = 0#8 ∨ m.getLsbD 7 = true) := by
  rw [decode_evAlert, decodeM, ← reservedMask_iff]
  split <;> simp [*]

/-- The bits above bit 1 are clear exactly below 4. -/
theorem reservedFlags_iff (flags : Byte) : ¬flags.toNat < 4 ↔ flags.extractLsb' 2 6 ≠ 0#6 := by
  revert flags
  decide

theorem takeLe_append {n : Nat} {xs : List Byte} (h : xs.length = n) (rest : List Byte) :
    ∃ v, takeLe n (xs ++ rest) = some (v, rest) := by
  induction xs generalizing n with
  | nil => subst h; exact ⟨0, rfl⟩
  | cons b xs ih =>
    subst h
    obtain ⟨v, hv⟩ := ih rfl
    exact ⟨b.toNat + 256 * v, by simp [takeLe, hv]⟩

theorem decodeFrame_reservedFlags_iff {id : List Byte} (flags : Byte) (bs : List Byte) (hid : id.length = 4) :
    decodeFrame (id ++ flags :: bs) = .error (.reservedFlags flags) ↔ flags.extractLsb' 2 6 ≠ 0#6 := by
  obtain ⟨v, hv⟩ := takeLe_append hid (flags :: bs)
  rw [← reservedFlags_iff]
  simp only [decodeFrame, hv]
  split
  case isFalse h => simp [h]
  case isTrue h =>
    refine iff_of_false ?_ (not_not_intro h)
    repeat' split
    all_goals simp

/-- A `TF` image fails as its `F` image does. -/
theorem decodeTimedFrame_error_iff {ts : List Byte} (bs : List Byte) (e : DecodeError) (hts : ts.length = 8) :
    decodeTimedFrame (ts ++ bs) = .error e ↔ decodeFrame bs = .error e := by
  obtain ⟨v, hv⟩ := takeLe_append hts bs
  simp only [decodeTimedFrame, hv]
  split <;> simp [*]

theorem decodeF_error_iff (mk : Frame → Instr) (bs : List Byte) (e : DecodeError) :
    decodeF mk bs = .error e ↔ decodeFrame bs = .error e := by
  unfold decodeF
  split <;> simp [*]

theorem decodeT_error_iff (mk : TimedFrame → Instr) (bs : List Byte) (e : DecodeError) :
    decodeT mk bs = .error e ↔ decodeTimedFrame bs = .error e := by
  unfold decodeT
  split <;> simp [*]

/-- Behind a `valid` that is not reserved, what can fail is the `TF` image, or the bytes end too early. -/
theorem decodeE_error_iff (mk : Bool → TimedFrame → Word32 → Instr) {valid : Byte} (bs : List Byte) {e : DecodeError}
    (hv : valid.toNat < 2) (he : e ≠ .truncated) :
    decodeE mk (valid :: bs) = .error e ↔ decodeTimedFrame bs = .error e := by
  rw [decodeE, if_pos hv]
  split
  case h_1 => simp [*]
  case h_2 h =>
    refine iff_of_false ?_ (by simp [h])
    split <;> simp [he.symm]

theorem decodeFrame_ne_reservedValid (bs : List Byte) (v : Byte) : decodeFrame bs ≠ .error (.reservedValid v) := by
  unfold decodeFrame
  repeat' split
  all_goals simp

theorem decodeTimedFrame_ne_reservedValid (bs : List Byte) (v : Byte) :
    decodeTimedFrame bs ≠ .error (.reservedValid v) := by
  unfold decodeTimedFrame
  split
  · simp
  · split
    case h_1 e h => exact fun hc => decodeFrame_ne_reservedValid _ v (by rw [h, Except.error.inj hc])
    case h_2 => simp

theorem decode_reservedValid_iff (v : Byte) (bs : List Byte) :
    decode (0x50#8 :: v :: bs) = .error (.reservedValid v) ↔ 1 < v.toNat := by
  rw [decode_encodeFrame]
  by_cases hv : v.toNat < 2
  · rw [decodeE_error_iff _ _ hv (by simp)]
    exact iff_of_false (decodeTimedFrame_ne_reservedValid bs v) (by omega)
  · rw [decodeE, if_neg hv]
    exact iff_of_true rfl (by omega)

theorem step_of_decode_error {s : Machine.State} {r : Machine.Issue} {rest : List Machine.Issue} {e : DecodeError}
    (hp : s.pending = r :: rest) (hd : decode r.bytes = .error e) :
    Machine.step s = .refused (.reservedEncoding e) := by
  simp [Machine.step, hp, Machine.issuedStep, hd]

/-- Settles O4: each reader's error, as an equivalence, behind the rows of the table that use it. -/
theorem reservedEncodingsRefused : Obligations.ReservedEncodingsRefused := by
  unfold Obligations.ReservedEncodingsRefused
  refine ⟨decode_reservedCommand_iff, decode_reservedMask_iff, fun id ts flags valid bs hid hts hv => ?_,
    decode_reservedValid_iff, fun _ _ _ _ hp hd => step_of_decode_error hp hd, fun f rest => decodeF_image .evFrame f rest⟩
  have hframe := decodeFrame_reservedFlags_iff flags bs hid
  have htimed := (decodeTimedFrame_error_iff (id ++ flags :: bs) (.reservedFlags flags) hts).trans hframe
  rw [decode_evFrame, decode_tryEnqueue, decode_encodeFrame]
  exact ⟨(decodeF_error_iff _ _ _).trans hframe, (decodeT_error_iff _ _ _).trans htimed,
    (decodeE_error_iff _ _ (by omega) (by simp)).trans htimed⟩

end Sys2Proof
end

section
/-! The ring refinement of a queue space (spec/20_memory.md R62): what the ring holds after a push and after a pop, and the
obligation about it. -/

namespace Sys2Proof.Machine

variable {α : Type}

/-- The invariant of R62: the ranges of `HEAD` and `COUNT`, and where `TAIL` stands. -/
theorem QueueRing.wf_iff (r : QueueRing α) :
    r.wf = true ↔ r.head < r.slots.length ∧ r.count ≤ r.slots.length ∧ r.tail = (r.head + r.count) % r.slots.length := by
  simp [QueueRing.wf, and_assoc]

/-- The slot of the `k`-th element exists. -/
theorem QueueRing.slot_isSome {r : QueueRing α} (h : r.head < r.slots.length) (k : Nat) :
    (r.slots[(r.head + k) % r.slots.length]?).isSome = true := by
  rw [isSome_getElem?]
  exact Nat.mod_lt _ (by omega)

theorem QueueRing.length_queue {r : QueueRing α} (h : r.head < r.slots.length) : r.queue.length = r.count := by
  rw [QueueRing.queue, List.filterMap_length_eq_length.mpr fun k _ => slot_isSome h k, List.length_range]

theorem QueueRing.queue_of_count_zero {r : QueueRing α} (h : r.count = 0) : r.queue = [] := by
  rw [QueueRing.queue, h]
  rfl

/-- While the ring is not full, `TAIL` is the slot of none of its elements. -/
theorem QueueRing.slot_ne_tail {r : QueueRing α} (hwf : r.wf = true) (hroom : r.count < r.slots.length) {k : Nat}
    (hk : k < r.count) : r.tail ≠ (r.head + k) % r.slots.length := by
  obtain ⟨-, -, htail⟩ := r.wf_iff.mp hwf
  intro heq
  have hmod : r.count ≡ k [MOD r.slots.length] := Nat.ModEq.add_left_cancel' r.head (htail.symm.trans heq)
  exact hk.ne' (hmod.eq_of_lt_of_lt hroom (hk.trans hroom))

theorem QueueRing.wf_push {r : QueueRing α} (e : α) (hwf : r.wf = true) (hroom : r.count < r.slots.length) :
    (r.push e).wf = true := by
  obtain ⟨hhead, -, htail⟩ := r.wf_iff.mp hwf
  rw [QueueRing.wf_iff]
  simp only [QueueRing.push, List.length_set]
  exact ⟨hhead, hroom, by rw [htail, Nat.mod_add_mod, Nat.add_assoc]⟩

/-- A push writes the slot after the last element's and no element's own. -/
theorem QueueRing.queue_push {r : QueueRing α} (e : α) (hwf : r.wf = true) (hroom : r.count < r.slots.length) :
    (r.push e).queue = r.queue ++ [e] := by
  obtain ⟨hhead, -, htail⟩ := r.wf_iff.mp hwf
  have hlast : (r.slots.set r.tail e)[(r.head + r.count) % r.slots.length]? = some e := by
    rw [← htail, List.getElem?_set_self (htail ▸ Nat.mod_lt _ (by omega))]
  simp only [QueueRing.queue, QueueRing.push, List.length_set, List.range_succ, List.filterMap_append, List.filterMap_cons,
    List.filterMap_nil, hlast]
  congr 1
  exact List.filterMap_congr fun k hk =>
    List.getElem?_set_ne (slot_ne_tail hwf hroom (List.mem_range.mp hk))

/-- A pop takes the element at `HEAD`; the others follow in order, and the invariant holds of what is left. -/
theorem QueueRing.pop_refines {r : QueueRing α} (hwf : r.wf = true) (hpos : 0 < r.count) :
    ∃ e r', r.pop = some (e, r') ∧ r'.wf = true ∧ r.queue = e :: r'.queue := by
  obtain ⟨hhead, hcount, htail⟩ := r.wf_iff.mp hwf
  obtain ⟨n, hn⟩ : ∃ n, r.count = n + 1 := ⟨r.count - 1, by omega⟩
  have hslot : r.slots[r.head]? = some r.slots[r.head] := List.getElem?_eq_getElem hhead
  have hnext : ∀ k, (r.head + (k + 1)) % r.slots.length = ((r.head + 1) % r.slots.length + k) % r.slots.length := by
    intro k
    rw [Nat.mod_add_mod, Nat.add_assoc, Nat.add_comm 1 k]
  refine ⟨r.slots[r.head], _, by rw [QueueRing.pop, if_neg hpos.ne', hslot], ?_, ?_⟩
  · rw [QueueRing.wf_iff]
    exact ⟨Nat.mod_lt _ (by omega), (Nat.sub_le _ _).trans hcount, by simpa only [hn, Nat.add_sub_cancel, ← hnext] using htail⟩
  · simp only [QueueRing.queue, hn, List.range_succ_eq_map, List.filterMap_cons, List.filterMap_map, Nat.add_zero,
      Nat.mod_eq_of_lt hhead, hslot, Nat.add_sub_cancel]
    congr 1
    exact List.filterMap_congr fun k _ => by simp only [Function.comp_apply, Nat.succ_eq_add_one, ← hnext]

/-- Settles O31: the ring holds `HEAD` and the slots after it, so a push adds at the end and a pop takes the first. -/
theorem ringRefinesQueue : Obligations.RingRefinesQueue := by
  unfold Obligations.RingRefinesQueue
  refine fun r => ⟨fun slots h => ?_, fun hwf => QueueRing.length_queue (r.wf_iff.mp hwf).1,
    fun tf hwf hroom => ⟨QueueRing.wf_push tf hwf hroom, QueueRing.queue_push tf hwf hroom⟩,
    fun _ hcount => ⟨by rw [QueueRing.pop, if_pos hcount], QueueRing.queue_of_count_zero hcount⟩, fun hwf hpos => ?_⟩
  · exact ⟨(QueueRing.wf_iff _).mpr ⟨h, Nat.zero_le _, (Nat.zero_mod _).symm⟩, rfl⟩
  · obtain ⟨tf, r', hpop, hwf', hq⟩ := QueueRing.pop_refines hwf hpos
    exact ⟨tf, r', hpop, hwf', by rw [hq]; rfl⟩

end Sys2Proof.Machine
end

section
/-! The encoded record (spec/30_encoding.md R93, spec/44_encoder.md R161 to R166): its characters, its length, how it is read
back at its delimiters, and the obligations about it. -/

namespace Sys2Proof.Machine

/-! ### The renderings are injective (R94) -/

theorem dec_injective {m n : Nat} (hm : m < 2 ^ 64) (hn : n < 2 ^ 64) (h : dec m = dec n) : m = n := by
  rw [← dec_value hm, h, dec_value hn]

theorem boolText_injective {b c : Bool} (h : boolText b = boolText c) : b = c := by
  revert h
  revert b c
  decide

theorem hexDigit_injective {m n : Nat} (hm : m < 16) (hn : n < 16) (h : hexDigit m = hexDigit n) : m = n := by
  have table : ∀ i j : Fin 16, hexDigit i = hexDigit j → i = j := by decide
  exact congrArg Fin.val (table ⟨m, hm⟩ ⟨n, hn⟩ h)

theorem hex2_injective {b c : Byte} (h : hex2 b = hex2 c) : b = c := by
  have hb := b.isLt
  have hc := c.isLt
  simp only [hex2, List.cons.injEq, and_true] at h
  obtain ⟨hhigh, hlow⟩ := h
  have hdiv := hexDigit_injective (by omega) (by omega) hhigh
  have hmod := hexDigit_injective (by omega) (by omega) hlow
  exact BitVec.eq_of_toNat_eq (by omega)

/-- Two characters for each byte, so that the rendered bytes are read back one after another. -/
theorem flatMap_hex2_injective {xs ys : List Byte} (h : xs.flatMap hex2 = ys.flatMap hex2) : xs = ys := by
  induction xs generalizing ys with
  | nil =>
    cases ys with
    | nil => rfl
    | cons y ys => simp [hex2] at h
  | cons x xs ih =>
    cases ys with
    | nil => simp [hex2] at h
    | cons y ys =>
      rw [List.flatMap_cons, List.flatMap_cons] at h
      obtain ⟨hhead, htail⟩ := List.append_inj h rfl
      rw [hex2_injective hhead, ih htail]

/-! ### Characters (R94) -/

/-- The printable characters between `"` and the closing brace. -/
def Printable (c : Byte) : Prop := 0x22 ≤ c.toNat ∧ c.toNat ≤ 0x7D

theorem dec_printable {n : Nat} (h : n < 2 ^ 64) : ∀ c ∈ dec n, Printable c := fun c hc => by
  have := dec_chars_are_digits h c hc
  unfold Printable
  omega

theorem boolText_printable (b : Bool) : ∀ c ∈ boolText b, Printable c := by
  unfold Printable
  cases b <;> decide

/-- A hexadecimal digit is `0` to `9` or `A` to `F`. -/
theorem hexDigit_range {n : Nat} (h : n < 16) : 0x30 ≤ (hexDigit n).toNat ∧ (hexDigit n).toNat ≤ 0x46 := by
  have table : ∀ i : Fin 16, 0x30 ≤ (hexDigit i).toNat ∧ (hexDigit i).toNat ≤ 0x46 := by decide
  exact table ⟨n, h⟩

theorem dataText_range (payloadMax : Fin 9) (f : Frame) :
    ∀ c ∈ dataText payloadMax f, 0x30 ≤ c.toNat ∧ c.toNat ≤ 0x46 := fun c hc => by
  obtain ⟨b, -, hb⟩ := List.mem_flatMap.mp hc
  have hlt := b.isLt
  simp only [hex2, List.mem_cons, List.not_mem_nil, or_false] at hb
  rcases hb with rfl | rfl
  · exact hexDigit_range (by omega)
  · exact hexDigit_range (by omega)

/-! ### Reading the record back at its delimiters (R166) -/

/-- Two texts without the delimiter in front of it are the same where the whole is. -/
theorem split_at_delimiter {d : Byte} {xs xs' ys ys' : List Byte} (hxs : d ∉ xs) (hxs' : d ∉ xs')
    (h : xs ++ d :: ys = xs' ++ d :: ys') : xs = xs' ∧ ys = ys' := by
  induction xs generalizing xs' with
  | nil =>
    cases xs' with
    | nil => exact ⟨rfl, (List.cons.inj h).2⟩
    | cons x' xs' => exact absurd (List.cons.inj h).1 (List.ne_of_not_mem_cons hxs')
  | cons x xs ih =>
    cases xs' with
    | nil => exact absurd (List.cons.inj h).1.symm (List.ne_of_not_mem_cons hxs)
    | cons x' xs' =>
      obtain ⟨hx, htail⟩ := List.cons.inj h
      obtain ⟨hxs, hys⟩ := ih (List.not_mem_of_not_mem_cons hxs) (List.not_mem_of_not_mem_cons hxs') htail
      exact ⟨by rw [hx, hxs], hys⟩

theorem comma_not_mem_dec {n : Nat} (h : n < 2 ^ 64) : 0x2C#8 ∉ dec n := fun hc =>
  absurd (dec_chars_are_digits h _ hc).1 (by decide)

theorem comma_not_mem_boolText (b : Bool) : 0x2C#8 ∉ boolText b := by cases b <;> decide

theorem quote_not_mem_dataText (payloadMax : Fin 9) (f : Frame) : 0x22#8 ∉ dataText payloadMax f := fun hc =>
  absurd (dataText_range payloadMax f _ hc).1 (by decide)

theorem clampedDlc_le (payloadMax : Fin 9) (f : Frame) : clampedDlc payloadMax f ≤ 8 := by
  have := payloadMax.isLt
  unfold clampedDlc
  omega

/-- An identifier is a `u64` as well. -/
theorem id_lt (f : Frame) : f.id.toNat < 2 ^ 64 := f.id.isLt.trans (by decide)

theorem clampedDlc_lt (payloadMax : Fin 9) (f : Frame) : clampedDlc payloadMax f < 2 ^ 64 :=
  (clampedDlc_le payloadMax f).trans_lt (by decide)

/-- The record with the delimiter behind each rendering set apart. -/
theorem record_delimited (payloadMax : Fin 9) (tf : TimedFrame) :
    record payloadMax tf = textTs ++ (dec tf.ts.toNat ++ 0x2C#8 :: (textId.tail ++ (dec tf.frame.id.toNat
      ++ 0x2C#8 :: (textExt.tail ++ (boolText tf.frame.ext ++ 0x2C#8 :: (textRtr.tail ++ (boolText tf.frame.rtr
      ++ 0x2C#8 :: (textDlc.tail ++ (dec (clampedDlc payloadMax tf.frame) ++ 0x2C#8 :: (textData.tail
      ++ (dataText payloadMax tf.frame ++ 0x22#8 :: textEnd.tail))))))))))) := by
  simp only [record, List.append_assoc]
  rfl

/-- Settles O37: each rendering ends at a delimiter that it does not contain, and is injective. -/
theorem recordIsInjective : Obligations.RecordIsInjective := by
  unfold Obligations.RecordIsInjective
  intro payloadMax tf tf' h
  rw [record_delimited, record_delimited] at h
  obtain ⟨hts, h⟩ := split_at_delimiter (comma_not_mem_dec tf.ts.isLt) (comma_not_mem_dec tf'.ts.isLt)
    (List.append_cancel_left h)
  obtain ⟨hid, h⟩ := split_at_delimiter (comma_not_mem_dec (id_lt tf.frame)) (comma_not_mem_dec (id_lt tf'.frame))
    (List.append_cancel_left h)
  obtain ⟨hext, h⟩ := split_at_delimiter (comma_not_mem_boolText _) (comma_not_mem_boolText _) (List.append_cancel_left h)
  obtain ⟨hrtr, h⟩ := split_at_delimiter (comma_not_mem_boolText _) (comma_not_mem_boolText _) (List.append_cancel_left h)
  obtain ⟨hdlc, h⟩ := split_at_delimiter (comma_not_mem_dec (clampedDlc_lt payloadMax tf.frame))
    (comma_not_mem_dec (clampedDlc_lt payloadMax tf'.frame)) (List.append_cancel_left h)
  obtain ⟨hdata, -⟩ := split_at_delimiter (quote_not_mem_dataText _ _) (quote_not_mem_dataText _ _)
    (List.append_cancel_left h)
  exact ⟨BitVec.eq_of_toNat_eq (dec_injective tf.ts.isLt tf'.ts.isLt hts),
    BitVec.eq_of_toNat_eq (dec_injective (id_lt _) (id_lt _) hid), boolText_injective hext, boolText_injective hrtr,
    dec_injective (clampedDlc_lt _ _) (clampedDlc_lt _ _) hdlc, flatMap_hex2_injective hdata⟩

/-! ### The length of the record (R166) -/

theorem dec_of_lt_ten {n : Nat} (h : n < 10) : dec n = [BitVec.ofNat 8 (0x30 + n)] := by
  have hdiv : n / 10 = 0 := by omega
  have hmod : n % 10 = n := by omega
  simp [dec, decDigits, decDigit, hdiv, hmod]

theorem dec_length_pos {n : Nat} (h : n < 2 ^ 64) : 0 < (dec n).length := by
  by_cases h0 : n = 0
  · subst h0
    decide
  · obtain ⟨c, rest, hd, -⟩ := dec_no_leading_zero h0 h
    simp [hd]

/-- As many characters as the number has digits. -/
theorem dec_length_le {n k : Nat} (h : n < 2 ^ 64) (hk : n < 10 ^ k) (hpos : 0 < k) : (dec n).length ≤ k := by
  by_cases h0 : n = 0
  · subst h0
    exact hpos
  · rw [dec_eq_digits h0 h, List.length_reverse, List.length_map]
    exact (Nat.digits_length_le_iff (by decide) n).mpr hk

theorem boolText_length (b : Bool) : 4 ≤ (boolText b).length ∧ (boolText b).length ≤ 5 := by
  cases b <;> decide

theorem length_flatMap_hex2 (xs : List Byte) : (xs.flatMap hex2).length = 2 * xs.length := by
  induction xs with
  | nil => rfl
  | cons x xs ih =>
    rw [List.flatMap_cons, List.length_append, ih, List.length_cons]
    simp only [hex2, List.length_cons, List.length_nil]
    omega

theorem dataText_length (payloadMax : Fin 9) (f : Frame) :
    (dataText payloadMax f).length = 2 * clampedDlc payloadMax f := by
  have hle := clampedDlc_le payloadMax f
  have hdata : f.data.toList.length = 8 := rfl
  rw [dataText, length_flatMap_hex2, List.length_take, hdata]
  omega

theorem record_length (payloadMax : Fin 9) (tf : TimedFrame) :
    (record payloadMax tf).length = 61 + (dec tf.ts.toNat).length + (dec tf.frame.id.toNat).length
      + (boolText tf.frame.ext).length + (boolText tf.frame.rtr).length + 1 + 2 * clampedDlc payloadMax tf.frame := by
  have hdlc := clampedDlc_le payloadMax tf.frame
  simp only [record, List.length_append, dataText_length, dec_of_lt_ten (show clampedDlc payloadMax tf.frame < 10 by omega)]
  simp only [textTs, textId, textExt, textRtr, textDlc, textData, textEnd, List.length_append, List.length_cons,
    List.length_nil]
  omega

theorem record_length_bounds (payloadMax : Fin 9) (tf : TimedFrame) :
    72 ≤ (record payloadMax tf).length ∧ (record payloadMax tf).length ≤ 102 + 2 * payloadMax.val := by
  have hts := tf.ts.isLt
  have hid := tf.frame.id.isLt
  have hts_pos := dec_length_pos hts
  have hid_pos := dec_length_pos (id_lt tf.frame)
  have hts_le : (dec tf.ts.toNat).length ≤ 20 := dec_length_le hts (by omega) (by decide)
  have hid_le : (dec tf.frame.id.toNat).length ≤ 10 := dec_length_le (id_lt tf.frame) (by omega) (by decide)
  have hext := boolText_length tf.frame.ext
  have hrtr := boolText_length tf.frame.rtr
  have hdlc : clampedDlc payloadMax tf.frame ≤ payloadMax.val := Nat.min_le_right _ _
  rw [record_length]
  omega

/-- The longest record has 118 bytes. -/
theorem record_length_le (payloadMax : Fin 9) (tf : TimedFrame) : (record payloadMax tf).length ≤ 118 := by
  have hbounds := record_length_bounds payloadMax tf
  have hmax := payloadMax.isLt
  omega

/-! ### The record as one line (R93, R166) -/

/-- The record without its newline. -/
def recordLine (payloadMax : Fin 9) (tf : TimedFrame) : List Byte :=
  textTs ++ dec tf.ts.toNat ++ (textId ++ dec tf.frame.id.toNat) ++ (textExt ++ boolText tf.frame.ext)
    ++ (textRtr ++ boolText tf.frame.rtr) ++ (textDlc ++ dec (clampedDlc payloadMax tf.frame))
    ++ (textData ++ dataText payloadMax tf.frame) ++ [0x22#8, 0x7D#8]

theorem record_eq_line (payloadMax : Fin 9) (tf : TimedFrame) :
    record payloadMax tf = recordLine payloadMax tf ++ [0x0A#8] := by
  simp only [record, recordLine, List.append_assoc]
  rfl

theorem recordLine_printable (payloadMax : Fin 9) (tf : TimedFrame) : ∀ c ∈ recordLine payloadMax tf, Printable c := by
  have hfixed : ∀ c ∈ textTs ++ textId ++ textExt ++ textRtr ++ textDlc ++ textData ++ [0x22#8, 0x7D#8], Printable c := by
    unfold Printable
    decide
  have hdata : ∀ c ∈ dataText payloadMax tf.frame, Printable c := fun c hc => by
    have := dataText_range payloadMax tf.frame c hc
    unfold Printable
    omega
  simp only [recordLine, List.forall_mem_append] at hfixed ⊢
  have hts := dec_printable tf.ts.isLt
  have hid := dec_printable (id_lt tf.frame)
  have hext := boolText_printable tf.frame.ext
  have hrtr := boolText_printable tf.frame.rtr
  have hdlc := dec_printable (clampedDlc_lt payloadMax tf.frame)
  tauto

/-- The record depends on the data length only through its clamped value. -/
theorem record_congr_dlc (payloadMax : Fin 9) (tf : TimedFrame) {dlc : Byte}
    (h : min dlc.toNat payloadMax.val = clampedDlc payloadMax tf.frame) :
    record payloadMax { tf with frame := { tf.frame with dlc := dlc } } = record payloadMax tf := by
  have hclamped : clampedDlc payloadMax { tf.frame with dlc := dlc } = clampedDlc payloadMax tf.frame := h
  simp only [record, dataText, hclamped]

/-- Settles O36: the one digit of the clamped length, the length of each part and the characters of each part. -/
theorem recordShape : Obligations.RecordShape := by
  unfold Obligations.RecordShape
  refine ⟨rfl, fun payloadMax tf => ⟨?_, ⟨record_length payloadMax tf, (record_length_bounds payloadMax tf).1,
    (record_length_bounds payloadMax tf).2, record_length_le payloadMax tf⟩,
    ⟨recordLine payloadMax tf, record_eq_line payloadMax tf, recordLine_printable payloadMax tf⟩, fun hdlc => ?_⟩⟩
  · have hle := clampedDlc_le payloadMax tf.frame
    simp only [record, List.append_assoc, dec_of_lt_ten (show clampedDlc payloadMax tf.frame < 10 by omega)]
    rfl
  · have hmax := payloadMax.isLt
    refine (record_congr_dlc payloadMax tf ?_).symm
    rw [clampedDlc, BitVec.toNat_ofNat]
    omega

end Sys2Proof.Machine
end

section
/-! The invariants of R47 (spec/10_state.md), of `OUTBUF` and of the widths of R5: what each effect of an operation keeps, and the
obligations about them. -/

namespace Sys2Proof.Machine

open Sys2Proof.Safety

/-! ### What a step is (R6 to R8) -/

theorem exec_cases {i : Instr} {s t : State} (h : exec i s = .next t) : t = s.resetBlock ∨ Effect i s t := by
  by_cases hi : i = .reset
  · subst hi
    exact .inl (Host.Outcome.next.inj h).symm
  · exact .inr (exec_effect i s t h hi)

/-- A step resets the prepared state or has one of the effects there; an agent without an operation waits. -/
theorem step_cases {s t : State} (h : step s = .next t) :
    ∃ i rest draws, i.fits s.params = true
      ∧ (t = (s.begin rest draws).resetBlock ∨ Effect i (s.begin rest draws) t) := by
  rcases step_next_cases s t h with ⟨-, rfl⟩ | ⟨-, i, -, -, hfits, he⟩ | ⟨r, rest, i, after, -, -, -, hfits, he⟩
  · exact ⟨.launch, [], {}, rfl, .inr (.waits _ _)⟩
  · exact ⟨i, _, _, hfits, exec_cases he⟩
  · exact ⟨i, _, _, hfits, exec_cases he⟩

/-- In a whole-block run the operation is no inner one, and no record of the harness is left. -/
theorem wholeBlock_step_cases {s t : State} (hw : WholeBlock s) (h : step s = .next t) :
    ∃ i rest draws, i.inner = false ∧ (∀ r ∈ rest, r.issuer ≠ .harness)
      ∧ (t = (s.begin rest draws).resetBlock ∨ Effect i (s.begin rest draws) t) := by
  rcases step_next_wholeBlock s t hw h with rfl | ⟨i, rest, draws, hinner, hrest, he⟩
  · exact ⟨.launch, [], {}, rfl, by simp, .inr (.waits _ _)⟩
  · exact ⟨i, rest, draws, hinner, hrest, exec_cases he⟩

theorem Effect.params_eq {i : Instr} {s t : State} (h : Effect i s t) : t.params = s.params := by cases h <;> rfl

theorem Effect.pending_eq {i : Instr} {s t : State} (h : Effect i s t) : t.pending = s.pending := by cases h <;> rfl

/-- The clock never goes back (R184). -/
theorem Effect.timeUs_le {i : Instr} {s t : State} (h : Effect i s t) : s.timeUs.toNat ≤ t.timeUs.toNat := by
  cases h
  case timePassed ht => exact ht
  all_goals exact Nat.le_refl _

/-- Only `EV_TIME` moves the clock. -/
theorem Effect.timeUs_cases {i : Instr} {s t : State} (h : Effect i s t) :
    t.timeUs = s.timeUs ∨ i = .evTime t.timeUs := by
  cases h
  case timePassed ht => exact .inr rfl
  all_goals exact .inl rfl

/-- A warning moves the marker to the present. -/
theorem Effect.lastWarn_cases {i : Instr} {s t : State} (h : Effect i s t) :
    t.lastWarn = s.lastWarn ∨ t.lastWarn = s.timeUs := by
  cases h
  case droppedWarned => exact .inr rfl
  case ingDroppedWarned => exact .inr rfl
  all_goals exact .inl rfl

theorem mem_of_mem_recoveredHwq {policy : HwqPolicy} {hwq : List Frame} {f : Frame}
    (h : f ∈ recoveredHwq policy hwq) : f ∈ hwq := by
  cases policy with
  | preserve => exact h
  | flush => exact absurd h List.not_mem_nil

/-- The only frame that comes into `HWQ` is the one of an `EV_FRAME`. -/
theorem Effect.mem_hwq {i : Instr} {s t : State} (h : Effect i s t) {f : Frame} (hf : f ∈ t.hwq) :
    f ∈ s.hwq ∨ i = .evFrame f := by
  cases h with
  | received _ g rest hc hq => exact .inl (hq ▸ List.mem_cons_of_mem _ hf)
  | ingHeld _ g rest hs hc hq => exact .inl (hq ▸ List.mem_cons_of_mem _ hf)
  | frameQueued _ g hc hroom =>
    rcases List.mem_append.mp hf with hold | hnew
    · exact .inl hold
    · exact .inr (List.mem_singleton.mp hnew ▸ rfl)
  | recoveryDone _ hc =>
    exact .inl (mem_of_mem_recoveredHwq hf)
  | _ => exact .inl hf

end Sys2Proof.Machine

namespace Sys2Proof.Safety

open Sys2Proof.Machine

/-! ### The component invariants (R47 items 1, 5, 6, 8, 9) -/

section
variable {s : State} (h : ComponentInv s)
include h

theorem ComponentInv.begin (rest : List Issue) (draws : Draws) : ComponentInv (s.begin rest draws) := { h with }

/-- An installed driver stays installed, in whatever run state. -/
theorem ComponentInv.set_ctrl {c : Ctrl} (hs : s.ctrl ≠ .uninstalled) (hc : c ≠ .uninstalled) :
    ComponentInv { s with ctrl := c } :=
  { h with
    installed_after_pins := fun _ => h.installed_after_pins hs
    done_enables := fun hd => ⟨(h.done_enables hd).1, hc⟩
    fresh_uninstalled := fun hd hf => absurd (h.fresh_uninstalled hd hf).1 hs }

theorem ComponentInv.set_fmSeq {q : FmSeq} (hs : s.fmSeq ≠ .idle) (hq : q ≠ .idle) (hzero : q ≠ .dispatch 0#7) :
    ComponentInv { s with fmSeq := q } :=
  { h with
    dispatch_nonempty := hzero
    idle_until_launched :=
      ⟨iff_of_false hq (mt h.idle_until_launched.1.mpr hs), h.idle_until_launched.2⟩ }

theorem ComponentInv.set_ingSeq {q : IngSeq} (hs : s.ingSeq ≠ .idle) (hq : q ≠ .idle) :
    ComponentInv { s with ingSeq := q } :=
  { h with
    idle_until_launched := ⟨h.idle_until_launched.1,
      iff_of_false hq (mt h.idle_until_launched.2.1.mpr hs), h.idle_until_launched.2.2⟩ }

theorem ComponentInv.set_egrSeq {q : EgrSeq} (hs : s.egrSeq ≠ .idle) (hq : q ≠ .idle) :
    ComponentInv { s with egrSeq := q } :=
  { h with
    idle_until_launched := ⟨h.idle_until_launched.1, h.idle_until_launched.2.1,
      iff_of_false hq (mt h.idle_until_launched.2.2.mpr hs)⟩ }

theorem ComponentInv.handled {m : AlertMask} (hs : s.fmSeq = .dispatch m) (a : Alert) :
    ComponentInv { s with fmSeq := doneSeq s.params.alertBit m a } :=
  h.set_fmSeq (by simp [hs]) (doneSeq_ne_idle _ _ _) (doneSeq_ne_zero _ _ _)

theorem ComponentInv.raise (mask : AlertMask) :
    ComponentInv { s with alertPend := s.alertPend ||| (mask &&& s.alertEn) } :=
  { h with pending_enabled := pending_enabled_or _ _ _ h.pending_enabled }

theorem ComponentInv.clear_pending : ComponentInv { s with alertPend := 0#7 } :=
  { h with pending_enabled := BitVec.zero_and }

theorem ComponentInv.set_hwq {hwq : List Frame} (hlen : hwq.length ≤ s.params.hwqDepth) :
    ComponentInv { s with hwq := hwq } :=
  { h with hwq_bounded := hlen }

theorem ComponentInv.hwq_tail {f : Frame} {rest : List Frame} (hq : s.hwq = f :: rest) :
    ComponentInv { s with hwq := rest } :=
  h.set_hwq (Nat.le_of_succ_le (by simpa [hq] using h.hwq_bounded))

theorem ComponentInv.set_q {q : List TimedFrame} (hlen : q.length ≤ s.params.capacity) : ComponentInv { s with q := q } :=
  { h with channel_bounded := hlen }

theorem ComponentInv.q_tail {tf : TimedFrame} {rest : List TimedFrame} (hq : s.q = tf :: rest) :
    ComponentInv { s with q := rest } :=
  h.set_q (Nat.le_of_succ_le (by simpa [hq] using h.channel_bounded))

theorem ComponentInv.q_push (tf : TimedFrame) (hroom : s.q.length < s.params.capacity) :
    ComponentInv { s with q := s.q ++ [tf] } :=
  h.set_q (by rw [List.length_append]; exact hroom)

theorem ComponentInv.count_drop : ComponentInv { s with drop := countedDrop s.params s.drop } :=
  { h with drop_fits := countedDrop_le _ _ h.drop_fits }

theorem ComponentInv.warned : ComponentInv { s with lastWarn := s.timeUs } :=
  { h with warn_in_past := Nat.le_refl _ }

/-- What `ENCODE` stores stays inside the buffer. -/
theorem ComponentInv.stored (valid : Bool) (tf : TimedFrame) (cap : Nat) :
    ComponentInv { s with
      outbuf := Memory.writeBytes s.outbuf 0 (encodeStored s.params.payloadMax valid tf cap s.params.outCap) } :=
  have hlen : 0 + (encodeStored s.params.payloadMax valid tf cap s.params.outCap).length ≤ s.params.outCap := by
    rw [encodeStored_length]
    omega
  { h with
    outbuf_canonical := ⟨Memory.wf_writeBytes _ _ _ h.outbuf_canonical.1,
      Memory.within_writeBytes _ _ _ _ hlen h.outbuf_canonical.2⟩ }

end

/-- Everything at its reset value meets the invariants, whatever `TIME_US`, `STBY` and `TIMING` are. -/
theorem componentInv_resetBlock (s : State) : ComponentInv s.resetBlock := by
  constructor <;> simp [State.resetBlock, Memory.wf, Memory.within]

/-- Effect by effect: the fields it writes. -/
theorem ComponentInv.effect {i : Instr} {s t : State} (h : ComponentInv s) (he : Effect i s t) : ComponentInv t := by
  cases he with
  | launch _ hd hl =>
    exact { h with
      launched_configured := fun _ => hd
      dispatch_nonempty := by simp
      idle_until_launched := by simp }
  | configureDone _ hl hd hf =>
    obtain ⟨-, hen⟩ := h.fresh_uninstalled hd hf
    have hpend : s.alertPend = 0#7 := pending_none_of_enabled_none _ (hen ▸ h.pending_enabled)
    exact { h with
      launched_configured := fun _ => rfl
      fault_excludes_done := by simp [hf]
      pending_enabled := by simp [hpend]
      installed_after_pins := fun _ => ⟨rfl, rfl, rfl⟩
      done_enables := fun _ => ⟨rfl, by simp⟩
      fresh_uninstalled := by simp }
  | configureFailed0 _ hl hd hf =>
    exact { h with
      fault_excludes_done := by simp [hd]
      fresh_uninstalled := by simp }
  | configureFailed1 _ hl hd hf =>
    exact { h with
      fault_excludes_done := by simp [hd]
      installed_after_pins := fun hc => absurd (h.fresh_uninstalled hd hf).1 hc
      fresh_uninstalled := by simp }
  | configureFailed3 _ hl hd hf =>
    exact { h with
      fault_excludes_done := by simp [hd]
      installed_after_pins := fun _ => ⟨rfl, rfl, rfl⟩
      fresh_uninstalled := by simp }
  | configureFailed4 _ hl hd hf =>
    exact { h with
      fault_excludes_done := by simp [hd]
      installed_after_pins := fun _ => ⟨rfl, rfl, rfl⟩
      done_enables := by simp [hd]
      fresh_uninstalled := by simp }
  | configureFailed5 _ hl hd hf =>
    obtain ⟨-, hen⟩ := h.fresh_uninstalled hd hf
    have hpend : s.alertPend = 0#7 := pending_none_of_enabled_none _ (hen ▸ h.pending_enabled)
    exact { h with
      fault_excludes_done := by simp [hd]
      pending_enabled := by simp [hpend]
      installed_after_pins := fun _ => ⟨rfl, rfl, rfl⟩
      done_enables := by simp [hd]
      fresh_uninstalled := by simp }
  | restartOk _ hc => exact { h.set_ctrl (by simp [hc]) (by simp : Ctrl.running ≠ _) with }
  | initRecoveryOk _ hc => exact { h.set_ctrl (by simp [hc]) (by simp : Ctrl.recovering ≠ _) with }
  | received _ f rest hc hq => exact { h.hwq_tail hq with }
  | alertsRead _ hp => exact { h.clear_pending with }
  | fmWait _ hs hp => exact { h.clear_pending.set_fmSeq (by simp [hs]) (by simp) (by simpa using hp) with }
  | handledQuiet _ a m hs => exact { h.handled hs a with }
  | handledLogged _ a m code payload hs hcode => exact { h.handled hs a with }
  | recoveryStarted _ m hs hb hc =>
    exact { (h.set_ctrl (by simp [hc]) (by simp : Ctrl.recovering ≠ _)).handled hs .busOff with }
  | recoveryFinished _ m hs hb hc =>
    exact { (h.set_ctrl (by simp [hc]) (by simp : Ctrl.running ≠ _)).handled hs .busRecovered with }
  | enqueued _ tf ha hroom => exact { h.q_push tf hroom with }
  | dropped _ tf ha hq hw => exact { h.count_drop with }
  | droppedWarned _ tf ha hq hw => exact { h.count_drop.warned with }
  | dequeued _ timeout tf rest ha hq => exact { h.q_tail hq with }
  | ingHeld _ f rest hs hc hq => exact { (h.hwq_tail hq).set_ingSeq (by simp [hs]) (by simp) with }
  | ingBackoff _ hs hn => exact { h.set_ingSeq (by simp [hs]) (by simp) with }
  | ingBackoffLogged _ hs hn => exact { h.set_ingSeq (by simp [hs]) (by simp) with }
  | ingError _ e hs => exact { h.set_ingSeq (by simp [hs]) (by simp) with }
  | ingEnqueued _ tf hs ha hroom => exact { (h.q_push tf hroom).set_ingSeq (by simp [hs]) (by simp) with }
  | ingDropped _ tf hs ha hq hw => exact { h.count_drop.set_ingSeq (by simp [hs]) (by simp) with }
  | ingDroppedWarned _ tf hs ha hq hw => exact { h.count_drop.warned.set_ingSeq (by simp [hs]) (by simp) with }
  | ingWoken _ wake hs hw => exact { h.set_ingSeq (by simp [hs]) (by simp) with }
  | encoded _ valid tf cap n => exact { h.stored valid tf cap.toNat with }
  | egrHeld _ tf rest hs ha hq => exact { (h.q_tail hq).set_egrSeq (by simp [hs]) (by simp) with }
  | emittedNothing _ tf hs hn => exact { h.set_egrSeq (by simp [hs]) (by simp) with }
  | emitted _ tf hs hd hn => exact { (h.stored true tf s.params.outCap).set_egrSeq (by simp [hs]) (by simp) with }
  | emitFailed _ tf hs hd hn => exact { (h.stored true tf s.params.outCap).set_egrSeq (by simp [hs]) (by simp) with }
  | frameQueued _ f hc hroom =>
    exact { (h.set_hwq (by rw [List.length_append]; exact hroom : (s.hwq ++ [f]).length ≤ _)).raise _ with }
  | frameLost _ f hc hq => exact { h.raise _ with }
  | busOff _ hc => exact { (h.set_ctrl (by simp [hc]) (by simp : Ctrl.busOff ≠ _)).raise _ with }
  | recoveryDone _ hc =>
    have hlen : (recoveredHwq s.params.hwqOnRecovery s.hwq).length ≤ s.params.hwqDepth := by
      cases s.params.hwqOnRecovery
      · exact h.hwq_bounded
      · exact Nat.zero_le _
    exact { ((h.set_ctrl (by simp [hc]) (by simp : Ctrl.stopped ≠ _)).set_hwq hlen).raise _ with }
  | alerted _ mask hc => exact { h.raise mask with }
  | timePassed _ time ht => exact { h with warn_in_past := h.warn_in_past.trans ht }
  | _ => exact { h with }

theorem step_keeps_componentInv {s t : State} (h : ComponentInv s) (hstep : step s = .next t) : ComponentInv t := by
  obtain ⟨i, rest, draws, -, rfl | he⟩ := step_cases hstep
  · exact componentInv_resetBlock _
  · exact (h.begin rest draws).effect he

/-! ### The captured frames (R25, R47 item 7) -/

theorem ingHeld_of_held {s : State} {tf : TimedFrame} (h : s.ingSeq = .held tf) : ingHeld s = [tf] := by
  simp only [ingHeld, h]

theorem ingHeld_of_recv {s : State} (h : s.ingSeq = .recv) : ingHeld s = [] := by simp only [ingHeld, h]

theorem egrHeld_of_held {s : State} {tf : TimedFrame} (h : s.egrSeq = .held tf) : egrHeld s = [tf] := by
  simp only [egrHeld, h]

theorem egrHeld_of_deq {s : State} (h : s.egrSeq = .deq) : egrHeld s = [] := by simp only [egrHeld, h]

/-- What an effect does to the captured frames: some leave, or the head of `HWQ` comes in last with the present as its
timestamp, or a frame is enqueued from outside (R26, R131, R150). -/
def CapturedChange (i : Instr) (s t : State) : Prop :=
  (captured t).Sublist (captured s)
    ∨ (∃ f ∈ s.hwq, captured t = captured s ++ [⟨s.timeUs, f⟩])
    ∨ ∃ tf, i = .tryEnqueue tf ∧ captured t = egrHeld s ++ (s.q ++ [tf]) ++ ingHeld s

/-- A part of the captured frames may leave while the others stay where they are. -/
theorem captured_sublist {egr egr' q q' ing ing' : List TimedFrame} (hegr : egr'.Sublist egr) (hq : q'.Sublist q)
    (hing : ing'.Sublist ing) : (egr' ++ q' ++ ing').Sublist (egr ++ q ++ ing) :=
  (hegr.append hq).append hing

theorem capturedChange_of_effect {i : Instr} {s t : State} (he : Effect i s t) : CapturedChange i s t := by
  cases he with
  | launch _ hd hl => exact .inl (captured_sublist (List.nil_sublist _) (.refl _) (List.nil_sublist _))
  | enqueued _ tf ha hroom => exact .inr (.inr ⟨tf, rfl, rfl⟩)
  | dequeued _ timeout tf rest ha hq =>
    exact .inl (captured_sublist (.refl _) (by rw [hq]; exact List.sublist_cons_self ..) (.refl _))
  | ingHeld _ f rest hs hc hq =>
    refine .inr (.inl ⟨f, by simp [hq], ?_⟩)
    rw [captured, captured, ingHeld_of_recv hs, List.append_nil]
    rfl
  | ingBackoff _ hs hn => exact .inl (captured_sublist (.refl _) (.refl _) (List.nil_sublist _))
  | ingBackoffLogged _ hs hn => exact .inl (captured_sublist (.refl _) (.refl _) (List.nil_sublist _))
  | ingError _ e hs => exact .inl (captured_sublist (.refl _) (.refl _) (List.nil_sublist _))
  | ingEnqueued _ tf hs ha hroom =>
    refine .inl ?_
    rw [captured, captured, ingHeld_of_held hs, ingHeld_of_recv rfl, List.append_nil, ← List.append_assoc]
    exact .refl _
  | ingDropped _ tf hs ha hq hw => exact .inl (captured_sublist (.refl _) (.refl _) (List.nil_sublist _))
  | ingDroppedWarned _ tf hs ha hq hw => exact .inl (captured_sublist (.refl _) (.refl _) (List.nil_sublist _))
  | ingWoken _ wake hs hw => exact .inl (captured_sublist (.refl _) (.refl _) (List.nil_sublist _))
  | egrHeld _ tf rest hs ha hq =>
    refine .inl ?_
    rw [captured, captured, egrHeld_of_deq hs, egrHeld_of_held rfl, hq]
    exact .refl _
  | emittedNothing _ tf hs hn => exact .inl (captured_sublist (List.nil_sublist _) (.refl _) (.refl _))
  | emitted _ tf hs hd hn => exact .inl (captured_sublist (List.nil_sublist _) (.refl _) (.refl _))
  | emitFailed _ tf hs hd hn => exact .inl (captured_sublist (List.nil_sublist _) (.refl _) (.refl _))
  | _ => exact .inl (.refl _)

theorem captured_resetBlock (s : State) : captured s.resetBlock = [] := rfl

/-! ### The widths of R5 (log 8) -/

theorem FieldsFit.begin {s : State} (h : FieldsFit s) (rest : List Issue) (draws : Draws) :
    FieldsFit (s.begin rest draws) := { h with }

/-- The drawn time of R21 has `TS_W` bits. -/
theorem drawResetTime_fits (s : State) : timeFits s.params s.drawResetTime = true := by
  have hpow : 2 ^ s.params.tsWidth.val ≤ 2 ^ 64 := Nat.pow_le_pow_right (by decide) (by omega)
  have hlt : ∀ n, n % 2 ^ s.params.tsWidth.val < 2 ^ s.params.tsWidth.val := fun n => Nat.mod_lt _ (by positivity)
  rw [timeFits, decide_eq_true_iff, State.drawResetTime, BitVec.toNat_ofNat,
    Nat.mod_eq_of_lt ((hlt _).trans_le hpow)]
  exact hlt _

theorem fieldsFit_resetBlock (s : State) : FieldsFit s.resetBlock where
  time := drawResetTime_fits s
  warn := decide_eq_true (Nat.two_pow_pos _)
  hwq := by simp [State.resetBlock]
  captured := by simp [captured_resetBlock]

/-- What comes in fits: the operand of the operation, or a frame of `HWQ` with the present. -/
theorem FieldsFit.effect {i : Instr} {s t : State} (h : FieldsFit s) (hfits : i.fits s.params = true)
    (he : Effect i s t) : FieldsFit t where
  time := by
    rw [he.params_eq]
    rcases he.timeUs_cases with ht | hi
    · exact ht ▸ h.time
    · exact (hi ▸ hfits : Instr.fits s.params (.evTime t.timeUs) = true)
  warn := by
    rw [he.params_eq]
    rcases he.lastWarn_cases with hw | hw
    · exact hw ▸ h.warn
    · exact hw ▸ h.time
  hwq f hf := by
    rw [he.params_eq]
    rcases he.mem_hwq hf with hold | hi
    · exact h.hwq f hold
    · exact (hi ▸ hfits : Instr.fits s.params (.evFrame f) = true)
  captured tf htf := by
    rw [he.params_eq]
    rcases capturedChange_of_effect he with hsub | ⟨f, hf, heq⟩ | ⟨new, hi, heq⟩
    · exact h.captured tf (hsub.subset htf)
    · rw [heq, List.mem_append, List.mem_singleton] at htf
      rcases htf with hold | rfl
      · exact h.captured tf hold
      · exact Bool.and_eq_true_iff.mpr ⟨h.time, h.hwq f hf⟩
    · have hmem : tf = new ∨ tf ∈ Safety.captured s := by
        rw [heq] at htf
        simp only [Safety.captured, List.mem_append, List.mem_singleton] at htf ⊢
        tauto
      rcases hmem with rfl | hold
      · exact (hi ▸ hfits : Instr.fits s.params (.tryEnqueue tf) = true)
      · exact h.captured tf hold

/-- Settles O49: both invariants hold after `RESET` and are kept by every effect in the prepared state. -/
theorem stepKeepsComponentInvariants : Obligations.StepKeepsComponentInvariants := by
  unfold Obligations.StepKeepsComponentInvariants
  refine ⟨fun s t h hstep => step_keeps_componentInv h hstep, fun s t h hstep => ?_⟩
  obtain ⟨i, rest, draws, hfits, rfl | he⟩ := step_cases hstep
  · exact fieldsFit_resetBlock _
  · exact (h.begin rest draws).effect hfits he

/-! ### The order of capture (R47 item 7) -/

theorem captureOrdered_iff (s : State) :
    CaptureOrdered s ↔ ((captured s).map fun tf => tf.ts.toNat).Pairwise (· ≤ ·)
      ∧ ∀ tf ∈ captured s, tf.ts.toNat ≤ s.timeUs.toNat := by
  simp [CaptureOrdered, List.pairwise_append]

theorem captureOrdered_resetBlock (s : State) : CaptureOrdered s.resetBlock := by
  simp [captureOrdered_iff, captured_resetBlock]

/-- Frames leave, and the one that comes in is last and stamped with the present; none comes from outside. -/
theorem CaptureOrdered.effect {i : Instr} {s t : State} (h : CaptureOrdered s) (hinner : i.inner = false)
    (he : Effect i s t) : CaptureOrdered t := by
  obtain ⟨hsorted, hpast⟩ := (captureOrdered_iff s).mp h
  have htime := he.timeUs_le
  rw [captureOrdered_iff]
  rcases capturedChange_of_effect he with hsub | ⟨f, -, heq⟩ | ⟨new, rfl, -⟩
  · exact ⟨hsorted.sublist (hsub.map _), fun tf htf => (hpast tf (hsub.subset htf)).trans htime⟩
  · rw [heq]
    refine ⟨by simpa [CaptureOrdered] using h, fun tf htf => ?_⟩
    rcases List.mem_append.mp htf with hold | hnew
    · exact (hpast tf hold).trans htime
    · exact List.mem_singleton.mp hnew ▸ htime
  · exact absurd hinner (by simp [Instr.inner])

/-- Settles O51: `TRY_ENQUEUE`, the one way for a frame to come in with another timestamp than the present, is an inner
operation. -/
theorem wholeBlockStepKeepsCaptureOrder : Obligations.WholeBlockStepKeepsCaptureOrder := by
  unfold Obligations.WholeBlockStepKeepsCaptureOrder
  intro s t hw h hstep
  obtain ⟨i, rest, draws, hinner, -, rfl | he⟩ := wholeBlock_step_cases hw hstep
  · exact captureOrdered_resetBlock _
  · exact CaptureOrdered.effect (s := s.begin rest draws) h hinner he

/-! ### The alert set of a started controller (R47 item 4) -/

theorem alertsInstalled_resetBlock (s : State) : AlertsInstalled s.resetBlock := by
  simp [AlertsInstalled, State.resetBlock]

/-- A handler runs only in a launched block, which is configured. -/
theorem ComponentInv.cfgDone_of_dispatch {s : State} {m : AlertMask} (h : ComponentInv s) (hs : s.fmSeq = .dispatch m) :
    s.cfgDone = true := by
  refine h.launched_configured (Bool.of_not_eq_false fun hl => ?_)
  rw [h.idle_until_launched.1.mpr hl] at hs
  cases hs

/-- Without the inner `RESTART` and `INIT_RECOVERY`, a controller is started by a `CONFIGURE` that enables the alerts first, or
by a handler, which runs only after one. -/
theorem AlertsInstalled.effect {i : Instr} {s t : State} (h : AlertsInstalled s) (hinv : ComponentInv s)
    (hinner : i.inner = false) (he : Effect i s t) : AlertsInstalled t := by
  cases he with
  | configureDone _ hl hd hf => exact fun _ => rfl
  | configureFailed4 _ hl hd hf => simp [AlertsInstalled]
  | configureFailed5 _ hl hd hf => exact fun _ => rfl
  | restartOk _ hc => simp [Instr.inner] at hinner
  | initRecoveryOk _ hc => simp [Instr.inner] at hinner
  | recoveryStarted _ m hs hb hc => exact fun _ => h (.inr (.inl hc))
  | recoveryFinished _ m hs hb hc => exact fun _ => (hinv.done_enables (hinv.cfgDone_of_dispatch hs)).1
  | busOff _ hc => exact fun _ => h (.inl hc)
  | recoveryDone _ hc => simp [AlertsInstalled]
  | _ => exact h

/-- Settles O50: the records left are no harness's, and every effect of a non-inner operation keeps the alert set. -/
theorem wholeBlockStepKeepsAlertSet : Obligations.WholeBlockStepKeepsAlertSet := by
  unfold Obligations.WholeBlockStepKeepsAlertSet
  intro s t hw hinv h hstep
  obtain ⟨i, rest, draws, hinner, hrest, rfl | he⟩ := wholeBlock_step_cases hw hstep
  · exact ⟨hrest, alertsInstalled_resetBlock _⟩
  · refine ⟨?_, AlertsInstalled.effect (s := s.begin rest draws) h (hinv.begin rest draws) hinner he⟩
    rw [WholeBlock, he.pending_eq]
    exact hrest

/-! ### Whole records (R173 (b), R252) -/

theorem txIsRecords_resetBlock (s : State) : TxIsRecords s.resetBlock := ⟨[], rfl⟩

/-- A buffer of 118 bytes holds every record whole. -/
theorem encodeStored_eq_record (payloadMax : Fin 9) (tf : TimedFrame) {outCap : Nat} (h : 118 ≤ outCap) :
    encodeStored payloadMax true tf outCap outCap = record payloadMax tf := by
  rw [encodeStored_full, List.take_of_length_le ((record_length_le payloadMax tf).trans h)]

/-- Without the inner `TRANSPORT_WRITE`, only `EGR_EMIT` writes, and what it writes is one record. -/
theorem TxIsRecords.effect {i : Instr} {s t : State} (h : TxIsRecords s) (hcap : 118 ≤ s.params.outCap)
    (hinner : i.inner = false) (he : Effect i s t) : TxIsRecords t := by
  obtain ⟨frames, hframes⟩ := h
  cases he with
  | emitted _ tf hs hd hn =>
    refine ⟨frames ++ [tf], ?_⟩
    rw [List.flatMap_append, List.flatMap_singleton, ← hframes, ← encodeStored_eq_record _ _ hcap]
  | written _ bytes => simp [Instr.inner] at hinner
  | _ => exact ⟨frames, hframes⟩

/-- Settles O52: the longest record fits the buffer, so what `EGR_EMIT` appends is a whole one. -/
theorem wholeBlockStepKeepsRecordsWhole : Obligations.WholeBlockStepKeepsRecordsWhole := by
  unfold Obligations.WholeBlockStepKeepsRecordsWhole
  intro s t hw hcap h hstep
  obtain ⟨i, rest, draws, hinner, -, rfl | he⟩ := wholeBlock_step_cases hw hstep
  · exact txIsRecords_resetBlock _
  · exact TxIsRecords.effect (s := s.begin rest draws) h hcap hinner he

/-! ### The reset state -/

/-- The state right after power-up is the one `RESET` leaves there, with its free values. -/
theorem resetBlock_reset : State.reset.resetBlock = State.reset := by
  have htime : State.reset.drawResetTime = Config.resetTime 0 := by
    change BitVec.ofNat 64 ((Config.resetTime 0).toNat % 2 ^ 64) = _
    rw [Nat.mod_eq_of_lt (Config.resetTime 0).isLt, BitVec.ofNat_toNat, BitVec.setWidth_eq]
  rw [State.resetBlock, htime]
  rfl

/-- Settles O53: each invariant holds after `RESET`, and so in the state right after power-up. -/
theorem resetStateHasInvariants : Obligations.ResetStateHasInvariants := by
  unfold Obligations.ResetStateHasInvariants
  rw [← resetBlock_reset]
  exact ⟨componentInv_resetBlock _, fieldsFit_resetBlock _, alertsInstalled_resetBlock _, captureOrdered_resetBlock _,
    txIsRecords_resetBlock _, by simp [WholeBlock, State.resetBlock, State.reset]⟩

end Sys2Proof.Safety
end

section
/-! The step and its issue (spec/00_scope.md R6 to R8, spec/30_encoding.md R96, R97, spec/10_state.md R27): a record's step by what
its bytes decode to, the owners and inner operations, the free turn, and the obligations about them. -/

namespace Sys2Proof.Machine

/-! ### A record's step (R95, R96) -/

section
variable {s : State} {r : Issue} {rest : List Issue} {i : Instr} {after : List Byte}

theorem step_of_wrongIssuer (hp : s.pending = r :: rest) (hd : decode r.bytes = .ok (i, after))
    (hm : r.issuer.may i = false) : step s = .refused .wrongIssuer := by
  simp [step, hp, issuedStep, hd, hm]

theorem step_of_unfit (hp : s.pending = r :: rest) (hd : decode r.bytes = .ok (i, after)) (hm : r.issuer.may i = true)
    (hf : i.fits s.params = false) : step s = .refused .operandTooWide := by
  simp [step, hp, issuedStep, hd, hm, hf]

theorem step_of_issued (hp : s.pending = r :: rest) (hd : decode r.bytes = .ok (i, after)) (hm : r.issuer.may i = true)
    (hf : i.fits s.params = true) : step s = exec i (s.begin (r.leftover after ++ rest) r.draws) := by
  simp [step, hp, issuedStep, hd, hm, hf]

end

/-! ### The widths of R5 (log 8) -/

theorem Frame.fits_reset (f : Frame) : f.fits State.reset.params = true :=
  Bool.and_eq_true_iff.mpr ⟨decide_eq_true f.id.isLt, decide_eq_true f.dlc.isLt⟩

theorem timeFits_reset (t : Word64) : timeFits State.reset.params t = true := decide_eq_true t.isLt

theorem TimedFrame.fits_reset (tf : TimedFrame) : tf.fits State.reset.params = true :=
  Bool.and_eq_true_iff.mpr ⟨timeFits_reset tf.ts, Frame.fits_reset tf.frame⟩

theorem Instr.fits_reset (i : Instr) : i.fits State.reset.params = true := by
  cases i with
  | tryEnqueue tf => exact TimedFrame.fits_reset tf
  | encodeFrame valid tf cap => exact TimedFrame.fits_reset tf
  | evFrame f => exact Frame.fits_reset f
  | evTime t => exact timeFits_reset t
  | _ => rfl

/-- Settles O5: the step's tests in their order, and what the preparation of the step writes. -/
theorem stepRunsIssuedOperation : Obligations.StepRunsIssuedOperation := by
  unfold Obligations.StepRunsIssuedOperation
  exact ⟨fun s r rest i after hp hd hm => ⟨step_of_issued hp hd hm, step_of_unfit hp hd hm⟩, Instr.fits_reset,
    fun s rest draws => rfl, fun r => rfl, fun r b bs => rfl⟩

/-! ### Issue restrictions (R83, R96) -/

/-- An agent may issue its own operations but for the inner ones. -/
theorem Issuer.may_agent_iff (a : Agent) (i : Instr) :
    Issuer.may (.agent a) i = true ↔ a = i.owner ∧ i.inner = false := by
  simp [Issuer.may]

theorem Issuer.may_agent_eq_false {a : Agent} {i : Instr} (h : a ≠ i.owner ∨ i.inner = true) :
    Issuer.may (.agent a) i = false := by
  rw [Bool.eq_false_iff, ne_eq, Issuer.may_agent_iff]
  rintro ⟨howner, hinner⟩
  rcases h with h | h
  · exact h howner
  · simp [hinner] at h

theorem Instr.inner_iff (i : Instr) :
    i.inner = true ↔ (i = .restart ∨ i = .initRecovery ∨ i = .receive ∨ i = .readStatus
      ∨ i = .readAlerts ∨ (∃ tf, i = .tryEnqueue tf) ∨ (∃ timeout, i = .dequeue timeout)
      ∨ (∃ valid tf cap, i = .encodeFrame valid tf cap) ∨ ∃ bytes, i = .transportWrite bytes) := by
  cases i <;> simp [Instr.inner]

/-- The groups of R81 name the owner, but for the operations of the Peripheral Controller and the Frame Channel. -/
theorem Instr.owner_iff (i : Instr) :
    (i.owner = .host ↔ i = .reset ∨ i = .launch ∨ i = .configure)
      ∧ (i.owner = .env ↔ commandGroup (commandWord i) = 6#4)
      ∧ (i.owner = .ing ↔ commandGroup (commandWord i) = 4#4 ∨ i = .receive ∨ ∃ tf, i = .tryEnqueue tf)
      ∧ (i.owner = .egr ↔ commandGroup (commandWord i) = 5#4 ∨ ∃ timeout, i = .dequeue timeout)
      ∧ (i.owner = .fm ↔ commandGroup (commandWord i) = 2#4 ∨ i = .restart ∨ i = .initRecovery ∨ i = .readStatus
          ∨ i = .readAlerts) := by
  cases i <;> simp [Instr.owner, commandGroup, commandWord]

/-- Settles O6: the issuer's test of the step, and the two tables. -/
theorem wrongIssuerRefused : Obligations.WrongIssuerRefused := by
  unfold Obligations.WrongIssuerRefused
  refine ⟨fun s r rest i after hp hd => ⟨fun a ha hwrong => ?_, fun hr hf => ?_⟩, Instr.inner_iff, Instr.owner_iff⟩
  · exact step_of_wrongIssuer hp hd (ha ▸ Issuer.may_agent_eq_false hwrong)
  · exact step_of_issued hp hd (by rw [hr]; rfl) hf

/-! ### The free turn (R27, R112, R250) -/

theorem State.agentOp_fm_of_dispatch {s : State} {m : AlertMask} {a : Alert} (hs : s.fmSeq = .dispatch m)
    (hn : nextAlert s.params m = some a) : s.agentOp .fm = some a.handler := by
  simp only [State.agentOp, State.fmOp, hs, hn, Option.map_some]

theorem State.agentOp_fm_of_wait {s : State} (hs : s.fmSeq = .wait) : s.agentOp .fm = some .fmWait := by
  simp only [State.agentOp, State.fmOp, hs]

theorem State.agentOp_ing_of_recv {s : State} (hs : s.ingSeq = .recv) : s.agentOp .ing = some .ingRecv := by
  simp only [State.agentOp, State.ingOp, hs]

theorem State.agentOp_ing_of_held {s : State} {tf : TimedFrame} (hs : s.ingSeq = .held tf) :
    s.agentOp .ing = some .ingEnq := by
  simp only [State.agentOp, State.ingOp, hs]

theorem State.agentOp_ing_of_backoff {s : State} {wake : Nat} (hs : s.ingSeq = .backoff wake) :
    s.agentOp .ing = some .ingWake := by
  simp only [State.agentOp, State.ingOp, hs]

theorem State.agentOp_egr_of_deq {s : State} (hs : s.egrSeq = .deq) : s.agentOp .egr = some .egrDeq := by
  simp only [State.agentOp, State.egrOp, hs]

theorem State.agentOp_egr_of_held {s : State} {tf : TimedFrame} (hs : s.egrSeq = .held tf) :
    s.agentOp .egr = some .egrEmit := by
  simp only [State.agentOp, State.egrOp, hs]

/-- What a chosen operation is: well formed, fitting, the agent's own and no inner one (R185, R188). -/
theorem chosenOp_eq_some {p : Params} {a : Agent} {i j : Instr} (h : chosenOp p a i = some j) :
    j = i ∧ i.wellFormed = true ∧ i.fits p = true ∧ i.owner = a ∧ i.inner = false := by
  unfold chosenOp at h
  split at h
  case isTrue hc =>
    simp only [Bool.and_eq_true, Issuer.may_agent_iff] at hc
    obtain ⟨⟨hwf, hfits⟩, howner, hinner⟩ := hc
    exact ⟨(Option.some.inj h).symm, hwf, hfits, howner.symm, hinner⟩
  case isFalse => cases h

/-- Settles O7: each sequencer value allows one operation, and a chosen operation passes the test of `chosenOp`. -/
theorem freeStepFollowsSequencers : Obligations.FreeStepFollowsSequencers := by
  unfold Obligations.FreeStepFollowsSequencers
  refine ⟨fun s hp => ?_, fun s => ?_, fun p a i j h => chosenOp_eq_some h⟩
  · rw [step, hp]
    rfl
  · exact ⟨State.agentOp_fm_of_idle, State.agentOp_fm_of_wait, fun m a hs hn => State.agentOp_fm_of_dispatch hs hn,
      State.agentOp_ing_of_idle, State.agentOp_ing_of_recv, fun _ hs => State.agentOp_ing_of_held hs,
      fun _ hs => State.agentOp_ing_of_backoff hs, State.agentOp_egr_of_idle, State.agentOp_egr_of_deq,
      fun _ hs => State.agentOp_egr_of_held hs, rfl, rfl⟩

end Sys2Proof.Machine
end

section
/-! The operations one by one, each clause of its rule in spec/40_peripheral_controller.md to
spec/46_environment_and_host.md as a lemma, and the obligations about them. -/

namespace Sys2Proof.Machine

/-! ### `RESET` and `CONFIGURE` (R186, R100) -/

/-- Settles O9: `RESET` writes the fields of the reset state. -/
theorem resetRestoresResetState : Obligations.ResetRestoresResetState := by
  unfold Obligations.ResetRestoresResetState
  exact fun s => rfl

theorem exec_configure_of_launched {s : State} (hl : s.launched = true) :
    exec .configure s = .refused .reconfigureAtRuntime := by
  change execConfigure s = _
  rw [execConfigure, if_pos hl]

theorem exec_configure_of_done {s : State} (hl : s.launched = false) (hd : s.cfgDone = true) :
    exec .configure s = .next { s with result := .res .ok } := by
  change execConfigure s = _
  rw [execConfigure, if_neg (by simp [hl]), if_pos hd]
  rfl

theorem exec_configure_of_failed {s : State} (hl : s.launched = false) (hd : s.cfgDone = false) (hf : s.fault = true) :
    exec .configure s = .refused .configureAfterFailure := by
  change execConfigure s = _
  rw [execConfigure, if_neg (by simp [hl]), if_neg (by simp [hd]), if_pos hf]

/-- The first `CONFIGURE` runs the steps, and the draw says which one fails. -/
theorem exec_configure_of_fresh {s : State} {c : CfgFault} (hl : s.launched = false) (hd : s.cfgDone = false)
    (hf : s.fault = false) (hc : s.drawCfgFail = c) :
    exec .configure s = .next (State.runConfigure (CfgFault.failing c) configureOrder s) := by
  change execConfigure s = _
  rw [execConfigure, if_neg (by simp [hl]), if_neg (by simp [hd]), if_neg (by simp [hf]), hc]

/-- Settles O12: the steps run one after another for each value of the draw. -/
theorem configureRunsStepsInOrder : Obligations.ConfigureRunsStepsInOrder := by
  unfold Obligations.ConfigureRunsStepsInOrder
  refine ⟨⟨rfl, by decide⟩, fun s hl hd hf => ?_⟩
  refine ⟨fun hc => ?_, fun hc => ?_, fun hc => ?_, fun hc => ?_, fun hc => ?_, fun hc => ?_⟩ <;>
    rw [exec_configure_of_fresh hl hd hf hc] <;>
    simp only [CfgFault.failing, configureOrder, State.runConfigure, CfgStep.apply, reduceCtorEq, if_false, if_true,
      Option.some.injEq] <;>
    rfl

/-- Settles O13: the three tests of `CONFIGURE`, in the rule's order. -/
theorem configureAgain : Obligations.ConfigureAgain := by
  unfold Obligations.ConfigureAgain
  exact ⟨fun _ hl hd => exec_configure_of_done hl hd, fun _ hl => exec_configure_of_launched hl,
    fun _ hl hd hf => exec_configure_of_failed hl hd hf⟩

/-! ### `RECEIVE` (R103, R206) -/

theorem State.receive_of_timeout {s : State} (hd : s.drawRxFault = .timeout) : s.receive = .failed .timeout := by
  simp [State.receive, hd]

theorem State.receive_of_fail {s : State} (hd : s.drawRxFault = .fail) : s.receive = .failed .fail := by
  simp [State.receive, hd]

theorem State.receive_of_not_running {s : State} (hd : s.drawRxFault = .noFault) (hc : s.ctrl ≠ .running) :
    s.receive = .failed .notReady := by
  simp [State.receive, hd, hc]

theorem State.receive_of_empty {s : State} (hd : s.drawRxFault = .noFault) (hc : s.ctrl = .running) (hq : s.hwq = []) :
    s.receive = .blocked := by
  simp [State.receive, hd, hc, hq, pop]

theorem State.receive_of_frame {s : State} {f : Frame} {rest : List Frame} (hd : s.drawRxFault = .noFault)
    (hc : s.ctrl = .running) (hq : s.hwq = f :: rest) : s.receive = .frame f rest := by
  simp [State.receive, hd, hc, hq, pop]

theorem exec_receive_of_failed {s : State} {e : ErrCode} (h : s.receive = .failed e) :
    exec .receive s = .next { s with result := .receiveFailed e } := by
  change execReceive s = _
  rw [execReceive, h]
  rfl

theorem exec_receive_of_blocked {s : State} (h : s.receive = .blocked) :
    exec .receive s = .next s.waits := by
  change execReceive s = _
  rw [execReceive, h]

theorem exec_receive_of_frame {s : State} {f : Frame} {rest : List Frame} (h : s.receive = .frame f rest) :
    exec .receive s = .next { s with hwq := rest, result := .received f } := by
  change execReceive s = _
  rw [execReceive, h]
  rfl

/-- Settles O16: each clause is one case of the reception. -/
theorem receiveTakesHead : Obligations.ReceiveTakesHead := by
  unfold Obligations.ReceiveTakesHead
  exact ⟨fun _ _ _ hd hc hq => exec_receive_of_frame (State.receive_of_frame hd hc hq),
    fun _ hd hc hq => exec_receive_of_blocked (State.receive_of_empty hd hc hq),
    fun _ hd hc => exec_receive_of_failed (State.receive_of_not_running hd hc),
    fun _ hd => exec_receive_of_failed (State.receive_of_timeout hd),
    fun _ hd => exec_receive_of_failed (State.receive_of_fail hd)⟩

/-! ### `READ_STATUS` and `READ_ALERTS` (R104, R105) -/

theorem State.readStatus_of_ok {s : State} (hc : s.ctrl ≠ .uninstalled) (hd : s.drawStatusFails = false) :
    s.readStatus = some s.status := by
  simp [State.readStatus, hc, hd]

theorem State.readStatus_of_fail {s : State} (h : s.ctrl = .uninstalled ∨ s.drawStatusFails = true) :
    s.readStatus = none := by
  rcases h with h | h <;> simp [State.readStatus, h]

/-- Settles O17: the operation reports the snapshot and writes nothing else. -/
theorem readStatusHasNoEffect : Obligations.ReadStatusHasNoEffect := by
  unfold Obligations.ReadStatusHasNoEffect
  exact ⟨fun s hc hd => State.readStatus_of_ok hc hd ▸ exec_readStatus s,
    fun s h => State.readStatus_of_fail h ▸ exec_readStatus s⟩

theorem State.takeAlerts_of_pending {s : State} (h : s.alertPend ≠ 0#7) :
    s.takeAlerts = some (s.alertPend, { s with alertPend := 0#7 }) := by
  simpa [h] using s.takeAlerts_cases

theorem State.takeAlerts_of_none {s : State} (h : s.alertPend = 0#7) : s.takeAlerts = none := by
  simpa [h] using s.takeAlerts_cases

/-- Settles O18: the two cases of the atomic read-and-clear. -/
theorem readAlertsClears : Obligations.ReadAlertsClears := by
  unfold Obligations.ReadAlertsClears
  refine ⟨fun s h => ?_, fun s h => ?_⟩ <;> change execReadAlerts s = _
  · rw [execReadAlerts, State.takeAlerts_of_pending h]
    rfl
  · rw [execReadAlerts, State.takeAlerts_of_none h]
    rfl

/-! ### `FM_WAIT` (R110) -/

theorem exec_fmWait_of_pending {s : State} (hs : s.fmSeq = .wait) (hp : s.alertPend ≠ 0#7) :
    exec .fmWait s = .next { s with alertPend := 0#7, fmSeq := .dispatch s.alertPend, result := .unit } := by
  change execFmWait s = _
  simp only [execFmWait, hs, State.takeAlerts_of_pending hp]
  rfl

theorem exec_fmWait_of_not_enabled {s : State} (h : s.fmSeq ≠ .wait ∨ s.alertPend = 0#7) :
    exec .fmWait s = .next s.waits := by
  change execFmWait s = _
  cases hs : s.fmSeq with
  | idle => simp only [execFmWait, hs]
  | dispatch m => simp only [execFmWait, hs]
  | wait =>
    have hp : s.alertPend = 0#7 := h.resolve_left (not_not_intro hs)
    simp only [execFmWait, hs, State.takeAlerts_of_none hp]

/-- Settles O19: enabled in `Wait` with an alert pending, and nowhere else. -/
theorem fmWaitEntersDispatch : Obligations.FmWaitEntersDispatch := by
  unfold Obligations.FmWaitEntersDispatch
  exact ⟨fun _ hs hp => exec_fmWait_of_pending hs hp, fun _ h => exec_fmWait_of_not_enabled h⟩

/-! ### `DEQUEUE` (R132) -/

theorem exec_dequeue_of_head {s : State} {tf : TimedFrame} {rest : List TimedFrame} (timeout : Timeout)
    (ha : s.chAlloc = true) (hq : s.q = tf :: rest) :
    exec (.dequeue timeout) s = .next { s with q := rest, result := .dequeued (some tf) } := by
  change execDequeue timeout s = _
  rw [execDequeue, if_pos ha, hq]
  rfl

/-- On an empty channel the wait ends or goes on. -/
theorem exec_dequeue_of_empty {s : State} {timeout : Timeout} {ends : Bool} (ha : s.chAlloc = true) (hq : s.q = [])
    (he : s.deqEnds timeout = ends) :
    exec (.dequeue timeout) s = .next (s.withResult (if ends = true then .dequeued none else .blocked)) := by
  change execDequeue timeout s = _
  rw [execDequeue, if_pos ha, hq, he]
  cases ends <;> rfl

theorem exec_dequeue_of_not_constructed {s : State} (timeout : Timeout) (ha : s.chAlloc = false) :
    exec (.dequeue timeout) s = .refused .channelNotConstructed := by
  change execDequeue timeout s = _
  rw [execDequeue, if_neg (by simp [ha])]

/-- Settles O26: the head, or the end of the wait by the kind of the timeout. -/
theorem dequeueTakesHead : Obligations.DequeueTakesHead := by
  unfold Obligations.DequeueTakesHead
  exact ⟨fun _ timeout _ _ ha hq => exec_dequeue_of_head timeout ha hq,
    fun _ ha hq => exec_dequeue_of_empty (ends := false) ha hq rfl,
    fun _ ha hq => exec_dequeue_of_empty (ends := true) ha hq rfl,
    fun s us ha hq hus => exec_dequeue_of_empty ha hq (by simp [State.deqEnds, hus]),
    fun _ timeout ha => exec_dequeue_of_not_constructed timeout ha⟩

/-! ### The Ingress (R150 to R152) -/

theorem exec_ingRecv_of_recv {s : State} (hs : s.ingSeq = .recv) : exec .ingRecv s = .next s.ingestReception := by
  change execIngRecv s = _
  rw [execIngRecv, hs]

theorem exec_ingRecv_of_other {s : State} (hs : s.ingSeq ≠ .recv) :
    exec .ingRecv s = .next s.waits := by
  change execIngRecv s = _
  unfold execIngRecv
  split
  · exact absurd ‹_› hs
  all_goals rfl

theorem State.ingestReception_of_frame {s : State} {f : Frame} {rest : List Frame} (h : s.receive = .frame f rest) :
    s.ingestReception
      = { s with hwq := rest, nrLogged := false, ingSeq := .held ⟨s.timeUs, f⟩, result := .unit } := by
  rw [State.ingestReception, h]
  rfl

theorem State.ingestReception_of_blocked {s : State} (h : s.receive = .blocked) :
    s.ingestReception = s.waits := by
  rw [State.ingestReception, h]

theorem State.ingestReception_of_notReady {s t : State} (h : s.receive = .failed .notReady) (ht : s.logNotReady = t) :
    s.ingestReception = { t with ingSeq := .backoff s.backoffDeadline, result := .unit } := by
  rw [State.ingestReception, h]
  subst ht
  rfl

/-- Any other error is logged, and the Ingress stays where it is. -/
theorem State.ingestReception_of_error {s : State} {e : ErrCode} (hs : s.ingSeq = .recv) (h : s.receive = .failed e)
    (he : e ≠ .notReady) :
    s.ingestReception = { s with log := s.log ++ [⟨.ing, .rxError, .err e⟩], result := .unit } := by
  rw [State.ingestReception, h]
  cases e with
  | notReady => exact absurd rfl he
  | _ =>
    dsimp only
    rw [← hs]
    rfl

theorem State.logNotReady_of_first {s : State} (h : s.nrLogged = false) :
    s.logNotReady = { s with log := s.log ++ [⟨.ing, .rxNotReady, .bhs s.bhs⟩], nrLogged := true } := by
  rw [State.logNotReady, if_neg (by simp [h])]
  rfl

theorem State.logNotReady_of_logged {s : State} (h : s.nrLogged = true) : s.logNotReady = s := by
  rw [State.logNotReady, if_pos h]

/-- Settles O32: each clause is one case of the reception. -/
theorem ingRecvStampsOrBacksOff : Obligations.IngRecvStampsOrBacksOff := by
  unfold Obligations.IngRecvStampsOrBacksOff
  refine ⟨fun s f rest hs hd hc hq => ?_, fun s hs hd hc hn => ?_, fun s hs hd hc hn => ?_, fun s hs hd => ?_,
    fun s hs hd => ?_, fun s hs hd hc hq => ?_, fun s hs => exec_ingRecv_of_other hs⟩ <;> rw [exec_ingRecv_of_recv hs]
  · rw [State.ingestReception_of_frame (State.receive_of_frame hd hc hq)]
  · rw [State.ingestReception_of_notReady (State.receive_of_not_running hd hc) (State.logNotReady_of_first hn)]
    rfl
  · rw [State.ingestReception_of_notReady (State.receive_of_not_running hd hc) (State.logNotReady_of_logged hn)]
    rfl
  · rw [State.ingestReception_of_error hs (State.receive_of_timeout hd) (by simp)]
  · rw [State.ingestReception_of_error hs (State.receive_of_fail hd) (by simp)]
  · rw [State.ingestReception_of_blocked (State.receive_of_empty hd hc hq)]
    rfl

theorem exec_ingEnq_of_not_held {s : State} (h : ∀ tf, s.ingSeq ≠ .held tf) :
    exec .ingEnq s = .next s.waits := by
  change execIngEnq s = _
  unfold execIngEnq
  split
  · exact absurd ‹_› (h _)
  all_goals rfl

theorem exec_ingWake_of_due {s : State} {wake : Nat} (hs : s.ingSeq = .backoff wake) (hw : wake ≤ s.timeUs.toNat) :
    exec .ingWake s = .next { s with ingSeq := .recv, result := .unit } := by
  change execIngWake s = _
  simp only [execIngWake, hs, if_pos hw]
  rfl

theorem exec_ingWake_of_early {s : State} {wake : Nat} (hs : s.ingSeq = .backoff wake) (hw : s.timeUs.toNat < wake) :
    exec .ingWake s = .next s.waits := by
  change execIngWake s = _
  simp only [execIngWake, hs, if_neg (Nat.not_le.mpr hw)]

theorem exec_ingWake_of_not_backoff {s : State} (h : ∀ wake, s.ingSeq ≠ .backoff wake) :
    exec .ingWake s = .next s.waits := by
  change execIngWake s = _
  unfold execIngWake
  split
  · exact absurd ‹_› (h _)
  all_goals rfl

/-- Settles O34: the deadline is inclusive. -/
theorem ingWakeEndsBackoff : Obligations.IngWakeEndsBackoff := by
  unfold Obligations.IngWakeEndsBackoff
  exact ⟨fun _ _ hs hw => exec_ingWake_of_due hs hw, fun _ _ hs hw => exec_ingWake_of_early hs hw,
    fun _ h => exec_ingWake_of_not_backoff h⟩

/-! ### `ENCODE` (R160, R163, R164) -/

theorem encodeLength_le (payloadMax : Fin 9) (valid : Bool) (tf : TimedFrame) (cap : Nat) :
    encodeLength payloadMax valid tf cap ≤ (record payloadMax tf).length := by
  unfold encodeLength
  split <;> omega

theorem encodeLength_word (payloadMax : Fin 9) (valid : Bool) (tf : TimedFrame) (cap : Word32) :
    encodeLength payloadMax valid tf cap.toNat
      = if valid = false ∨ cap = 0#32 then 0 else min (record payloadMax tf).length cap.toNat := by
  have hzero : cap.toNat = 0 ↔ cap = 0#32 := ⟨fun h => BitVec.eq_of_toNat_eq h, fun h => h ▸ rfl⟩
  simp [encodeLength, hzero]

/-- Settles O38: the bytes stored are the first `n` of the record, as far as the buffer goes. -/
theorem encodeWritesRecord : Obligations.EncodeWritesRecord := by
  unfold Obligations.EncodeWritesRecord
  intro valid tf cap s
  have hle := encodeLength_le s.params.payloadMax valid tf cap.toNat
  refine ⟨encodeLength s.params.payloadMax valid tf cap.toNat, _, encodeLength_word _ _ _ _, rfl, fun i hi hcap => ?_,
    fun i hi => ?_⟩
  · exact Memory.read_writeBytes_take_below _ _ (by omega)
  · exact Memory.read_writeBytes_take_beyond _ _ (by omega)

/-! ### The Egress (R170 to R172) -/

theorem exec_egrDeq_of_head {s : State} {tf : TimedFrame} {rest : List TimedFrame} (hs : s.egrSeq = .deq)
    (ha : s.chAlloc = true) (hq : s.q = tf :: rest) :
    exec .egrDeq s = .next { s with q := rest, egrSeq := .held tf, result := .unit } := by
  change execEgrDeq s = _
  simp only [execEgrDeq, hs, ha, hq, if_true]
  rfl

theorem exec_egrDeq_of_empty {s : State} (hs : s.egrSeq = .deq) (ha : s.chAlloc = true) (hq : s.q = []) :
    exec .egrDeq s = .next s.waits := by
  change execEgrDeq s = _
  simp only [execEgrDeq, hs, ha, hq, if_true]
  rfl

theorem exec_egrDeq_of_other {s : State} (hs : s.egrSeq ≠ .deq) :
    exec .egrDeq s = .next s.waits := by
  change execEgrDeq s = _
  unfold execEgrDeq
  split
  · exact absurd ‹_› hs
  all_goals rfl

theorem exec_egrDeq_of_not_constructed {s : State} (hs : s.egrSeq = .deq) (ha : s.chAlloc = false) :
    exec .egrDeq s = .refused .channelNotConstructed := by
  change execEgrDeq s = _
  simp [execEgrDeq, hs, ha]

/-- Settles O39: the sequencer first, then the construction, then the queue. -/
theorem egrDeqHoldsHead : Obligations.EgrDeqHoldsHead := by
  unfold Obligations.EgrDeqHoldsHead
  exact ⟨fun _ _ _ hs ha hq => exec_egrDeq_of_head hs ha hq, fun _ hs ha hq => exec_egrDeq_of_empty hs ha hq,
    fun _ hs => exec_egrDeq_of_other hs, fun _ hs ha => exec_egrDeq_of_not_constructed hs ha⟩

theorem exec_egrEmit_of_not_held {s : State} (h : ∀ tf, s.egrSeq ≠ .held tf) :
    exec .egrEmit s = .next s.waits := by
  change execEgrEmit s = _
  unfold execEgrEmit
  split
  · exact absurd ‹_› (h _)
  all_goals rfl

theorem exec_transportWrite_of_transport {s t : State} {bytes : List Byte} (h : s.transport bytes = t) :
    exec (.transportWrite bytes) s = .next { t with result := .unit } := by
  subst h
  rfl

/-- Settles O41: the two draws of the transport write. -/
theorem transportWriteAllOrNothing : Obligations.TransportWriteAllOrNothing := by
  unfold Obligations.TransportWriteAllOrNothing
  exact ⟨fun _ bytes hd => exec_transportWrite_of_transport (State.transport_of_draw_ok bytes hd),
    fun _ bytes hd => exec_transportWrite_of_transport (State.transport_of_draw_fail bytes hd)⟩

/-! ### Steps that are not enabled (R180 to R184, R151, R171) -/

/-- Settles O47: each guard fails, and the operation waits. -/
theorem operationsOutsidePreconditionWait : Obligations.OperationsOutsidePreconditionWait := by
  unfold Obligations.OperationsOutsidePreconditionWait
  refine ⟨fun s f hc => ?_, fun s hc => ?_, fun s hc => ?_, fun s mask hc => ?_, fun s t ht => ?_,
    fun _ h => exec_ingEnq_of_not_held h, fun _ h => exec_egrEmit_of_not_held h⟩
  · change execEvFrame f s = _
    rw [execEvFrame, if_neg hc]
    rfl
  · change execEvBusOff s = _
    rw [execEvBusOff, if_neg hc]
    rfl
  · change execEvRecoveryDone s = _
    rw [execEvRecoveryDone, if_neg hc]
    rfl
  · change execEvAlert mask s = _
    rw [execEvAlert, if_pos hc]
    rfl
  · change execEvTime t s = _
    rw [execEvTime, if_neg (Nat.not_le.mpr ht)]
    rfl

/-! ### Registers (R34, R39) -/

/-- The word `FLAGS`, bit by bit. -/
theorem flags_word_bits (b0 b1 b2 b3 b4 b5 : Bool) :
    (List.range 8).map (BitVec.ofNat 8 (b0.toNat + 2 * b1.toNat + 4 * b2.toNat + 8 * b3.toNat + 16 * b4.toNat
      + 32 * b5.toNat)).getLsbD = [b0, b1, b2, b3, b4, b5, false, false] := by
  revert b0 b1 b2 b3 b4 b5
  decide

theorem ofBool_eq_ite (b : Bool) : BitVec.ofBool b = if b = true then 1#1 else 0#1 := by cases b <;> rfl

theorem State.irq_iff (s : State) : s.irq = true ↔ s.alertPend ≠ 0#7 := bne_iff_ne

/-- The handlers stand in R83's table in the order of R87's bits. -/
theorem commandWord_handler (a : Alert) :
    (commandWord a.handler).toNat = 0x21 + (State.reset.params.alertBit.bit a).val := by cases a <;> rfl

/-- Settles O48: each register is its element or the code of it. -/
theorem registersReadAsWords : Obligations.RegistersReadAsWords := by
  unfold Obligations.RegistersReadAsWords
  refine ⟨fun s => ?_, commandWord_handler⟩
  have hbits := flags_word_bits s.cfgDone s.launched s.pinCfg s.stby s.chAlloc s.nrLogged
  simp only [List.range_succ, List.range_zero, List.nil_append, List.cons_append, List.map_cons, List.map_nil,
    List.cons.injEq, and_true] at hbits
  obtain ⟨h0, h1, h2, h3, h4, h5, h6, h7⟩ := hbits
  have hsr0 : s.sr0 = (match s.ctrl with
      | .uninstalled => 0#3 | .stopped => 1#3 | .running => 2#3 | .busOff => 3#3 | .recovering => 4#3) := by
    unfold State.sr0
    cases s.ctrl <;> rfl
  have hsr4 : s.sr4 = (match s.bhs with | .normal => 0#1 | .recovering => 1#1) := by
    unfold State.sr4
    cases s.bhs <;> rfl
  have hsr1 : s.sr1 = (1#1, if s.drvCfg.filt = true then 1#1 else 0#1, s.drvCfg.timing) := by
    rw [State.sr1, ofBool_eq_ite]
    rfl
  have hsr7 : s.drop < 2 ^ s.params.dropWidth → s.sr7.toNat = s.drop := fun h => by
    rw [State.sr7, BitVec.toNat_ofNat, Nat.mod_eq_of_lt h]
  exact ⟨hsr0, rfl, hsr1, rfl, rfl, hsr4, ofBool_eq_ite s.fault, h0, h1, h2, h3, h4, h5, h6, h7, hsr7, rfl, rfl, rfl, rfl,
    rfl, rfl, rfl, rfl, s.irq_iff⟩

end Sys2Proof.Machine
end

section
/-! What every operation keeps: the configuration, the streams, the health of the bus, the owners of the state, and what an operation
refuses (spec/10_state.md R22 to R38, spec/20_memory.md R76, spec/60_exceptions.md R200, R202, R220, R224,
spec/70_reset_and_hazards.md R246, R253), and the obligations about them. -/

namespace Sys2Proof.Machine

open Sys2Proof.Safety

@[simp] theorem handler_owner (a : Alert) : a.handler.owner = .fm := by cases a <;> rfl

/-! ### The configuration (R76, R100, R253) -/

/-- No element that `CONFIGURE` sets up is written. -/
def SameConfiguration (s t : State) : Prop :=
  t.drvCfg = s.drvCfg ∧ t.alertEn = s.alertEn ∧ t.pinCfg = s.pinCfg ∧ t.stby = s.stby ∧ t.chAlloc = s.chAlloc
    ∧ t.cfgDone = s.cfgDone ∧ t.fault = s.fault

/-- Only the first `CONFIGURE` writes the configuration. -/
theorem Effect.configuration_cases {i : Instr} {s t : State} (he : Effect i s t) :
    SameConfiguration s t ∨ (i = .configure ∧ s.launched = false ∧ s.cfgDone = false ∧ s.fault = false) := by
  cases he with
  | configureDone _ hl hd hf => exact .inr ⟨rfl, hl, hd, hf⟩
  | configureFailed0 _ hl hd hf => exact .inr ⟨rfl, hl, hd, hf⟩
  | configureFailed1 _ hl hd hf => exact .inr ⟨rfl, hl, hd, hf⟩
  | configureFailed3 _ hl hd hf => exact .inr ⟨rfl, hl, hd, hf⟩
  | configureFailed4 _ hl hd hf => exact .inr ⟨rfl, hl, hd, hf⟩
  | configureFailed5 _ hl hd hf => exact .inr ⟨rfl, hl, hd, hf⟩
  | _ => exact .inl ⟨rfl, rfl, rfl, rfl, rfl, rfl, rfl⟩

/-- Settles O56: after a successful `CONFIGURE` there is no first one left. -/
theorem configurationIsFrozen : Obligations.ConfigurationIsFrozen := by
  unfold Obligations.ConfigurationIsFrozen
  intro i s t h
  refine ⟨?_, fun hdone hi => ?_⟩
  · rcases exec_cases h with rfl | he
    · rfl
    · exact he.params_eq
  · rcases (exec_effect i s t h hi).configuration_cases with ⟨hdrv, hen, hpin, hstby, hch, hcfg, hfault⟩ | ⟨-, -, hd, -⟩
    · exact ⟨hdrv, hen, hpin, hstby, hch, hcfg.trans hdone, hfault⟩
    · simp [hdone] at hd

/-! ### The log and the warning limiter (R22, R91, R134, R224) -/

/-- What an effect does to `LOG` and to the marker of the limiter: nothing, or one event of the owner that is no channel
warning, or a warning that is due. -/
def LogChange (i : Instr) (s t : State) : Prop :=
  (t.log = s.log ∧ t.lastWarn = s.lastWarn)
    ∨ (∃ code payload, code ≠ .chanDrop ∧ t.log = s.log ++ [⟨i.owner, code, payload⟩] ∧ t.lastWarn = s.lastWarn)
    ∨ (i.owner = .ing ∧ s.warnDue = true ∧ t.log = s.log ++ [⟨.ing, .chanDrop, .drop t.drop⟩] ∧ t.lastWarn = s.timeUs)

theorem Effect.logChange {i : Instr} {s t : State} (he : Effect i s t) : LogChange i s t := by
  have logged : ∀ {a : Agent} (code : LogCode) (payload : LogPayload), i.owner = a → code ≠ .chanDrop →
      t.log = s.log ++ [⟨a, code, payload⟩] → t.lastWarn = s.lastWarn → LogChange i s t :=
    fun code payload ha hcode hlog hwarn => .inr (.inl ⟨code, payload, hcode, ha ▸ hlog, hwarn⟩)
  cases he with
  | configureFailed0 _ hl hd hf => exact logged .cfgFail _ rfl (by simp) rfl rfl
  | configureFailed1 _ hl hd hf => exact logged .cfgFail _ rfl (by simp) rfl rfl
  | configureFailed3 _ hl hd hf => exact logged .cfgFail _ rfl (by simp) rfl rfl
  | configureFailed4 _ hl hd hf => exact logged .cfgFail _ rfl (by simp) rfl rfl
  | configureFailed5 _ hl hd hf => exact logged .cfgFail _ rfl (by simp) rfl rfl
  | handledLogged _ a m code payload hs hcode =>
    exact logged code payload (handler_owner a) (fun h => by simp [h, LogCode.agent] at hcode) rfl rfl
  | recoveryStarted _ m hs hb hc => exact logged .busOffRecoveryStarted _ rfl (by simp) rfl rfl
  | recoveryFinished _ m hs hb hc => exact logged .busRecoveredRestarted _ rfl (by simp) rfl rfl
  | droppedWarned _ tf ha hq hw => exact .inr (.inr ⟨rfl, s.countDrop_warnDue ▸ hw, rfl, rfl⟩)
  | ingBackoffLogged _ hs hn => exact logged .rxNotReady _ rfl (by simp) rfl rfl
  | ingError _ e hs => exact logged .rxError _ rfl (by simp) rfl rfl
  | ingDroppedWarned _ tf hs ha hq hw => exact .inr (.inr ⟨rfl, s.countDrop_warnDue ▸ hw, rfl, rfl⟩)
  | emitFailed _ tf hs hd hn => exact logged .transportSetupFailed _ rfl (by simp) rfl rfl
  | writeFailed _ bytes => exact logged .transportSetupFailed _ rfl (by simp) rfl rfl
  | _ => exact .inl ⟨rfl, rfl⟩

/-- Only the Egress writes, and only at the end of `TX` (R23). -/
theorem Effect.tx_append {i : Instr} {s t : State} (he : Effect i s t) : ∃ bytes, t.tx = s.tx ++ bytes := by
  cases he with
  | emitted _ tf hs hd hn => exact ⟨_, rfl⟩
  | written _ bytes => exact ⟨_, rfl⟩
  | _ => exact ⟨[], (List.append_nil _).symm⟩

/-- Settles O57: the three ways `LOG` can go, and the two writers of `TX`. -/
theorem streamsAreAppendOnly : Obligations.StreamsAreAppendOnly := by
  unfold Obligations.StreamsAreAppendOnly
  intro i s t h hi
  have he := exec_effect i s t h hi
  refine ⟨?_, he.tx_append⟩
  rcases he.logChange with ⟨hlog, -⟩ | ⟨code, payload, -, hlog, -⟩ | ⟨howner, -, hlog, -⟩
  · exact .inl hlog
  · exact .inr ⟨code, payload, hlog⟩
  · exact .inr ⟨_, _, howner ▸ hlog⟩

/-- Settles O28: the marker moves only with a warning, and a warning is due. -/
theorem warningsAreAWindowApart : Obligations.WarningsAreAWindowApart := by
  unfold Obligations.WarningsAreAWindowApart
  intro i s t h hi hpast
  rcases (exec_effect i s t h hi).logChange with ⟨hlog, hwarn⟩ | ⟨code, payload, hcode, hlog, hwarn⟩
    | ⟨-, hdue, hlog, hwarn⟩
  · exact .inl ⟨by rw [hlog], hwarn⟩
  · exact .inl ⟨by simp [hlog, hcode], hwarn⟩
  · exact .inr ⟨by simp [hlog], hwarn, (State.warnDue_iff hpast).mp hdue⟩

/-! ### The drop counter (R133) -/

theorem countedDrop_of_ne {p : Params} {d : Nat} (h : countedDrop p d ≠ d) :
    countedDrop p d = d + 1 ∧ countedDrop p d ≤ 2 ^ p.dropWidth - 1 := by
  unfold countedDrop at h ⊢
  split
  case isTrue hlt => exact ⟨rfl, hlt⟩
  case isFalse hge => exact absurd (if_neg hge) h

/-- Settles O27: only a rejected frame is counted. -/
theorem dropCountsRejectionsOnly : Obligations.DropCountsRejectionsOnly := by
  unfold Obligations.DropCountsRejectionsOnly
  intro i s t h hi
  have hle := le_countedDrop s.params s.drop
  have counted : countedDrop s.params s.drop ≠ s.drop → _ := countedDrop_of_ne
  cases exec_effect i s t h hi with
  | dropped _ tf ha hq hw => exact ⟨hle, fun hne => ⟨(counted hne).1, (counted hne).2, rfl, hq, .inl ⟨tf, rfl⟩⟩⟩
  | droppedWarned _ tf ha hq hw => exact ⟨hle, fun hne => ⟨(counted hne).1, (counted hne).2, rfl, hq, .inl ⟨tf, rfl⟩⟩⟩
  | ingDropped _ tf hs ha hq hw =>
    exact ⟨hle, fun hne => ⟨(counted hne).1, (counted hne).2, rfl, hq, .inr ⟨rfl, tf, hs⟩⟩⟩
  | ingDroppedWarned _ tf hs ha hq hw =>
    exact ⟨hle, fun hne => ⟨(counted hne).1, (counted hne).2, rfl, hq, .inr ⟨rfl, tf, hs⟩⟩⟩
  | _ => exact ⟨Nat.le_refl _, fun hne => absurd rfl hne⟩

/-! ### The controller and the health of the bus (R28, R35, R246) -/

/-- The transitions of `CTRL` and `BHS` (R35's table and R28), each with the operation that takes it. -/
inductive HealthChange (s t : State) : Instr → Prop
  | same (i : Instr) : t.ctrl = s.ctrl → t.bhs = s.bhs → HealthChange s t i
  | configured : s.launched = false → s.cfgDone = false → s.fault = false → t.ctrl = .stopped ∨ t.ctrl = .running →
      t.bhs = s.bhs → HealthChange s t .configure
  | restarted : s.ctrl = .stopped → t.ctrl = .running → t.bhs = s.bhs → HealthChange s t .restart
  | recovery : s.ctrl = .busOff → t.ctrl = .recovering → t.bhs = s.bhs → HealthChange s t .initRecovery
  | busOff : s.ctrl = .running → t.ctrl = .busOff → t.bhs = s.bhs → HealthChange s t .evBusOff
  | recoveryDone : s.ctrl = .recovering → t.ctrl = .stopped → t.bhs = s.bhs → HealthChange s t .evRecoveryDone
  | recoveryStarted : s.ctrl = .busOff → t.ctrl = .recovering → s.bhs = .normal → t.bhs = .recovering →
      HealthChange s t .hBusOff
  | recoveryFinished : s.ctrl = .stopped → t.ctrl = .running → s.bhs = .recovering → t.bhs = .normal →
      HealthChange s t .hBusRecovered

theorem Effect.healthChange {i : Instr} {s t : State} (he : Effect i s t) : HealthChange s t i := by
  cases he with
  | configureDone _ hl hd hf => exact .configured hl hd hf (.inr rfl) rfl
  | configureFailed4 _ hl hd hf => exact .configured hl hd hf (.inl rfl) rfl
  | configureFailed5 _ hl hd hf => exact .configured hl hd hf (.inl rfl) rfl
  | restartOk _ hc => exact .restarted hc rfl rfl
  | initRecoveryOk _ hc => exact .recovery hc rfl rfl
  | recoveryStarted _ m hs hb hc => exact .recoveryStarted hc rfl hb rfl
  | recoveryFinished _ m hs hb hc => exact .recoveryFinished hc rfl hb rfl
  | busOff _ hc => exact .busOff hc rfl rfl
  | recoveryDone _ hc => exact .recoveryDone hc rfl rfl
  | _ => exact .same _ rfl rfl

/-- Settles O54: each transition is a row of the tables; before the first `CONFIGURE` no driver is installed. -/
theorem healthAndControllerTransitions : Obligations.HealthAndControllerTransitions := by
  unfold Obligations.HealthAndControllerTransitions
  intro i s t hinv h hi
  cases (exec_effect i s t h hi).healthChange with
  | same _ hc hb => exact ⟨fun hne => absurd hb hne, fun hne => absurd hc hne⟩
  | configured hl hd hf hc hb =>
    exact ⟨fun hne => absurd hb hne, fun _ => .inl ⟨rfl, (hinv.fresh_uninstalled hd hf).1, hc⟩⟩
  | restarted hs ht hb => exact ⟨fun hne => absurd hb hne, fun _ => .inr (.inl ⟨.inl rfl, hs, ht⟩)⟩
  | busOff hs ht hb => exact ⟨fun hne => absurd hb hne, fun _ => .inr (.inr (.inl ⟨rfl, hs, ht⟩))⟩
  | recovery hs ht hb => exact ⟨fun hne => absurd hb hne, fun _ => .inr (.inr (.inr (.inl ⟨.inl rfl, hs, ht⟩)))⟩
  | recoveryDone hs ht hb => exact ⟨fun hne => absurd hb hne, fun _ => .inr (.inr (.inr (.inr ⟨rfl, hs, ht⟩)))⟩
  | recoveryStarted hs ht hbs hbt =>
    exact ⟨fun _ => .inl ⟨rfl, hbs, hbt, hs, ht⟩, fun _ => .inr (.inr (.inr (.inl ⟨.inr rfl, hs, ht⟩)))⟩
  | recoveryFinished hs ht hbs hbt =>
    exact ⟨fun _ => .inr ⟨rfl, hbs, hbt, hs, ht⟩, fun _ => .inr (.inl ⟨.inr rfl, hs, ht⟩)⟩

/-- A launched block in a state of the controller and of `BHS` stays there unless one of the transitions that leave it is
taken. -/
theorem HealthChange.persists {i : Instr} {s t : State} {c : Ctrl} {b : Bhs} (h : HealthChange s t i)
    (hl : s.launched = true) (hc : s.ctrl = c) (hb : s.bhs = b)
    (hrestart : c = .stopped → i ≠ .restart) (hrecovery : c = .busOff → i ≠ .initRecovery)
    (hbusOff : c ≠ .running) (hdone : c = .recovering → i ≠ .evRecoveryDone)
    (hstarted : c = .busOff → b = .normal → i ≠ .hBusOff)
    (hfinished : c = .stopped → b = .recovering → i ≠ .hBusRecovered) : t.ctrl = c ∧ t.bhs = b := by
  subst hc hb
  cases h with
  | same _ hct hbt => exact ⟨hct, hbt⟩
  | configured hlf => simp [hl] at hlf
  | restarted hs => exact absurd rfl (hrestart hs)
  | recovery hs => exact absurd rfl (hrecovery hs)
  | busOff hs => exact absurd hs hbusOff
  | recoveryDone hs => exact absurd rfl (hdone hs)
  | recoveryStarted hs _ hbs => exact absurd rfl (hstarted hs hbs)
  | recoveryFinished hs _ hbs => exact absurd rfl (hfinished hs hbs)

/-- Settles O59: the transitions that leave each of the three states are the named ones; `FAULT` is part of the
configuration, which is written only before a failure. -/
theorem degradedStatesPersist : Obligations.DegradedStatesPersist := by
  unfold Obligations.DegradedStatesPersist
  intro i s t h hi
  have he := exec_effect i s t h hi
  refine ⟨fun hl hc hb hoff hinit => ?_, fun hl hc hb hdone => ?_, fun hl hc hb hrec hrestart => ?_, fun hfault => ?_⟩
  · exact he.healthChange.persists hl hc hb nofun (fun _ => hinit) nofun nofun (fun _ _ => hoff) nofun
  · exact he.healthChange.persists hl hc hb nofun nofun nofun (fun _ => hdone) nofun nofun
  · exact he.healthChange.persists hl hc hb (fun _ => hrestart) nofun nofun nofun nofun (fun _ _ => hrec)
  · rcases he.configuration_cases with ⟨-, -, -, -, -, -, heq⟩ | ⟨-, -, -, hf⟩
    · exact heq.trans hfault
    · simp [hfault] at hf

end Sys2Proof.Machine
end

section
/-! Who writes what (spec/60_exceptions.md R220, spec/40_peripheral_controller.md R107, spec/46_environment_and_host.md R185) and what
is refused (spec/60_exceptions.md R200, R202), and the obligations about them. -/

namespace Sys2Proof.Machine

open Sys2Proof.Safety

/-! ### The writers of each element (R107, R120, R153, R173, R185, R220) -/

section
variable {i : Instr} {s t : State}

theorem Effect.status_eq (he : Effect i s t) : t.status = s.status := by cases he <;> rfl

/-- A task's sequencer is its own, but for the launch (R187). -/
theorem Effect.sequencers_owned (he : Effect i s t) :
    (t.fmSeq = s.fmSeq ∨ i.owner = .fm ∨ i = .launch) ∧ (t.ingSeq = s.ingSeq ∨ i.owner = .ing ∨ i = .launch)
      ∧ (t.egrSeq = s.egrSeq ∨ i.owner = .egr ∨ i = .launch) ∧ (t.launched = s.launched ∨ i = .launch) := by
  cases he with
  | launch => exact ⟨.inr (.inr rfl), .inr (.inr rfl), .inr (.inr rfl), .inr rfl⟩
  | fmWait | recoveryStarted | recoveryFinished => exact ⟨.inr (.inl rfl), .inl rfl, .inl rfl, .inl rfl⟩
  | handledQuiet _ a | handledLogged _ a => exact ⟨.inr (.inl (handler_owner a)), .inl rfl, .inl rfl, .inl rfl⟩
  | ingHeld | ingBackoff | ingBackoffLogged | ingError | ingEnqueued | ingDropped | ingDroppedWarned | ingWoken =>
    exact ⟨.inl rfl, .inr (.inl rfl), .inl rfl, .inl rfl⟩
  | egrHeld | emittedNothing | emitted | emitFailed => exact ⟨.inl rfl, .inl rfl, .inr (.inl rfl), .inl rfl⟩
  | _ => exact ⟨.inl rfl, .inl rfl, .inl rfl, .inl rfl⟩

/-- The Ingress adds at the end of `Q`, the Egress takes its head, and nobody else writes it. -/
theorem Effect.q_owned (he : Effect i s t) :
    (t.q = s.q ∨ i.owner = .ing ∨ i.owner = .egr) ∧ (i.owner = .ing → t.q = s.q ∨ ∃ tf, t.q = s.q ++ [tf])
      ∧ (i.owner = .egr → t.q = s.q ∨ t.q = s.q.tail) := by
  cases he with
  | enqueued _ tf | ingEnqueued _ tf => exact ⟨.inr (.inl rfl), fun _ => .inr ⟨tf, rfl⟩, nofun⟩
  | dequeued _ timeout tf rest ha hq => exact ⟨.inr (.inr rfl), nofun, fun _ => .inr (by rw [hq]; rfl)⟩
  | egrHeld _ tf rest hs ha hq => exact ⟨.inr (.inr rfl), nofun, fun _ => .inr (by rw [hq]; rfl)⟩
  | _ => exact ⟨.inl rfl, fun _ => .inl rfl, fun _ => .inl rfl⟩

/-- The Ingress takes the head of `HWQ`; the environment fills it. -/
theorem Effect.hwq_owned (he : Effect i s t) :
    (t.hwq = s.hwq ∨ i.owner = .ing ∨ i.owner = .env) ∧ (i.owner = .ing → t.hwq = s.hwq ∨ t.hwq = s.hwq.tail) := by
  cases he with
  | received _ f rest hc hq => exact ⟨.inr (.inl rfl), fun _ => .inr (by rw [hq]; rfl)⟩
  | ingHeld _ f rest hs hc hq => exact ⟨.inr (.inl rfl), fun _ => .inr (by rw [hq]; rfl)⟩
  | frameQueued | recoveryDone => exact ⟨.inr (.inr rfl), nofun⟩
  | _ => exact ⟨.inl rfl, fun _ => .inl rfl⟩

/-- The environment only adds pending alerts, and the Fault Monitor only takes all of them. -/
theorem Effect.alertPend_owned (he : Effect i s t) :
    (t.alertPend = s.alertPend ∨ i.owner = .env ∨ i.owner = .fm)
      ∧ (i.owner = .env → s.alertPend ||| t.alertPend = t.alertPend)
      ∧ (i.owner = .fm → t.alertPend = s.alertPend ∨ t.alertPend = 0#7) := by
  have raised : ∀ mask : AlertMask, s.alertPend ||| (s.alertPend ||| mask) = s.alertPend ||| mask := fun mask => by
    rw [← BitVec.or_assoc, BitVec.or_self]
  cases he with
  | alertsRead | fmWait => exact ⟨.inr (.inr rfl), nofun, fun _ => .inr rfl⟩
  | frameQueued | frameLost | busOff | recoveryDone | alerted => exact ⟨.inr (.inl rfl), fun _ => raised _, nofun⟩
  | _ => exact ⟨.inl rfl, fun _ => BitVec.or_self, fun _ => .inl rfl⟩

theorem Effect.streams_owned (he : Effect i s t) :
    (t.tx = s.tx ∨ i.owner = .egr) ∧ (t.outbuf = s.outbuf ∨ i.owner = .egr) := by
  cases he with
  | encoded | emitted | emitFailed | written => exact ⟨.inr rfl, .inr rfl⟩
  | _ => exact ⟨.inl rfl, .inl rfl⟩

/-- The counters and markers of the Ingress and of the channel, and the clock. -/
theorem Effect.counters_owned (he : Effect i s t) :
    (t.drop = s.drop ∨ i.owner = .ing) ∧ (t.lastWarn = s.lastWarn ∨ i.owner = .ing)
      ∧ (t.nrLogged = s.nrLogged ∨ i.owner = .ing) ∧ (t.timeUs = s.timeUs ∨ i.owner = .env) := by
  cases he with
  | dropped | droppedWarned | ingHeld | ingBackoffLogged | ingDropped | ingDroppedWarned =>
    exact ⟨.inr rfl, .inr rfl, .inr rfl, .inl rfl⟩
  | timePassed => exact ⟨.inl rfl, .inl rfl, .inl rfl, .inr rfl⟩
  | _ => exact ⟨.inl rfl, .inl rfl, .inl rfl, .inl rfl⟩

theorem HealthChange.owned (h : HealthChange s t i) :
    (t.bhs = s.bhs ∨ i.owner = .fm) ∧ (t.ctrl = s.ctrl ∨ i.owner = .host ∨ i.owner = .fm ∨ i.owner = .env) := by
  cases h with
  | same _ hc hb => exact ⟨.inl hb, .inl hc⟩
  | configured => exact ⟨.inl ‹_›, .inr (.inl rfl)⟩
  | restarted | recovery => exact ⟨.inl ‹_›, .inr (.inr (.inl rfl))⟩
  | busOff | recoveryDone => exact ⟨.inl ‹_›, .inr (.inr (.inr rfl))⟩
  | recoveryStarted | recoveryFinished => exact ⟨.inr rfl, .inr (.inr (.inl rfl))⟩

/-- The operations of the Peripheral Controller (R83, R107). -/
def Peripheral (i : Instr) : Prop :=
  i = .configure ∨ i = .restart ∨ i = .initRecovery ∨ i = .receive ∨ i = .readStatus ∨ i = .readAlerts

theorem handler_not_peripheral (a : Alert) : ¬Peripheral a.handler := by
  cases a <;> simp [Peripheral, Alert.handler]

/-- What an operation of the Peripheral Controller leaves alone, also when it is issued by itself (R107). -/
theorem Effect.peripheral_frame (he : Effect i s t) (hp : Peripheral i) :
    t.bhs = s.bhs ∧ t.q = s.q ∧ t.drop = s.drop ∧ t.lastWarn = s.lastWarn ∧ t.fmSeq = s.fmSeq
      ∧ t.ingSeq = s.ingSeq ∧ t.egrSeq = s.egrSeq ∧ t.nrLogged = s.nrLogged ∧ t.launched = s.launched
      ∧ t.timeUs = s.timeUs ∧ t.tx = s.tx ∧ t.outbuf = s.outbuf
      ∧ (t.log = s.log ∨ i = .configure)
      ∧ (t.ctrl = s.ctrl ∨ i = .configure ∨ i = .restart ∨ i = .initRecovery)
      ∧ (t.hwq = s.hwq ∨ i = .receive) ∧ (t.alertPend = s.alertPend ∨ i = .readAlerts) := by
  cases he with
  | handledQuiet _ a | handledLogged _ a => exact absurd hp (handler_not_peripheral a)
  | launch | fmWait | recoveryStarted | recoveryFinished | enqueued | dropped | droppedWarned | dequeued | ingHeld
  | ingBackoff | ingBackoffLogged | ingError | ingEnqueued | ingDropped | ingDroppedWarned | ingWoken | encoded | egrHeld
  | emittedNothing | emitted | emitFailed | written | writeFailed | frameQueued | frameLost | busOff | recoveryDone
  | alerted | timePassed => simp [Peripheral] at hp
  | _ => simp

/-- The configuration is `CONFIGURE`'s. -/
theorem Effect.configuration_owned (he : Effect i s t) :
    (t.fault = s.fault ∨ i = .configure) ∧ (t.cfgDone = s.cfgDone ∨ i = .configure)
      ∧ (i ≠ .configure → t.drvCfg = s.drvCfg ∧ t.alertEn = s.alertEn ∧ t.pinCfg = s.pinCfg ∧ t.stby = s.stby
        ∧ t.chAlloc = s.chAlloc) := by
  rcases he.configuration_cases with ⟨hdrv, hen, hpin, hstby, hch, hcfg, hfault⟩ | ⟨hi, -⟩
  · exact ⟨.inl hfault, .inl hcfg, fun _ => ⟨hdrv, hen, hpin, hstby, hch⟩⟩
  · exact ⟨.inr hi, .inr hi, fun hne => absurd hi hne⟩

end

/-- Settles O55: the owners of each group of elements. -/
theorem agentsWriteOnlyTheirOwn : Obligations.AgentsWriteOnlyTheirOwn := by
  unfold Obligations.AgentsWriteOnlyTheirOwn
  intro i s t h hi
  have he := exec_effect i s t h hi
  obtain ⟨hbhs, hctrl⟩ := he.healthChange.owned
  obtain ⟨hfm, hing, hegr, hlaunched⟩ := he.sequencers_owned
  obtain ⟨hq, hqIng, hqEgr⟩ := he.q_owned
  obtain ⟨hhwq, hhwqIng⟩ := he.hwq_owned
  obtain ⟨hpend, hpendEnv, hpendFm⟩ := he.alertPend_owned
  obtain ⟨htx, hout⟩ := he.streams_owned
  obtain ⟨hdrop, hwarn, hnr, htime⟩ := he.counters_owned
  obtain ⟨hfault, hcfg, hconfig⟩ := he.configuration_owned
  exact ⟨hbhs, hfm, hing, hegr, hq, hqIng, hqEgr, hhwq, hhwqIng, hpend, hpendEnv, hpendFm, htx, hout, hdrop, hwarn, hnr,
    htime, hctrl, hfault, hcfg, hlaunched, hconfig, he.peripheral_frame, he.params_eq, he.pending_eq, he.status_eq⟩

/-! ### Refusals (R200, R202) -/

/-- The first five rows of R202's table. -/
def RefusedIn (i : Instr) (s : State) (r : Refusal) : Prop :=
  (i = .configure ∧ s.launched = true ∧ r = .reconfigureAtRuntime)
    ∨ (i = .configure ∧ s.launched = false ∧ s.cfgDone = false ∧ s.fault = true ∧ r = .configureAfterFailure)
    ∨ (i = .launch ∧ s.cfgDone = false ∧ r = .launchWithoutConfigure)
    ∨ (i = .launch ∧ s.cfgDone = true ∧ s.launched = true ∧ r = .launchTwice)
    ∨ (s.chAlloc = false ∧ r = .channelNotConstructed
        ∧ ((∃ tf, i = .tryEnqueue tf) ∨ (∃ timeout, i = .dequeue timeout)
          ∨ (i = .ingEnq ∧ ∃ tf, s.ingSeq = .held tf) ∨ (i = .egrDeq ∧ s.egrSeq = .deq)))

/-- No trap, and the refusals of the table (R200, R202). -/
def RefusesAsTable (i : Instr) (s : State) : Prop :=
  (∀ r, exec i s ≠ .fault r) ∧ ∀ r, exec i s = .refused r ↔ RefusedIn i s r

theorem refusesAsTable_of_next {i : Instr} {s t : State} (h : exec i s = .next t) (hr : ∀ r, ¬RefusedIn i s r) :
    RefusesAsTable i s := by
  rw [RefusesAsTable, h]
  exact ⟨nofun, fun r => iff_of_false nofun (hr r)⟩

theorem refusesAsTable_of_refused {i : Instr} {s : State} {reason : Refusal} (h : exec i s = .refused reason)
    (hr : ∀ r, RefusedIn i s r ↔ r = reason) : RefusesAsTable i s := by
  rw [RefusesAsTable, h]
  exact ⟨nofun, fun r => by rw [hr, Host.Outcome.refused.injEq, eq_comm]⟩

theorem configure_refusesAsTable (s : State) : RefusesAsTable .configure s := by
  cases hl : s.launched with
  | true => exact refusesAsTable_of_refused (exec_configure_of_launched hl) (by simp [RefusedIn, hl])
  | false =>
    cases hd : s.cfgDone with
    | true => exact refusesAsTable_of_next (exec_configure_of_done hl hd) (by simp [RefusedIn, hl, hd])
    | false =>
      cases hf : s.fault with
      | true =>
        exact refusesAsTable_of_refused (exec_configure_of_failed hl hd hf) (by simp [RefusedIn, hl, hd, hf])
      | false => exact refusesAsTable_of_next (exec_configure_of_fresh hl hd hf rfl) (by simp [RefusedIn, hl, hf])

theorem launch_refusesAsTable (s : State) : RefusesAsTable .launch s := by
  obtain ⟨hstart, hunconfigured, htwice⟩ := launchStartsTasks
  cases hd : s.cfgDone with
  | false => exact refusesAsTable_of_refused (hunconfigured s hd) (by simp [RefusedIn, hd])
  | true =>
    cases hl : s.launched with
    | true => exact refusesAsTable_of_refused (htwice s hd hl) (by simp [RefusedIn, hd, hl])
    | false => exact refusesAsTable_of_next (hstart s hd hl) (by simp [RefusedIn, hd, hl])

theorem tryEnqueue_refusesAsTable (tf : TimedFrame) (s : State) : RefusesAsTable (.tryEnqueue tf) s := by
  cases ha : s.chAlloc with
  | false =>
    exact refusesAsTable_of_refused (exec_tryEnqueue_of_not_constructed tf ha) (by simp [RefusedIn, ha])
  | true => exact refusesAsTable_of_next (exec_tryEnqueue_of_offer ha rfl) (by simp [RefusedIn, ha])

theorem dequeue_refusesAsTable (timeout : Timeout) (s : State) : RefusesAsTable (.dequeue timeout) s := by
  cases ha : s.chAlloc with
  | false =>
    exact refusesAsTable_of_refused (exec_dequeue_of_not_constructed timeout ha) (by simp [RefusedIn, ha])
  | true =>
    have hr : ∀ r, ¬RefusedIn (.dequeue timeout) s r := by simp [RefusedIn, ha]
    cases hq : s.q with
    | nil => exact refusesAsTable_of_next (exec_dequeue_of_empty ha hq rfl) hr
    | cons tf rest => exact refusesAsTable_of_next (exec_dequeue_of_head timeout ha hq) hr

theorem ingEnq_refusesAsTable (s : State) : RefusesAsTable .ingEnq s := by
  by_cases hs : ∃ tf, s.ingSeq = .held tf
  · obtain ⟨tf, htf⟩ := hs
    cases ha : s.chAlloc with
    | false =>
      exact refusesAsTable_of_refused (exec_ingEnq_of_not_constructed htf ha) (by simp [RefusedIn, ha, htf])
    | true => exact refusesAsTable_of_next (exec_ingEnq_of_offer htf ha rfl) (by simp [RefusedIn, ha])
  · exact refusesAsTable_of_next (exec_ingEnq_of_not_held (not_exists.mp hs)) (by simp [RefusedIn, hs])

theorem egrDeq_refusesAsTable (s : State) : RefusesAsTable .egrDeq s := by
  by_cases hs : s.egrSeq = .deq
  · cases ha : s.chAlloc with
    | false =>
      exact refusesAsTable_of_refused (exec_egrDeq_of_not_constructed hs ha) (by simp [RefusedIn, ha, hs])
    | true =>
      have hr : ∀ r, ¬RefusedIn .egrDeq s r := by simp [RefusedIn, ha]
      cases hq : s.q with
      | nil => exact refusesAsTable_of_next (exec_egrDeq_of_empty hs ha hq) hr
      | cons tf rest => exact refusesAsTable_of_next (exec_egrDeq_of_head hs ha hq) hr
  · exact refusesAsTable_of_next (exec_egrDeq_of_other hs) (by simp [RefusedIn, hs])

/-- `EGR_EMIT` reads back only what its own `ENCODE` stored, so it never meets an unwritten byte (R171). -/
theorem egrEmit_refusesAsTable (s : State) : RefusesAsTable .egrEmit s := by
  have hr : ∀ r, ¬RefusedIn .egrEmit s r := by simp [RefusedIn]
  by_cases hs : ∃ tf, s.egrSeq = .held tf
  · obtain ⟨tf, htf⟩ := hs
    exact refusesAsTable_of_next (execEgrEmit_held s tf htf) hr
  · exact refusesAsTable_of_next (exec_egrEmit_of_not_held (not_exists.mp hs)) hr

/-- Settles O58: six operations can be refused, each by its own tests; `EGR_EMIT` could trap and does not; every other one
ends in a next state whatever the state is. -/
theorem noTrapAndRefusalsExactly : Obligations.NoTrapAndRefusalsExactly := by
  unfold Obligations.NoTrapAndRefusalsExactly
  intro i s
  cases i with
  | configure => exact configure_refusesAsTable s
  | launch => exact launch_refusesAsTable s
  | tryEnqueue tf => exact tryEnqueue_refusesAsTable tf s
  | dequeue timeout => exact dequeue_refusesAsTable timeout s
  | ingEnq => exact ingEnq_refusesAsTable s
  | egrDeq => exact egrDeq_refusesAsTable s
  | egrEmit => exact egrEmit_refusesAsTable s
  | _ => exact refusesAsTable_of_next rfl (by simp [RefusedIn])

end Sys2Proof.Machine
end

section
/-! Operations one after another (spec/30_encoding.md R98, spec/95_test_vectors.md E3, E4, E5, E8): how a sequence is executed, the
dispatch of alerts, and the obligations about the boot, the handlers, the bus-off cycle, the overload and the order of the
channel. -/

namespace Sys2Proof.Machine

open Sys2Proof.Safety

/-! ### Sequences -/

theorem execAll_cons_of_next {i : Instr} {s t : State} (is : List Instr) (h : exec i s = .next t) :
    execAll (i :: is) s = execAll is t := by
  simp only [execAll, h]

theorem execAll_append_of_next {is : List Instr} {s t : State} (js : List Instr) (h : execAll is s = .next t) :
    execAll (is ++ js) s = execAll js t := by
  induction is generalizing s with
  | nil => rw [Host.Outcome.next.inj h, List.nil_append]
  | cons i is ih =>
    cases hi : exec i s with
    | next u =>
      rw [List.cons_append, execAll_cons_of_next _ hi]
      exact ih (by rwa [execAll_cons_of_next _ hi] at h)
    | fault r => simp [execAll, hi] at h
    | refused r => simp [execAll, hi] at h

/-! ### The boot (R242, R243) -/

/-- Settles O11: `RESET` leaves a fresh block whose first `CONFIGURE` runs by the same draw. -/
theorem bootOutcomes : Obligations.BootOutcomes := by
  unfold Obligations.BootOutcomes
  obtain ⟨-, hconfigure⟩ := configureRunsStepsInOrder
  obtain ⟨hstart, hunconfigured, -⟩ := launchStartsTasks
  refine ⟨fun s hd => ?_, fun s hd => ?_⟩
  · obtain ⟨hdone, -⟩ := hconfigure s.resetBlock rfl rfl rfl
    refine ⟨_, (execAll_cons_of_next _ rfl).trans ((execAll_cons_of_next _ (hdone hd)).trans
      (execAll_cons_of_next _ (hstart _ rfl rfl))), ?_⟩
    exact ⟨rfl, rfl, rfl, rfl, rfl, rfl, rfl, rfl, rfl, rfl, rfl, rfl, rfl, rfl, rfl, rfl, rfl, rfl, rfl⟩
  · obtain ⟨-, -, -, hfailed, -⟩ := hconfigure s.resetBlock rfl rfl rfl
    refine ⟨_, (execAll_cons_of_next _ rfl).trans (execAll_cons_of_next _ (hfailed hd)), ?_⟩
    exact ⟨rfl, rfl, rfl, rfl, rfl, rfl, rfl, rfl, rfl, rfl, rfl, rfl, hunconfigured _ rfl⟩

/-! ### The dispatch of alerts (R111, R112) -/

/-- A handler whose turn it is not waits. -/
theorem exec_handler_of_not_handling {s : State} {a : Alert} (h : s.handling a = none) :
    exec a.handler s = .next s.waits := by
  rw [exec_handler, State.handle, h]

theorem State.handling_eq_none {s : State} {a : Alert}
    (h : ∀ m, s.fmSeq = .dispatch m → nextAlert s.params m ≠ some a) : s.handling a = none := by
  cases hh : s.handling a with
  | none => rfl
  | some m =>
    obtain ⟨hs, hn⟩ := (s.handling_eq_some a m).mp hh
    exact absurd hn (h m hs)

/-- No handler's body writes the parameters or the pending alerts. -/
theorem handlerBody_keeps (a : Alert) (s : State) :
    (handlerBody a s).params = s.params ∧ (handlerBody a s).alertPend = s.alertPend := by
  cases a with
  | busOff =>
    rcases s.startRecovery_cases with ⟨-, h⟩ | ⟨-, -, -, h⟩ | ⟨-, e, -, h⟩ <;> rw [handlerBody, h] <;> exact ⟨rfl, rfl⟩
  | busRecovered =>
    rcases s.finishRecovery_cases with ⟨-, h⟩ | ⟨-, -, -, h⟩ | ⟨-, e, -, h⟩ <;> rw [handlerBody, h] <;> exact ⟨rfl, rfl⟩
  | _ => exact ⟨rfl, rfl⟩

theorem handlerBody_params (a : Alert) (s : State) : (handlerBody a s).params = s.params := (handlerBody_keeps a s).1

theorem handlerBody_alertPend (a : Alert) (s : State) : (handlerBody a s).alertPend = s.alertPend :=
  (handlerBody_keeps a s).2

/-- The first element of a list that passes a test is the one with the least index among those that pass it. -/
theorem find?_eq_some_iff_idxOf {α : Type} [DecidableEq α] {p : α → Bool} {l : List α} {a : α} :
    l.find? p = some a ↔ a ∈ l ∧ p a = true ∧ ∀ b ∈ l, p b = true → l.idxOf a ≤ l.idxOf b := by
  induction l with
  | nil => simp
  | cons x l ih =>
    cases hx : p x with
    | true =>
      rw [List.find?_cons_of_pos hx, Option.some_inj]
      constructor
      · rintro rfl
        simp [hx]
      · rintro ⟨-, -, hmin⟩
        have hzero := hmin x List.mem_cons_self hx
        by_contra hne
        simp [List.idxOf_cons_ne _ hne] at hzero
    | false =>
      have passes_ne : ∀ {b}, p b = true → x ≠ b := fun hb heq => by simp [← heq, hx] at hb
      rw [List.find?_cons_of_neg (by simp [hx]), ih]
      constructor
      · rintro ⟨hmem, ha, hmin⟩
        refine ⟨List.mem_cons_of_mem _ hmem, ha, fun b hb hpb => ?_⟩
        rw [List.idxOf_cons_ne _ (passes_ne ha), List.idxOf_cons_ne _ (passes_ne hpb)]
        exact Nat.succ_le_succ (hmin b (List.mem_of_ne_of_mem (passes_ne hpb).symm hb) hpb)
      · rintro ⟨hmem, ha, hmin⟩
        refine ⟨List.mem_of_ne_of_mem (passes_ne ha).symm hmem, ha, fun b hb hpb => ?_⟩
        have hle := hmin b (List.mem_cons_of_mem _ hb) hpb
        rwa [List.idxOf_cons_ne _ (passes_ne ha), List.idxOf_cons_ne _ (passes_ne hpb), Nat.succ_le_succ_iff] at hle

/-- Settles O20: the handler of `next(m)` runs its body and clears its bit, and the guard of every other one fails. -/
theorem dispatchRunsOneHandler : Obligations.DispatchRunsOneHandler := by
  unfold Obligations.DispatchRunsOneHandler
  refine ⟨fun s m hwf hs hm => ?_, fun s b hs => ?_, rfl, fun s m a horder => ?_⟩
  · obtain ⟨a, hn⟩ := nextAlert_isSome s.params m (s.params.wf_order hwf) hm
    refine ⟨a, hn, nextAlert_has _ _ _ hn, ⟨_, exec_handler_of_nextAlert hs hn rfl, rfl, ?_⟩, fun b hb => ?_⟩
    · dsimp only
      rw [handlerBody_params]
      rfl
    · refine exec_handler_of_not_handling (State.handling_eq_none fun m' hs' hn' => hb ?_)
      obtain rfl : m = m' := FmSeq.dispatch.inj (hs.symm.trans hs')
      exact Option.some.inj (hn'.symm.trans hn)
  · refine exec_handler_of_not_handling (State.handling_eq_none fun m hm => ?_)
    rcases hs with hs | hs <;> simp [hs] at hm
  · have hall : ∀ b : Alert, b ∈ State.reset.params.alertOrder := fun b => by cases b <;> decide
    rw [nextAlert, horder, find?_eq_some_iff_idxOf]
    exact ⟨fun ⟨_, ha, hmin⟩ => ⟨ha, fun b hb => hmin b (hall b) hb⟩,
      fun ⟨ha, hmin⟩ => ⟨hall a, ha, fun b _ hb => hmin b hb⟩⟩

/-! ### One alert alone (R110 to R112) -/

theorem mask_ne_zero (b : AlertBits) (a : Alert) : b.mask a ≠ 0#7 := fun h => by
  have hself := b.has_mask a a
  simp [h, AlertBits.has] at hself

theorem nextAlert_mask {p : Params} (hwf : p.wf = true) (a : Alert) : nextAlert p (p.alertBit.mask a) = some a := by
  obtain ⟨c, hc⟩ := nextAlert_isSome p (p.alertBit.mask a) (p.wf_order hwf) (mask_ne_zero _ a)
  have hac := nextAlert_has p _ c hc
  rw [AlertBits.has_mask, decide_eq_true_iff] at hac
  rw [hc, hac]

theorem doneSeq_mask (b : AlertBits) (a : Alert) : doneSeq b (b.mask a) a = .wait := by
  rw [doneSeq, if_pos]
  refine b.mask_ext _ _ fun c => ?_
  rw [AlertBits.has_clear, AlertBits.has_mask]
  simp [AlertBits.has]

/-- With all alerts enabled and none pending, raising one leaves that one pending. -/
theorem raised_alone {s : State} (hen : s.alertEn = 0x7F#7) (hp : s.alertPend = 0#7) (mask : AlertMask) :
    s.alertPend ||| (mask &&& s.alertEn) = mask := by
  rw [hen, hp, BitVec.zero_or]
  exact BitVec.and_allOnes

/-- One alert pending alone: `FM_WAIT` takes it, its handler runs, and the Fault Monitor waits again. -/
theorem execAll_single_alert {s t : State} {a : Alert} (is : List Instr) (hwf : s.params.wf = true)
    (hs : s.fmSeq = .wait) (hp : s.alertPend = s.params.alertBit.mask a)
    (ht : handlerBody a { s with alertPend := 0#7, fmSeq := .dispatch (s.params.alertBit.mask a), result := .unit } = t) :
    execAll (.fmWait :: a.handler :: is) s = execAll is { t with fmSeq := .wait, result := .unit } := by
  have hdone : doneSeq t.params.alertBit (s.params.alertBit.mask a) a = .wait := by
    rw [← ht, handlerBody_params]
    exact doneSeq_mask _ a
  have hhandler := exec_handler_of_nextAlert
    (s := { s with alertPend := 0#7, fmSeq := .dispatch (s.params.alertBit.mask a), result := .unit }) rfl
    (nextAlert_mask hwf a) ht
  rw [hdone] at hhandler
  have hwait := exec_fmWait_of_pending hs (hp ▸ mask_ne_zero _ a)
  rw [hp] at hwait
  rw [execAll_cons_of_next _ hwait, execAll_cons_of_next _ hhandler]

/-! ### The bus-off cycle (R120, E5) -/

/-- Between the alerts of the cycle: all alerts enabled, none pending, and the Fault Monitor waiting. -/
structure Resting (s : State) (c : Ctrl) (b : Bhs) : Prop where
  wf      : s.params.wf = true
  waiting : s.fmSeq = .wait
  enabled : s.alertEn = 0x7F#7
  pending : s.alertPend = 0#7
  ctrl    : s.ctrl = c
  bhs     : s.bhs = b

/-- A bus-off starts the recovery. -/
theorem execAll_busOff {s : State} (h : Resting s .running .normal) (hd : s.drawRecovery = .ok) :
    ∃ t, (∀ is, execAll (.evBusOff :: .fmWait :: .hBusOff :: is) s = execAll is t) ∧ Resting t .recovering .recovering
      ∧ t.params = s.params ∧ t.drawRestart = s.drawRestart
      ∧ t.log = s.log ++ [⟨.fm, .busOffRecoveryStarted, .none⟩] := by
  have hevent := busOffEventStopsCapture s h.ctrl
  rw [raised_alone h.enabled h.pending] at hevent
  have halert := fun is => execAll_single_alert (a := .busOff)
    (s := { s with ctrl := .busOff, alertPend := s.params.alertBit.mask .busOff, result := .unit }) is h.wf h.waiting rfl
    (State.startRecovery_of_draw_ok h.bhs rfl hd)
  exact ⟨_, fun is => (execAll_cons_of_next _ hevent).trans (halert is), ⟨h.wf, rfl, h.enabled, rfl, rfl, rfl⟩, rfl, rfl,
    rfl⟩

/-- A second bus-off alert during the recovery has no effect. -/
theorem execAll_busOff_again {s : State} (h : Resting s .recovering .recovering) :
    ∃ t, (∀ is, execAll (.evAlert (s.params.alertBit.mask .busOff) :: .fmWait :: .hBusOff :: is) s = execAll is t)
      ∧ Resting t .recovering .recovering ∧ t.drawRestart = s.drawRestart ∧ t.log = s.log := by
  have hevent := alertEventLatchesEnabled s (s.params.alertBit.mask .busOff) (by simp [h.ctrl])
  rw [raised_alone h.enabled h.pending] at hevent
  have halert := fun is => execAll_single_alert (a := .busOff)
    (s := { s with alertPend := s.params.alertBit.mask .busOff, result := .unit }) is h.wf h.waiting rfl
    (State.startRecovery_of_recovering h.bhs)
  exact ⟨_, fun is => (execAll_cons_of_next _ hevent).trans (halert is), ⟨h.wf, rfl, h.enabled, rfl, h.ctrl, h.bhs⟩, rfl,
    rfl⟩

/-- The end of the recovery restarts the controller. -/
theorem execAll_recovered {s : State} (h : Resting s .recovering .recovering) (hd : s.drawRestart = .ok) :
    ∃ t, (∀ is, execAll (.evRecoveryDone :: .fmWait :: .hBusRecovered :: is) s = execAll is t)
      ∧ Resting t .running .normal ∧ t.log = s.log ++ [⟨.fm, .busRecoveredRestarted, .none⟩] := by
  have hevent := exec_evRecoveryDone_of_hwq h.ctrl rfl
  rw [raised_alone h.enabled h.pending] at hevent
  have halert := fun is => execAll_single_alert (a := .busRecovered)
    (s := { s with
      ctrl := .stopped, hwq := recoveredHwq s.params.hwqOnRecovery s.hwq
      alertPend := s.params.alertBit.mask .busRecovered, result := .unit }) is h.wf h.waiting rfl
    (State.finishRecovery_of_draw_ok h.bhs rfl hd)
  exact ⟨_, fun is => (execAll_cons_of_next _ hevent).trans (halert is), ⟨h.wf, rfl, h.enabled, rfl, rfl, rfl⟩, rfl⟩

/-- Settles O24: the three parts of the cycle, each one alert alone. -/
theorem busOffCycleEndsNormal : Obligations.BusOffCycleEndsNormal := by
  unfold Obligations.BusOffCycleEndsNormal
  intro s hwf hs hb hc hen hp hrecovery hrestart
  obtain ⟨t, ht, htrest, htparams, htdraw, htlog⟩ := execAll_busOff ⟨hwf, hs, hen, hp, hc, hb⟩ hrecovery
  obtain ⟨u, hu, hurest, hudraw, hulog⟩ := execAll_busOff_again htrest
  obtain ⟨v, hv, hvrest, hvlog⟩ := execAll_recovered hurest ((hudraw.trans htdraw).trans hrestart)
  rw [htparams] at hu
  refine ⟨v, by rw [ht, hu, hv, execAll], hvrest.bhs, hvrest.ctrl, hvrest.waiting, hvrest.pending, ?_⟩
  rw [hvlog, hulog, htlog, List.append_assoc]
  rfl

/-! ### The channel under a run of enqueues (R136) -/

/-- What the channel's operations leave alone, and what lets the next one run. -/
def SameBesideChannel (s t : State) : Prop :=
  t.params = s.params ∧ t.chAlloc = s.chAlloc ∧ t.hwq = s.hwq ∧ t.bhs = s.bhs ∧ t.fault = s.fault ∧ t.ingSeq = s.ingSeq
    ∧ t.egrSeq = s.egrSeq ∧ t.fmSeq = s.fmSeq ∧ t.tx = s.tx ∧ t.ctrl = s.ctrl

theorem SameBesideChannel.refl (s : State) : SameBesideChannel s s := ⟨rfl, rfl, rfl, rfl, rfl, rfl, rfl, rfl, rfl, rfl⟩

theorem SameBesideChannel.trans {s t u : State} (h : SameBesideChannel s t) (h' : SameBesideChannel t u) :
    SameBesideChannel s u := by
  obtain ⟨h1, h2, h3, h4, h5, h6, h7, h8, h9, h10⟩ := h
  obtain ⟨h1', h2', h3', h4', h5', h6', h7', h8', h9', h10'⟩ := h'
  exact ⟨h1'.trans h1, h2'.trans h2, h3'.trans h3, h4'.trans h4, h5'.trans h5, h6'.trans h6, h7'.trans h7, h8'.trans h8,
    h9'.trans h9, h10'.trans h10⟩

theorem sameBesideChannel_maybeWarn (s : State) : SameBesideChannel s s.maybeWarn := by
  rcases s.maybeWarn_cases with ⟨-, h⟩ | ⟨-, h⟩ <;> rw [h] <;> exact .refl s

/-- One enqueue on a constructed channel: the frame is appended, or counted. -/
theorem exec_tryEnqueue_cases {s : State} (tf : TimedFrame) (ha : s.chAlloc = true) :
    ∃ t, exec (.tryEnqueue tf) s = .next t ∧ SameBesideChannel s t
      ∧ ((s.q.length < s.params.capacity ∧ t.q = s.q ++ [tf] ∧ t.drop = s.drop)
        ∨ (s.params.capacity ≤ s.q.length ∧ t.q = s.q ∧ t.drop = countedDrop s.params s.drop)) := by
  by_cases hq : s.q.length < s.params.capacity
  · exact ⟨_, exec_tryEnqueue_of_offer ha (State.offer_of_room tf hq), .refl s, .inl ⟨hq, rfl, rfl⟩⟩
  · have hfull := Nat.not_lt.mp hq
    exact ⟨_, exec_tryEnqueue_of_offer ha (State.offer_of_full tf hfull), sameBesideChannel_maybeWarn s.countDrop,
      .inr ⟨hfull, s.countDrop.maybeWarn_q, s.countDrop.maybeWarn_drop⟩⟩

/-- Frames offered one after the other: those that fit are taken, and each of the others is counted. -/
theorem execAll_tryEnqueue {s : State} (frames : List TimedFrame) (ha : s.chAlloc = true)
    (hq : s.q.length ≤ s.params.capacity) :
    ∃ t, execAll (frames.map .tryEnqueue) s = .next t ∧ SameBesideChannel s t
      ∧ t.q = (s.q ++ frames).take s.params.capacity
      ∧ t.drop = (countedDrop s.params)^[s.q.length + frames.length - s.params.capacity] s.drop := by
  induction frames generalizing s with
  | nil =>
    refine ⟨s, rfl, .refl s, by rw [List.append_nil, List.take_of_length_le hq], ?_⟩
    rw [List.length_nil, Nat.add_zero, Nat.sub_eq_zero_of_le hq]
    rfl
  | cons tf frames ih =>
    obtain ⟨u, hu, hsame, hcases⟩ := exec_tryEnqueue_cases tf ha
    obtain ⟨hparams, halloc, -⟩ := id hsame
    have hlen : u.q.length ≤ u.params.capacity := by
      rw [hparams]
      rcases hcases with ⟨hroom, huq, -⟩ | ⟨-, huq, -⟩
      · rw [huq, List.length_append]
        exact hroom
      · rwa [huq]
    obtain ⟨t, ht, hsame', htq, htdrop⟩ := ih (halloc.trans ha) hlen
    refine ⟨t, by rw [List.map_cons, execAll_cons_of_next _ hu, ht], hsame.trans hsame', ?_, ?_⟩
    · rw [htq, hparams]
      rcases hcases with ⟨-, huq, -⟩ | ⟨hfull, huq, -⟩
      · rw [huq, List.append_assoc, List.singleton_append]
      · rw [huq, List.take_append_of_le_length hfull, List.take_append_of_le_length hfull]
    · rw [htdrop, hparams]
      rcases hcases with ⟨-, huq, hudrop⟩ | ⟨hfull, huq, hudrop⟩
      · rw [hudrop, huq, List.length_append, List.length_cons, List.length_nil, List.length_cons]
        congr 2
        omega
      · have hcount : s.q.length + (tf :: frames).length - s.params.capacity
            = (s.q.length + frames.length - s.params.capacity) + 1 := by
          rw [List.length_cons]
          omega
        rw [hudrop, huq, hcount, Function.iterate_succ_apply]

/-- Counting `k` drops adds `k`, up to `DROP_MAX`. -/
theorem countedDrop_iterate {p : Params} {d : Nat} (h : d ≤ dropMax p) (k : Nat) :
    (countedDrop p)^[k] d = min (d + k) (dropMax p) := by
  induction k generalizing d with
  | zero => exact (Nat.min_eq_left h).symm
  | succ k ih =>
    rw [Function.iterate_succ_apply, ih (countedDrop_le p d h), countedDrop_eq_min p d h]
    omega

/-- Settles O29: an empty channel takes the first `C` and counts the rest. -/
theorem overloadLaw : Obligations.OverloadLaw := by
  unfold Obligations.OverloadLaw
  intro s frames ha hq hdrop
  obtain ⟨t, ht, ⟨-, -, hhwq, hbhs, hfault, hing, hegr, hfm, htx, hctrl⟩, htq, htdrop⟩ :=
    execAll_tryEnqueue frames ha (by simp [hq])
  rw [hq, List.nil_append] at htq
  rw [hq, List.length_nil, Nat.zero_add, countedDrop_iterate hdrop] at htdrop
  exact ⟨t, ht, htq, htdrop, hhwq, hbhs, hfault, hing, hegr, hfm, htx, hctrl⟩

/-! ### The order of the channel (R71) -/

/-- Dequeues one after the other take the frames from the head on. -/
theorem execAll_dequeue {s : State} (timeout : Timeout) (k : Nat) (ha : s.chAlloc = true) (hk : k ≤ s.q.length) :
    ∃ t, execAll (List.replicate k (.dequeue timeout)) s = .next t ∧ t.q = s.q.drop k ∧ t.drop = s.drop
      ∧ (0 < k → t.result = .dequeued s.q[k - 1]?) := by
  induction k generalizing s with
  | zero => exact ⟨s, rfl, rfl, rfl, nofun⟩
  | succ k ih =>
    obtain ⟨tf, rest, hq⟩ := List.exists_cons_of_length_pos (Nat.zero_lt_of_lt hk)
    have hhead := exec_dequeue_of_head timeout ha hq
    obtain ⟨t, ht, htq, htdrop, hresult⟩ := ih (s := { s with q := rest, result := .dequeued (some tf) }) ha
      (by rw [hq] at hk; exact Nat.le_of_succ_le_succ hk)
    refine ⟨t, by rw [List.replicate_succ, execAll_cons_of_next _ hhead, ht], by rw [htq, hq, List.drop_succ_cons],
      htdrop, fun _ => ?_⟩
    cases k with
    | zero =>
      rw [← Host.Outcome.next.inj ht, hq]
      rfl
    | succ k => rw [hresult (Nat.succ_pos k), hq]; rfl

/-- Settles O30: with room for all the enqueues only append, and the dequeues take from the head. -/
theorem fifoLaw : Obligations.FifoLaw := by
  unfold Obligations.FifoLaw
  intro s frames timeout k ha hroom hpos hk
  obtain ⟨u, hu, ⟨-, halloc, -⟩, huq, hudrop⟩ := execAll_tryEnqueue frames ha (by omega)
  rw [List.take_of_length_le (by rw [List.length_append]; exact hroom)] at huq
  rw [Nat.sub_eq_zero_of_le hroom] at hudrop
  obtain ⟨t, ht, htq, htdrop, hresult⟩ := execAll_dequeue timeout k (halloc.trans ha)
    (by rw [huq, List.length_append]; exact hk)
  rw [huq] at htq hresult
  exact ⟨t, by rw [execAll_append_of_next _ hu, ht], htq, hresult hpos, htdrop.trans hudrop⟩

end Sys2Proof.Machine
end

section
/-! The end of a run and its progress (spec/70_reset_and_hazards.md R250, R255, spec/60_exceptions.md R201): what a task does in a
quiescent state, what weak fairness brings about for the Fault Monitor and the Egress, and the obligation about them. -/

namespace Sys2Proof.Safety

open Sys2Proof.Machine

/-! ### A quiescent state (R255) -/

section
variable {s : State} (h : Quiescent s)
include h

theorem Quiescent.fmSeq : s.fmSeq = .wait := h.1.1

theorem Quiescent.alertPend : s.alertPend = 0#7 := h.1.2

theorem Quiescent.ingSeq_cases : (s.ingSeq = .recv ∧ s.ctrl = .running ∧ s.hwq = []) ∨ ∃ wake, s.ingSeq = .backoff wake :=
  h.2.1

theorem Quiescent.egrSeq : s.egrSeq = .deq := h.2.2.1

theorem Quiescent.q : s.q = [] := h.2.2.2

theorem Quiescent.exec_fmWait : exec .fmWait s = .next s.waits := exec_fmWait_of_not_enabled (.inr h.alertPend)

theorem Quiescent.exec_handler (a : Alert) : exec a.handler s = .next s.waits :=
  exec_handler_of_not_handling (State.handling_eq_none fun m hm => by simp [h.fmSeq] at hm)

theorem Quiescent.exec_egrDeq (ha : s.chAlloc = true) : exec .egrDeq s = .next s.waits :=
  exec_egrDeq_of_empty h.egrSeq ha h.q

theorem Quiescent.exec_egrEmit : exec .egrEmit s = .next s.waits :=
  exec_egrEmit_of_not_held fun tf hs => by simp [h.egrSeq] at hs

theorem Quiescent.ingSeq_ne_held (tf : TimedFrame) : s.ingSeq ≠ .held tf := by
  rcases h.ingSeq_cases with ⟨hs, -⟩ | ⟨wake, hs⟩ <;> simp [hs]

theorem Quiescent.exec_ingEnq : exec .ingEnq s = .next s.waits := exec_ingEnq_of_not_held h.ingSeq_ne_held

/-- A waiting Ingress has a running controller and nothing to receive. -/
theorem Quiescent.nothing_to_receive (hs : s.ingSeq = .recv) : s.ctrl = .running ∧ s.hwq = [] := by
  rcases h.ingSeq_cases with ⟨-, hc, hq⟩ | ⟨wake, hw⟩
  · exact ⟨hc, hq⟩
  · simp [hs] at hw

theorem Quiescent.exec_ingRecv_of_noFault (hs : s.ingSeq = .recv) (hd : s.drawRxFault = .noFault) :
    exec .ingRecv s = .next s.waits := by
  obtain ⟨hc, hq⟩ := h.nothing_to_receive hs
  rw [exec_ingRecv_of_recv hs, State.ingestReception_of_blocked (State.receive_of_empty hd hc hq)]

/-- The step a task's sequencer allows waits, but for a back-off that is due (log 31). -/
theorem Quiescent.exec_task {a : Agent} {i : Instr} (hd : s.drawRxFault = .noFault) (ha : s.chAlloc = true)
    (htask : a = .fm ∨ a = .ing ∨ a = .egr) (hi : s.agentOp a = some i) :
    exec i s = .next s.waits
      ∨ ∃ wake, s.ingSeq = .backoff wake ∧ wake ≤ s.timeUs.toNat ∧ i = .ingWake
        ∧ exec i s = .next { s with ingSeq := .recv, result := .unit } := by
  rcases htask with rfl | rfl | rfl
  · rw [State.agentOp_fm_of_wait h.fmSeq, Option.some_inj] at hi
    exact .inl (hi ▸ h.exec_fmWait)
  · rcases h.ingSeq_cases with ⟨hs, -⟩ | ⟨wake, hs⟩
    · rw [State.agentOp_ing_of_recv hs, Option.some_inj] at hi
      exact .inl (hi ▸ h.exec_ingRecv_of_noFault hs hd)
    · rw [State.agentOp_ing_of_backoff hs, Option.some_inj] at hi
      subst hi
      rcases Nat.lt_or_ge s.timeUs.toNat wake with hw | hw
      · exact .inl (exec_ingWake_of_early hs hw)
      · exact .inr ⟨wake, hs, hw, rfl, exec_ingWake_of_due hs hw⟩
  · rw [State.agentOp_egr_of_deq h.egrSeq, Option.some_inj] at hi
    exact .inl (hi ▸ h.exec_egrDeq ha)

end

/-! ### The end lasts while the Ingress waits for a frame (R255) -/

/-- The operations the Fault Monitor takes by itself. -/
theorem fm_operation {i : Instr} (howner : i.owner = .fm) (hinner : i.inner = false) :
    i = .fmWait ∨ ∃ a : Alert, i = a.handler := by
  cases i <;> simp [Instr.owner, Instr.inner] at howner hinner
  case fmWait => exact .inl rfl
  case hDataAvail => exact .inr ⟨.dataAvail, rfl⟩
  case hRxqFull => exact .inr ⟨.rxqFull, rfl⟩
  case hErrPassive => exact .inr ⟨.errPassive, rfl⟩
  case hBusError => exact .inr ⟨.busError, rfl⟩
  case hArbLost => exact .inr ⟨.arbLost, rfl⟩
  case hBusOff => exact .inr ⟨.busOff, rfl⟩
  case hBusRecovered => exact .inr ⟨.busRecovered, rfl⟩

/-- The operations the Ingress takes by itself. -/
theorem ing_operation {i : Instr} (howner : i.owner = .ing) (hinner : i.inner = false) :
    i = .ingRecv ∨ i = .ingEnq ∨ i = .ingWake := by
  cases i <;> simp [Instr.owner, Instr.inner] at howner hinner ⊢

/-- The operations the Egress takes by itself. -/
theorem egr_operation {i : Instr} (howner : i.owner = .egr) (hinner : i.inner = false) :
    i = .egrDeq ∨ i = .egrEmit := by
  cases i <;> simp [Instr.owner, Instr.inner] at howner hinner ⊢

/-- What a task's operation leaves of a state at the end of a run: everything but the result and the Ingress's log. -/
structure SameEnd (s t : State) : Prop where
  quiescent : Quiescent t
  ingSeq    : t.ingSeq = .recv
  chAlloc   : t.chAlloc = s.chAlloc
  tx        : t.tx = s.tx
  hwq       : t.hwq = s.hwq
  q         : t.q = s.q
  drop      : t.drop = s.drop
  bhs       : t.bhs = s.bhs
  ctrl      : t.ctrl = s.ctrl
  timeUs    : t.timeUs = s.timeUs
  logFm     : logOf .fm t = logOf .fm s
  logEgr    : logOf .egr t = logOf .egr s

theorem SameEnd.refl {s : State} (h : Quiescent s) (hs : s.ingSeq = .recv) : SameEnd s s :=
  ⟨h, hs, rfl, rfl, rfl, rfl, rfl, rfl, rfl, rfl, rfl, rfl⟩

theorem SameEnd.trans {s t u : State} (h : SameEnd s t) (h' : SameEnd t u) : SameEnd s u where
  quiescent := h'.quiescent
  ingSeq := h'.ingSeq
  chAlloc := h'.chAlloc.trans h.chAlloc
  tx := h'.tx.trans h.tx
  hwq := h'.hwq.trans h.hwq
  q := h'.q.trans h.q
  drop := h'.drop.trans h.drop
  bhs := h'.bhs.trans h.bhs
  ctrl := h'.ctrl.trans h.ctrl
  timeUs := h'.timeUs.trans h.timeUs
  logFm := h'.logFm.trans h.logFm
  logEgr := h'.logEgr.trans h.logEgr

section
variable {s : State} (h : Quiescent s) (hs : s.ingSeq = .recv)
include h hs

theorem SameEnd.waits : SameEnd s s.waits := ⟨h, hs, rfl, rfl, rfl, rfl, rfl, rfl, rfl, rfl, rfl, rfl⟩

/-- A receive fault is logged by the Ingress, and that is all. -/
theorem SameEnd.rxError (e : ErrCode) :
    SameEnd s { s with log := s.log ++ [⟨.ing, .rxError, .err e⟩], result := .unit } :=
  ⟨h, hs, rfl, rfl, rfl, rfl, rfl, rfl, rfl, rfl, by simp [logOf], by simp [logOf]⟩

theorem Quiescent.exec_ingRecv : ∃ t, exec .ingRecv s = .next t ∧ SameEnd s t := by
  cases hd : s.drawRxFault with
  | noFault => exact ⟨_, h.exec_ingRecv_of_noFault hs hd, .waits h hs⟩
  | timeout =>
    refine ⟨_, ?_, .rxError h hs .timeout⟩
    rw [exec_ingRecv_of_recv hs, State.ingestReception_of_error hs (State.receive_of_timeout hd) (by simp)]
  | fail =>
    refine ⟨_, ?_, .rxError h hs .fail⟩
    rw [exec_ingRecv_of_recv hs, State.ingestReception_of_error hs (State.receive_of_fail hd) (by simp)]

theorem Quiescent.exec_any_task {i : Instr} (ha : s.chAlloc = true)
    (howner : i.owner = .fm ∨ i.owner = .ing ∨ i.owner = .egr) (hinner : i.inner = false) :
    ∃ t, exec i s = .next t ∧ SameEnd s t := by
  have hwaits : SameEnd s s.waits := .waits h hs
  rcases howner with howner | howner | howner
  · rcases fm_operation howner hinner with rfl | ⟨a, rfl⟩
    · exact ⟨_, h.exec_fmWait, hwaits⟩
    · exact ⟨_, h.exec_handler a, hwaits⟩
  · rcases ing_operation howner hinner with rfl | rfl | rfl
    · exact h.exec_ingRecv hs
    · exact ⟨_, h.exec_ingEnq, hwaits⟩
    · exact ⟨_, exec_ingWake_of_not_backoff (fun wake hw => by simp [hs] at hw), hwaits⟩
  · rcases egr_operation howner hinner with rfl | rfl
    · exact ⟨_, h.exec_egrDeq ha, hwaits⟩
    · exact ⟨_, h.exec_egrEmit, hwaits⟩

end

theorem Quiescent.execAll_tasks {s : State} {ops : List Instr} (h : Quiescent s) (hs : s.ingSeq = .recv)
    (ha : s.chAlloc = true)
    (hops : ∀ i ∈ ops, (i.owner = .fm ∨ i.owner = .ing ∨ i.owner = .egr) ∧ i.inner = false) :
    ∃ t, execAll ops s = .next t ∧ SameEnd s t := by
  induction ops generalizing s with
  | nil => exact ⟨s, rfl, .refl h hs⟩
  | cons i ops ih =>
    obtain ⟨⟨howner, hinner⟩, hrest⟩ := List.forall_mem_cons.mp hops
    obtain ⟨u, hu, hsame⟩ := h.exec_any_task hs ha howner hinner
    obtain ⟨t, ht, hsame'⟩ := ih hsame.quiescent hsame.ingSeq (hsame.chAlloc.trans ha) hrest
    exact ⟨t, by rw [execAll_cons_of_next _ hu, ht], hsame.trans hsame'⟩

/-! ### Weak fairness (R250) -/

/-- What keeps a task enabled until the task itself moves makes it move. -/
theorem WeaklyFair.takes_while {states : Nat → State} {issues : Nat → Issue} {a : Agent} {k : Nat} {P : Nat → Prop}
    (hfair : WeaklyFair states issues a) (hk : P k) (henabled : ∀ m, k ≤ m → P m → TaskEnabled a (states m))
    (hstable : ∀ m, k ≤ m → P m → ¬Takes states issues a m → P (m + 1)) :
    ∃ m, k ≤ m ∧ P m ∧ Takes states issues a m := by
  by_contra hnever
  have hall : ∀ m, k ≤ m → P m := fun m hm => by
    induction m, hm using Nat.le_induction with
    | base => exact hk
    | succ m hm ih => exact hstable m hm ih fun htakes => hnever ⟨m, hm, ih, htakes⟩
  obtain ⟨m, hm, htakes⟩ := hfair k fun m hm => henabled m hm (hall m hm)
  exact hnever ⟨m, hm, hall m hm, htakes⟩

/-! ### A launched block in a run without the host -/

/-- What holds from the launch on, as long as the host does nothing. -/
structure Alive (p : Params) (s : State) : Prop where
  inv      : ComponentInv s
  launched : s.launched = true
  params   : s.params = p

theorem Alive.chAlloc {p : Params} {s : State} (h : Alive p s) : s.chAlloc = true :=
  (h.inv.installed_after_pins (h.inv.done_enables (h.inv.launched_configured h.launched)).2).2.2

theorem Alive.effect {p : Params} {i : Instr} {s t : State} {rest : List Issue} {draws : Draws} (h : Alive p s)
    (he : Effect i (s.begin rest draws) t) (hhost : i.owner ≠ .host) : Alive p t where
  inv := (h.inv.begin rest draws).effect he
  launched := by
    obtain ⟨-, -, -, hl | rfl⟩ := he.sequencers_owned
    · exact hl.trans h.launched
    · exact absurd rfl hhost
  params := he.params_eq.trans h.params

/-- A step that waits writes nothing but the result. -/
theorem effect_of_blocked {i : Instr} {s t : State} (he : Effect i s t) (hb : t.result = .blocked) :
    t = { s with result := .blocked } := by
  cases he with
  | waits => rfl
  | _ => cases hb

section
variable {p : Params} {states : Nat → State} {issues : Nat → Issue} {n : Nat} (hrun : Run states issues)
  (hhost : ∀ m, n ≤ m → (issues m).issuer ≠ .agent .host)
include hrun hhost

/-- Each step from `n` on is an operation of its issuer, who is not the host. -/
theorem run_effect {m : Nat} (hm : n ≤ m) :
    ∃ i rest, (issues m).issuer = .agent i.owner ∧ i.owner ≠ .host ∧ i.inner = false
      ∧ decode (issues m).bytes = .ok (i, rest)
      ∧ exec i ((states m).begin ((issues m).leftover rest) (issues m).draws) = .next (states (m + 1))
      ∧ Effect i ((states m).begin ((issues m).leftover rest) (issues m).draws) (states (m + 1)) := by
  obtain ⟨i, rest, hissuer, hinner, hdecode, hexec⟩ := Run.step_exec states issues hrun m
  have howner : i.owner ≠ .host := fun h => hhost m hm (by rw [hissuer, h])
  exact ⟨i, rest, hissuer, howner, hinner, hdecode, hexec, exec_effect i _ _ hexec fun h => howner (by rw [h]; rfl)⟩

theorem alive_of_le (h : Alive p (states n)) {m : Nat} (hm : n ≤ m) : Alive p (states m) := by
  induction m, hm using Nat.le_induction with
  | base => exact h
  | succ m hm ih =>
    obtain ⟨i, rest, -, howner, -, -, -, he⟩ := run_effect hrun hhost hm
    exact ih.effect he howner

/-- A step that a task does not take is another agent's or waits. -/
theorem not_takes_cases {a : Agent} {m : Nat} (hm : n ≤ m) (h : ¬Takes states issues a m) :
    ∃ i rest, i.owner ≠ .host ∧ Effect i ((states m).begin rest (issues m).draws) (states (m + 1))
      ∧ (i.owner ≠ a ∨ states (m + 1) = { (states m).begin rest (issues m).draws with result := .blocked }) := by
  obtain ⟨i, rest, hissuer, howner, -, -, -, he⟩ := run_effect hrun hhost hm
  refine ⟨i, _, howner, he, ?_⟩
  by_cases ha : i.owner = a
  · have hb : (states (m + 1)).result = .blocked := by
      by_contra hne
      exact h ⟨by rw [hissuer, ha], hne⟩
    exact .inr (effect_of_blocked he hb)
  · exact .inl ha

/-! ### The Fault Monitor -/

/-- While the Fault Monitor takes no step its sequencer stands still, and the pending alerts stay pending. -/
theorem fm_undisturbed {m : Nat} (hm : n ≤ m) (h : ¬Takes states issues .fm m) :
    (states (m + 1)).fmSeq = (states m).fmSeq
      ∧ ∀ (b : AlertBits) (a : Alert), b.has (states m).alertPend a = true → b.has (states (m + 1)).alertPend a = true := by
  obtain ⟨i, rest, howner, he, hfm | heq⟩ := not_takes_cases hrun hhost hm h
  · obtain ⟨hseq, -⟩ := he.sequencers_owned
    obtain ⟨hpend, hadds, -⟩ := he.alertPend_owned
    refine ⟨hseq.resolve_right ?_, fun b a hp => ?_⟩
    · rintro (hown | rfl)
      · exact hfm hown
      · exact howner rfl
    · rcases hpend with hsame | henv | hown
      · exact hsame ▸ hp
      · rw [← hadds henv]
        simp only [AlertBits.has, BitVec.getLsbD_or, Bool.or_eq_true]
        exact .inl hp
      · exact absurd hown hfm
  · rw [heq]
    exact ⟨rfl, fun b a hp => hp⟩

end

/-- A handler step that does not wait is that of `next(m)` in `Dispatch(m)`. -/
theorem exec_handler_completed {s t : State} {a : Alert} (h : exec a.handler s = .next t) (hb : t.result ≠ .blocked) :
    ∃ m, s.fmSeq = .dispatch m ∧ nextAlert s.params m = some a ∧ t.fmSeq = doneSeq s.params.alertBit m a
      ∧ t.alertPend = s.alertPend := by
  cases hh : s.handling a with
  | none =>
    rw [exec_handler_of_not_handling hh] at h
    exact absurd (Host.Outcome.next.inj h ▸ rfl) hb
  | some m =>
    obtain ⟨hs, hn⟩ := (s.handling_eq_some a m).mp hh
    rw [exec_handler_of_nextAlert hs hn rfl] at h
    rw [← Host.Outcome.next.inj h]
    exact ⟨m, hs, hn, by dsimp only; rw [handlerBody_params], handlerBody_alertPend a s⟩

/-- `FM_WAIT` completes in `Wait` alone, and takes the pending alerts. -/
theorem exec_fmWait_completed {s t : State} (h : exec .fmWait s = .next t) (hb : t.result ≠ .blocked) :
    s.fmSeq = .wait ∧ t.fmSeq = .dispatch s.alertPend := by
  by_cases hs : s.fmSeq ≠ .wait ∨ s.alertPend = 0#7
  · rw [exec_fmWait_of_not_enabled hs] at h
    exact absurd (Host.Outcome.next.inj h ▸ rfl) hb
  · obtain ⟨hwait, hpend⟩ := not_or.mp hs
    rw [exec_fmWait_of_pending (not_not.mp hwait) hpend] at h
    exact ⟨not_not.mp hwait, Host.Outcome.next.inj h ▸ rfl⟩

/-- In `Wait` the Fault Monitor is enabled as long as an alert is pending. -/
theorem fm_enabled_of_wait {s : State} (hs : s.fmSeq = .wait) (hp : s.alertPend ≠ 0#7) : TaskEnabled .fm s :=
  ⟨.fmWait, State.agentOp_fm_of_wait hs,
    fun draws => ⟨_, exec_fmWait_of_pending (s := s.begin [] draws) hs hp, nofun⟩⟩

/-- In `Dispatch(m)` it is always enabled. -/
theorem fm_enabled_of_dispatch {s : State} {m : AlertMask} (hwf : s.params.wf = true) (hinv : ComponentInv s)
    (hs : s.fmSeq = .dispatch m) : TaskEnabled .fm s := by
  have hm : m ≠ 0#7 := fun h0 => hinv.dispatch_nonempty (h0 ▸ hs)
  obtain ⟨a, hn⟩ := nextAlert_isSome s.params m (s.params.wf_order hwf) hm
  exact ⟨a.handler, State.agentOp_fm_of_dispatch hs hn,
    fun draws => ⟨_, exec_handler_of_nextAlert (s := s.begin [] draws) hs hn rfl, nofun⟩⟩

/-- A handled alert leaves a smaller mask (R112). -/
theorem clear_lt {b : AlertBits} {m : AlertMask} {a : Alert} (h : b.has m a = true) :
    (b.clear m a).toNat < m.toNat := by
  refine Nat.lt_of_le_of_ne ?_ fun heq => ?_
  · rw [AlertBits.clear, BitVec.toNat_and]
    exact Nat.and_le_left
  · have hclear := b.has_clear m a a
    rw [BitVec.eq_of_toNat_eq heq, h] at hclear
    simp at hclear

/-- After `done` the sequencer waits, or dispatches the smaller mask. -/
theorem doneSeq_cases (b : AlertBits) (m : AlertMask) (a : Alert) :
    (b.clear m a = 0#7 ∧ doneSeq b m a = .wait) ∨ doneSeq b m a = .dispatch (b.clear m a) := by
  by_cases h : b.clear m a = 0#7
  · exact .inl ⟨h, by rw [doneSeq, if_pos h]⟩
  · exact .inr (by rw [doneSeq, if_neg h])

section
variable {p : Params} {states : Nat → State} {issues : Nat → Issue} {n : Nat} (hrun : Run states issues)
  (hhost : ∀ m, n ≤ m → (issues m).issuer ≠ .agent .host) (hfair : WeaklyFair states issues .fm) (hwf : p.wf = true)
  (halive : ∀ m, n ≤ m → Alive p (states m))
include hrun hhost

/-- A step the Fault Monitor takes: it enters the dispatch of the pending alerts, or handles the next one. -/
theorem fm_takes_cases {m : Nat} (hm : n ≤ m) (h : Takes states issues .fm m) :
    ((states m).fmSeq = .wait ∧ (states (m + 1)).fmSeq = .dispatch (states m).alertPend)
      ∨ ∃ mask a rest, (states m).fmSeq = .dispatch mask ∧ nextAlert (states m).params mask = some a
        ∧ decode (issues m).bytes = .ok (a.handler, rest)
        ∧ (states (m + 1)).fmSeq = doneSeq (states m).params.alertBit mask a
        ∧ (states (m + 1)).alertPend = (states m).alertPend := by
  obtain ⟨i, rest, hissuer, -, hinner, hdecode, hexec, -⟩ := run_effect hrun hhost hm
  obtain ⟨hfm, hb⟩ := h
  have howner : i.owner = .fm := Issuer.agent.inj (hissuer.symm.trans hfm)
  rcases fm_operation howner hinner with rfl | ⟨a, rfl⟩
  · exact .inl (exec_fmWait_completed (s := (states m).begin _ _) hexec hb)
  · obtain ⟨mask, hs, hn, hdone, hpend⟩ := exec_handler_completed hexec hb
    exact .inr ⟨mask, a, rest, hs, hn, hdecode, hdone, hpend⟩

include hfair

/-- In `Wait` a pending alert enters the dispatch. -/
theorem fm_dispatches_pending {a : Alert} {k : Nat} (hk : n ≤ k) (hs : (states k).fmSeq = .wait)
    (ha : p.alertBit.has (states k).alertPend a = true) :
    ∃ m mask, k ≤ m ∧ (states m).fmSeq = .dispatch mask ∧ p.alertBit.has mask a = true := by
  obtain ⟨m, hm, ⟨hseq, hpend⟩, htakes⟩ := hfair.takes_while
    (P := fun m => (states m).fmSeq = .wait ∧ p.alertBit.has (states m).alertPend a = true) ⟨hs, ha⟩
    (fun m _ hP => fm_enabled_of_wait hP.1 fun h0 => by simp [h0, AlertBits.has] at hP)
    (fun m hm hP hnot => by
      obtain ⟨hseq, hpend⟩ := fm_undisturbed hrun hhost (hk.trans hm) hnot
      exact ⟨hseq.trans hP.1, hpend _ a hP.2⟩)
  rcases fm_takes_cases hrun hhost (hk.trans hm) htakes with ⟨-, hdispatch⟩ | ⟨mask, b, rest, hdispatch, -⟩
  · exact ⟨m + 1, _, hm.trans (Nat.le_succ m), hdispatch, hpend⟩
  · simp [hseq] at hdispatch

include hwf halive

/-- In `Dispatch` the Fault Monitor handles the next alert, and what was pending till then still is. -/
theorem fm_handles_next {k : Nat} {mask : AlertMask} (hk : n ≤ k) (hs : (states k).fmSeq = .dispatch mask) :
    ∃ m a rest, k ≤ m ∧ Takes states issues .fm m ∧ p.alertBit.has mask a = true
      ∧ decode (issues m).bytes = .ok (a.handler, rest) ∧ (states (m + 1)).fmSeq = doneSeq p.alertBit mask a
      ∧ ∀ c, p.alertBit.has (states k).alertPend c = true → p.alertBit.has (states (m + 1)).alertPend c = true := by
  obtain ⟨m, hm, ⟨hseq, hpend⟩, htakes⟩ := hfair.takes_while
    (P := fun m => (states m).fmSeq = .dispatch mask
      ∧ ∀ c, p.alertBit.has (states k).alertPend c = true → p.alertBit.has (states m).alertPend c = true)
    ⟨hs, fun c hc => hc⟩
    (fun m hm hP => fm_enabled_of_dispatch ((halive m (hk.trans hm)).params ▸ hwf) (halive m (hk.trans hm)).inv hP.1)
    (fun m hm hP hnot => by
      obtain ⟨hseq, hpend⟩ := fm_undisturbed hrun hhost (hk.trans hm) hnot
      exact ⟨hseq.trans hP.1, fun c hc => hpend _ c (hP.2 c hc)⟩)
  have hparams := (halive m (hk.trans hm)).params
  rcases fm_takes_cases hrun hhost (hk.trans hm) htakes with ⟨hwait, -⟩ | ⟨mask', a, rest, hs', hn, hdecode, hdone, hkept⟩
  · simp [hseq] at hwait
  · obtain rfl : mask = mask' := FmSeq.dispatch.inj (hseq.symm.trans hs')
    rw [hparams] at hn hdone
    exact ⟨m, a, rest, hm, htakes, nextAlert_has p mask a hn, hdecode, hdone, fun c hc => hkept ▸ hpend c hc⟩

/-- An alert of the mask in dispatch is handled: each handler before its own leaves a smaller mask that still has it. -/
theorem fm_handles_dispatched {a : Alert} {k : Nat} {mask : AlertMask} (hk : n ≤ k)
    (hs : (states k).fmSeq = .dispatch mask) (ha : p.alertBit.has mask a = true) :
    ∃ m rest, k ≤ m ∧ decode (issues m).bytes = .ok (a.handler, rest) ∧ Takes states issues .fm m := by
  induction hsize : mask.toNat using Nat.strong_induction_on generalizing mask k with
  | _ size ih =>
    obtain ⟨m, b, rest, hm, htakes, hb, hdecode, hdone, -⟩ := fm_handles_next hrun hhost hfair hwf halive hk hs
    by_cases hab : b = a
    · exact ⟨m, rest, hm, hab ▸ hdecode, htakes⟩
    · have hstill : p.alertBit.has (p.alertBit.clear mask b) a = true := by
        rw [AlertBits.has_clear, ha]
        simpa using hab
      rcases doneSeq_cases p.alertBit mask b with ⟨hzero, -⟩ | hnext
      · simp [hzero, AlertBits.has] at hstill
      · obtain ⟨m', rest', hm', hdecode', htakes'⟩ :=
          ih _ (hsize ▸ clear_lt hb) ((hk.trans hm).trans (Nat.le_succ m)) (hdone.trans hnext) hstill rfl
        exact ⟨m', rest', (hm.trans (Nat.le_succ m)).trans hm', hdecode', htakes'⟩

/-- A dispatch comes to its end, and an alert that became pending meanwhile still is. -/
theorem fm_dispatch_ends {a : Alert} {k : Nat} {mask : AlertMask} (hk : n ≤ k) (hs : (states k).fmSeq = .dispatch mask)
    (ha : p.alertBit.has (states k).alertPend a = true) :
    ∃ m, k ≤ m ∧ (states m).fmSeq = .wait ∧ p.alertBit.has (states m).alertPend a = true := by
  induction hsize : mask.toNat using Nat.strong_induction_on generalizing mask k with
  | _ size ih =>
    obtain ⟨m, b, rest, hm, -, hb, -, hdone, hpend⟩ := fm_handles_next hrun hhost hfair hwf halive hk hs
    rcases doneSeq_cases p.alertBit mask b with ⟨-, hwait⟩ | hnext
    · exact ⟨m + 1, hm.trans (Nat.le_succ m), hdone.trans hwait, hpend a ha⟩
    · obtain ⟨m', hm', hwait, hpend'⟩ :=
        ih _ (hsize ▸ clear_lt hb) ((hk.trans hm).trans (Nat.le_succ m)) (hdone.trans hnext) (hpend a ha) rfl
      exact ⟨m', (hm.trans (Nat.le_succ m)).trans hm', hwait, hpend'⟩

/-- Every pending alert is eventually handled (R250). -/
theorem fm_handles_pending {a : Alert} (ha : p.alertBit.has (states n).alertPend a = true) :
    ∃ m rest, n ≤ m ∧ decode (issues m).bytes = .ok (a.handler, rest) ∧ Takes states issues .fm m := by
  obtain ⟨k, hk, hwait, hpend⟩ : ∃ k, n ≤ k ∧ (states k).fmSeq = .wait
      ∧ p.alertBit.has (states k).alertPend a = true := by
    have halive_n := halive n (Nat.le_refl n)
    cases hs : (states n).fmSeq with
    | idle => exact absurd (halive_n.inv.idle_until_launched.1.mp hs) (by simp [halive_n.launched])
    | wait => exact ⟨n, Nat.le_refl n, hs, ha⟩
    | dispatch mask => exact fm_dispatch_ends hrun hhost hfair hwf halive (Nat.le_refl n) hs ha
  obtain ⟨j, mask, hj, hdispatch, hmask⟩ := fm_dispatches_pending hrun hhost hfair hk hwait hpend
  obtain ⟨m, rest, hm, hdecode, htakes⟩ := fm_handles_dispatched hrun hhost hfair hwf halive (hk.trans hj) hdispatch hmask
  exact ⟨m, rest, (hk.trans hj).trans hm, hdecode, htakes⟩

end

/-! ### The Egress -/

/-- `EGR_DEQ` completes in `Deq` with a frame in the channel, and holds it. -/
theorem exec_egrDeq_completed {s t : State} (h : exec .egrDeq s = .next t) (hb : t.result ≠ .blocked) :
    ∃ tf rest, s.egrSeq = .deq ∧ s.q = tf :: rest ∧ t.egrSeq = .held tf ∧ t.q = rest := by
  have waits_not : exec .egrDeq s ≠ .next s.waits := fun hw =>
    hb (Host.Outcome.next.inj (h.symm.trans hw) ▸ rfl)
  have hs : s.egrSeq = .deq := not_not.mp fun hs => waits_not (exec_egrDeq_of_other hs)
  have ha : s.chAlloc = true := Bool.of_not_eq_false fun ha => by simp [exec_egrDeq_of_not_constructed hs ha] at h
  cases hq : s.q with
  | nil => exact absurd (exec_egrDeq_of_empty hs ha hq) waits_not
  | cons tf rest =>
    rw [exec_egrDeq_of_head hs ha hq] at h
    exact ⟨tf, rest, hs, rfl, Host.Outcome.next.inj h ▸ rfl, Host.Outcome.next.inj h ▸ rfl⟩

/-- `EGR_EMIT` on a held frame consumes it, and writes its record, capped to the buffer, if the transport takes it (R171). -/
theorem exec_egrEmit_of_held {s : State} {tf : TimedFrame} (hs : s.egrSeq = .held tf) :
    ∃ t, exec .egrEmit s = .next t ∧ t.result = .unit ∧ t.egrSeq = .deq ∧ t.q = s.q
      ∧ (s.drawTxOk = true → t.tx = s.tx ++ (record s.params.payloadMax tf).take s.params.outCap) := by
  obtain ⟨m, -, -, hok, hfail, hnone⟩ := egrEmitWritesRecord s tf hs
  rcases Nat.eq_zero_or_pos s.params.outCap with hcap | hcap
  · exact ⟨_, hnone hcap, rfl, rfl, rfl, fun _ => by rw [hcap, List.take_zero, List.append_nil]⟩
  · cases hd : s.drawTxOk with
    | true => exact ⟨_, hok hcap hd, rfl, rfl, rfl, fun _ => rfl⟩
    | false => exact ⟨_, hfail hcap hd, rfl, rfl, rfl, nofun⟩

/-- `EGR_EMIT` completes on a held frame alone. -/
theorem exec_egrEmit_completed {s t : State} (h : exec .egrEmit s = .next t) (hb : t.result ≠ .blocked) :
    ∃ tf, s.egrSeq = .held tf ∧ t.egrSeq = .deq ∧ t.q = s.q
      ∧ (s.drawTxOk = true → t.tx = s.tx ++ (record s.params.payloadMax tf).take s.params.outCap) := by
  by_cases hs : ∃ tf, s.egrSeq = .held tf
  · obtain ⟨tf, htf⟩ := hs
    obtain ⟨u, hu, -, hseq, hq, htx⟩ := exec_egrEmit_of_held htf
    obtain rfl := Host.Outcome.next.inj (h.symm.trans hu)
    exact ⟨tf, htf, hseq, hq, htx⟩
  · rw [exec_egrEmit_of_not_held (not_exists.mp hs)] at h
    exact absurd (Host.Outcome.next.inj h ▸ rfl) hb

theorem egr_enabled_of_head {s : State} {tf : TimedFrame} {rest : List TimedFrame} (hs : s.egrSeq = .deq)
    (ha : s.chAlloc = true) (hq : s.q = tf :: rest) : TaskEnabled .egr s :=
  ⟨.egrDeq, State.agentOp_egr_of_deq hs,
    fun draws => ⟨_, exec_egrDeq_of_head (s := s.begin [] draws) hs ha hq, nofun⟩⟩

theorem egr_enabled_of_held {s : State} {tf : TimedFrame} (hs : s.egrSeq = .held tf) : TaskEnabled .egr s := by
  refine ⟨.egrEmit, State.agentOp_egr_of_held hs, fun draws => ?_⟩
  obtain ⟨t, ht, hresult, -⟩ := exec_egrEmit_of_held (s := s.begin [] draws) hs
  exact ⟨t, ht, by simp [hresult]⟩

section
variable {p : Params} {states : Nat → State} {issues : Nat → Issue} {n : Nat} (hrun : Run states issues)
  (hhost : ∀ m, n ≤ m → (issues m).issuer ≠ .agent .host) (hfair : WeaklyFair states issues .egr)
  (halive : ∀ m, n ≤ m → Alive p (states m))
include hrun hhost

/-- While the Egress takes no step its sequencer stands still, and the channel only grows at its end. -/
theorem egr_undisturbed {m : Nat} (hm : n ≤ m) (h : ¬Takes states issues .egr m) :
    (states (m + 1)).egrSeq = (states m).egrSeq ∧ ∃ more, (states (m + 1)).q = (states m).q ++ more := by
  obtain ⟨i, rest, howner, he, hegr | heq⟩ := not_takes_cases hrun hhost hm h
  · obtain ⟨-, -, hseq, -⟩ := he.sequencers_owned
    obtain ⟨hq, hqIng, -⟩ := he.q_owned
    refine ⟨hseq.resolve_right ?_, ?_⟩
    · rintro (hown | rfl)
      · exact hegr hown
      · exact howner rfl
    · have unchanged : (states (m + 1)).q = (states m).q → ∃ more, (states (m + 1)).q = (states m).q ++ more :=
        fun hsame => ⟨[], by rw [hsame, List.append_nil]⟩
      rcases hq with hsame | hing | hown
      · exact unchanged hsame
      · rcases hqIng hing with hsame | ⟨tf, hadd⟩
        · exact unchanged hsame
        · exact ⟨[tf], hadd⟩
      · exact absurd hown hegr
  · rw [heq]
    exact ⟨rfl, [], (List.append_nil _).symm⟩

/-- A step the Egress takes: it holds the head of the channel, or emits the held frame. -/
theorem egr_takes_cases {m : Nat} (hm : n ≤ m) (h : Takes states issues .egr m) :
    (∃ tf rest, (states m).egrSeq = .deq ∧ (states m).q = tf :: rest ∧ (states (m + 1)).egrSeq = .held tf
        ∧ (states (m + 1)).q = rest)
      ∨ ∃ tf, (states m).egrSeq = .held tf ∧ (states (m + 1)).egrSeq = .deq ∧ (states (m + 1)).q = (states m).q
        ∧ ((issues m).draws.txOk = some true → (states (m + 1)).tx
          = (states m).tx ++ (record (states m).params.payloadMax tf).take (states m).params.outCap) := by
  obtain ⟨i, rest, hissuer, -, hinner, -, hexec, -⟩ := run_effect hrun hhost hm
  obtain ⟨hegr, hb⟩ := h
  have howner : i.owner = .egr := Issuer.agent.inj (hissuer.symm.trans hegr)
  rcases egr_operation howner hinner with rfl | rfl
  · exact .inl (exec_egrDeq_completed (s := (states m).begin _ _) hexec hb)
  · obtain ⟨tf, hs, hseq, hq, htx⟩ := exec_egrEmit_completed hexec hb
    exact .inr ⟨tf, hs, hseq, hq, fun hok => htx (by simp [State.drawTxOk, hok])⟩

include hfair

/-- A held frame is emitted, and the channel has only grown at its end. -/
theorem egr_emits {tf : TimedFrame} {k : Nat} (hk : n ≤ k) (hs : (states k).egrSeq = .held tf) :
    ∃ m, k ≤ m ∧ (states m).egrSeq = .held tf ∧ Takes states issues .egr m ∧ (states (m + 1)).egrSeq = .deq
      ∧ (∃ more, (states (m + 1)).q = (states k).q ++ more)
      ∧ ((issues m).draws.txOk = some true → (states (m + 1)).tx
        = (states m).tx ++ (record (states m).params.payloadMax tf).take (states m).params.outCap) := by
  obtain ⟨m, hm, ⟨hseq, hq⟩, htakes⟩ := hfair.takes_while
    (P := fun m => (states m).egrSeq = .held tf ∧ ∃ more, (states m).q = (states k).q ++ more)
    ⟨hs, [], (List.append_nil _).symm⟩ (fun m _ hP => egr_enabled_of_held hP.1)
    (fun m hm ⟨hheld, more, hmore⟩ hnot => by
      obtain ⟨hseq, more', hq⟩ := egr_undisturbed hrun hhost (hk.trans hm) hnot
      exact ⟨hseq.trans hheld, more ++ more', by rw [hq, hmore, List.append_assoc]⟩)
  rcases egr_takes_cases hrun hhost (hk.trans hm) htakes with ⟨x, rest, hdeq, -⟩ | ⟨x, hheld, hdeq, hsame, htx⟩
  · simp [hseq] at hdeq
  · obtain rfl : tf = x := EgrSeq.held.inj (hseq.symm.trans hheld)
    exact ⟨m, hm, hseq, htakes, hdeq, hsame ▸ hq, htx⟩

include halive

/-- The head of the channel is taken, and the frames behind it follow. -/
theorem egr_dequeues {tf : TimedFrame} {rest : List TimedFrame} {k : Nat} (hk : n ≤ k) (hs : (states k).egrSeq = .deq)
    (hq : (states k).q = tf :: rest) :
    ∃ m, k ≤ m ∧ (states m).egrSeq = .held tf ∧ ∃ more, (states m).q = rest ++ more := by
  obtain ⟨m, hm, ⟨hseq, more, hmore⟩, htakes⟩ := hfair.takes_while
    (P := fun m => (states m).egrSeq = .deq ∧ ∃ more, (states m).q = tf :: (rest ++ more))
    ⟨hs, [], by rw [hq, List.append_nil]⟩
    (fun m hm ⟨hdeq, more, hmore⟩ => egr_enabled_of_head hdeq (halive m (hk.trans hm)).chAlloc hmore)
    (fun m hm ⟨hdeq, more, hmore⟩ hnot => by
      obtain ⟨hseq, more', hq'⟩ := egr_undisturbed hrun hhost (hk.trans hm) hnot
      exact ⟨hseq.trans hdeq, more ++ more', by rw [hq', hmore, List.cons_append, List.append_assoc]⟩)
  rcases egr_takes_cases hrun hhost (hk.trans hm) htakes with ⟨x, tail, -, hx, hheld, htail⟩ | ⟨x, hheld, -⟩
  · obtain ⟨rfl, rfl⟩ := List.cons.inj (hmore.symm.trans hx)
    exact ⟨m + 1, hm.trans (Nat.le_succ m), hheld, more, htail⟩
  · simp [hseq] at hheld

/-- The Egress comes back to `Deq`, and the channel has only grown at its end. -/
theorem egr_reaches_deq {k : Nat} (hk : n ≤ k) :
    ∃ m, k ≤ m ∧ (states m).egrSeq = .deq ∧ ∃ more, (states m).q = (states k).q ++ more := by
  have halive_k := halive k hk
  cases hs : (states k).egrSeq with
  | idle => exact absurd (halive_k.inv.idle_until_launched.2.2.mp hs) (by simp [halive_k.launched])
  | deq => exact ⟨k, Nat.le_refl k, hs, [], (List.append_nil _).symm⟩
  | held tf =>
    obtain ⟨m, hm, -, -, hdeq, hmore, -⟩ := egr_emits hrun hhost hfair hk hs
    exact ⟨m + 1, hm.trans (Nat.le_succ m), hdeq, hmore⟩

/-- Every frame in the channel is eventually taken and written: first those before it are (R250). -/
theorem egr_writes_stored {before after : List TimedFrame} {tf : TimedFrame} {k : Nat} (hk : n ≤ k)
    (hq : (states k).q = before ++ tf :: after) :
    ∃ m, k ≤ m ∧ (states m).egrSeq = .held tf ∧ Takes states issues .egr m ∧ (states (m + 1)).egrSeq = .deq
      ∧ ((issues m).draws.txOk = some true → (states (m + 1)).tx
        = (states m).tx ++ (record (states m).params.payloadMax tf).take (states m).params.outCap) := by
  induction before generalizing k after with
  | nil =>
    obtain ⟨j, hj, hdeq, more, hmore⟩ := egr_reaches_deq hrun hhost hfair halive hk
    obtain ⟨l, hl, hheld, -⟩ := egr_dequeues hrun hhost hfair halive (hk.trans hj) hdeq (hmore.trans (by rw [hq]; rfl))
    obtain ⟨m, hm, hseq, htakes, hdone, -, htx⟩ := egr_emits hrun hhost hfair ((hk.trans hj).trans hl) hheld
    exact ⟨m, (hj.trans hl).trans hm, hseq, htakes, hdone, htx⟩
  | cons x before ih =>
    obtain ⟨j, hj, hdeq, more, hmore⟩ := egr_reaches_deq hrun hhost hfair halive hk
    have hqj : (states j).q = x :: (before ++ tf :: (after ++ more)) := by rw [hmore, hq]; simp
    obtain ⟨l, hl, -, more', hmore'⟩ := egr_dequeues hrun hhost hfair halive (hk.trans hj) hdeq hqj
    have hql : (states l).q = before ++ tf :: (after ++ more ++ more') := by rw [hmore']; simp
    obtain ⟨m, hm, hrest⟩ := ih ((hk.trans hj).trans hl) hql
    exact ⟨m, (hj.trans hl).trans hm, hrest⟩

end

/-- Settles O60: the three tasks' steps at the end of a run, and for its progress the two tasks that weak fairness moves. -/
theorem quiescentTasksWait : Obligations.QuiescentTasksWait := by
  unfold Obligations.QuiescentTasksWait
  refine ⟨fun s a i h hd ha htask hi => h.exec_task hd ha htask hi,
    fun s wake _ hs hw => exec_ingWake_of_early hs hw,
    fun s h => ⟨fun m hm => by simp [h.fmSeq] at hm, h.ingSeq_ne_held, fun tf hs => by simp [h.egrSeq] at hs⟩,
    fun s ops h hs ha hops => ?_, fun states issues n hfair hinv hlaunched hwf hhost => ?_⟩
  · obtain ⟨t, ht, hsame⟩ := h.execAll_tasks hs ha hops
    exact ⟨t, ht, hsame.quiescent, hsame.ingSeq, hsame.tx, hsame.hwq, hsame.q, hsame.drop, hsame.bhs, hsame.ctrl,
      hsame.timeUs, hsame.logFm, hsame.logEgr⟩
  · have halive : ∀ m, n ≤ m → Alive (states n).params (states m) :=
      fun m hm => alive_of_le hfair.run hhost ⟨hinv, hlaunched, rfl⟩ hm
    refine ⟨fun a ha => fm_handles_pending hfair.run hhost hfair.fm hwf halive ha, fun tf htf => ?_⟩
    obtain ⟨before, after, hq⟩ := List.append_of_mem htf
    exact egr_writes_stored hfair.run hhost hfair.egr halive (Nat.le_refl n) hq

end Sys2Proof.Safety
end
